-- ==== Sys2Proof/Word.lean ====
section
/-! DEFINITION. The word types of HUFCORE (00_scope.md R8, R10): host words, symbols, bytes, host byte
addresses. All values are unsigned. -/

namespace Sys2Proof

/-- A host word, a register, a symbol or a count: 32 bits (R8 `SYM_W`, `WT_W`; R17). -/
abbrev Word := BitVec 32

/-- A byte of the packed stream or a character code of the scheme text (R33, R34). -/
abbrev Byte := BitVec 8

/-- A host byte address, `AW` = 17 bits (R8, R40). -/
abbrev Addr := BitVec 17

/-- An index, a count or a position as a 32-bit word. -/
abbrev word (n : Nat) : Word := BitVec.ofNat 32 n

end Sys2Proof
end

