-- ==== Sys2Proof/Syntax.lean ====
section
/-! DEFINITION. The instructions of HUFCORE: the ten commands of 30_encoding.md R62, none with an operand (R61),
and the one instruction format, CMD (R59). -/

namespace Sys2Proof

/-- The ten commands, in the order of the opcode map (R62). -/
inductive Instr where
  /-- 0x01 FREQ: count each distinct symbol of the text. -/
  | freq
  /-- 0x02 BUILD: greedy merge of the frequency list into a tree. -/
  | build
  /-- 0x03 DERIVE: walk the tree, produce the symbol to bit-string table. -/
  | derive
  /-- 0x04 INVERT: check a host-written table, make it usable. -/
  | invert
  /-- 0x05 ENCODE: concatenate the codes of the text's symbols. -/
  | encode
  /-- 0x06 DECODE: scan the bit-string into symbols. -/
  | decode
  /-- 0x07 SER: render the table as scheme text. -/
  | ser
  /-- 0x08 PARSE: parse scheme text into a checked table. -/
  | parse
  /-- 0x09 PACK: bit-string to bytes with sentinel and padding. -/
  | pack
  /-- 0x0A UNPACK: bytes to bit-string, sentinel and padding removed. -/
  | unpack
  deriving DecidableEq, Repr

/-- The format CMD of a command word (R59): OPC in bits 7..0, RSV in bits 31..8. -/
structure CmdFormat where
  rsv : BitVec 24
  opc : BitVec 8
  deriving DecidableEq, Repr

end Sys2Proof
end

