-- ==== Sys2Proof/WellFormed.lean ====
section
/-! DEFINITION. Which terms of the instruction format are commands (30_encoding.md R60). `Instr` itself has no
operands, so each of its terms is well formed; the checks are those on the format a word splits into. -/

namespace Sys2Proof

/-- RSV must be 0 (R59, R60). -/
def CmdFormat.rsvOk (f : CmdFormat) : Bool := f.rsv == 0

/-- OPC is one of 0x01 .. 0x0A (R60). -/
def CmdFormat.opcOk (f : CmdFormat) : Bool := decide (1 ≤ f.opc.toNat ∧ f.opc.toNat ≤ 10)

/-- A format is a legal command word if and only if both checks hold (R60). -/
def CmdFormat.wellFormed (f : CmdFormat) : Bool := f.rsvOk && f.opcOk

/-- The opcode of each command (R62). -/
def Instr.opc : Instr → BitVec 8
  | .freq => 0x01
  | .build => 0x02
  | .derive => 0x03
  | .invert => 0x04
  | .encode => 0x05
  | .decode => 0x06
  | .ser => 0x07
  | .parse => 0x08
  | .pack => 0x09
  | .unpack => 0x0A

/-- The format of a command: its opcode, RSV = 0 (R59, R62). -/
def Instr.format (i : Instr) : CmdFormat := { rsv := 0, opc := i.opc }

/-- An instruction is well formed when its format is. -/
def Instr.wellFormed (i : Instr) : Bool := i.format.wellFormed

end Sys2Proof
end

