-- ==== Sys2Proof/Decode.lean ====
section
/-! DEFINITION. Decoding a command word, total on all 32-bit values (30_encoding.md R60), and the encoder
(R59, R62). -/

namespace Sys2Proof

/-- Why a word is no command (R60, R64). Both reasons complete alike, with BadCommand(0). -/
inductive DecodeReject where
  /-- RSV, bits 31..8, is not 0. -/
  | reservedBits
  /-- OPC is 0x00 or 0x0B .. 0xFF. -/
  | reservedOpcode
  deriving DecidableEq, Repr

/-- The two fields of a command word (R59). -/
def splitWord (w : Word) : CmdFormat := { rsv := w.extractLsb' 8 24, opc := w.extractLsb' 0 8 }

/-- The word of a format: RSV above OPC (R59). -/
def joinWord (f : CmdFormat) : Word := f.rsv ++ f.opc

/-- The opcode map (R62), read from the opcode's number. -/
def opcodeMap : Nat → Option Instr
  | 0x01 => some .freq
  | 0x02 => some .build
  | 0x03 => some .derive
  | 0x04 => some .invert
  | 0x05 => some .encode
  | 0x06 => some .decode
  | 0x07 => some .ser
  | 0x08 => some .parse
  | 0x09 => some .pack
  | 0x0A => some .unpack
  | _ => none

/-- Decoding (R60): a legal word is one of the ten commands, every other is refused by name. -/
def decode (w : Word) : Except DecodeReject Instr :=
  if (splitWord w).rsv = 0 then
    match opcodeMap (splitWord w).opc.toNat with
    | some i => .ok i
    | none => .error .reservedOpcode
  else .error .reservedBits

/-- The command word of an instruction (R59, R62). -/
def encode (i : Instr) : Word := joinWord i.format

/-- What the decoder reads from the opcode table's `nbits` bits `w`, bits above them 0. A command word has 32
bits, so a value that needs more is no instruction. -/
def decodeTableWord (nbits w : Nat) : Option Instr :=
  if w % 2 ^ nbits < 2 ^ 32 then
    match decode (word (w % 2 ^ nbits)) with
    | .ok i => some i
    | .error _ => none
  else none

end Sys2Proof
end

