-- ==== Sys2Proof/Config.lean ====
section
/-! DEFINITION. What the implementation fixes (the parameters of 00_scope.md R8, with this hardware's values)
and the free values: what each element of the seven buffer memories holds after a hard reset and before
anything has written it (10_state.md R38, 70_reset_and_hazards.md R152; log 2). -/

namespace Sys2Proof.Config

/-- `N_MAX`: distinct symbols, frequency entries, code-table entries. -/
abbrev nMax : Nat := 256
/-- `NODE_MAX`: tree-node slots, `2 * N_MAX - 1`. -/
abbrev nodeMax : Nat := 511
/-- `CODE_MAX`: the largest code length in bits. -/
abbrev codeMax : Nat := 255
/-- `TEXT_MAX`: symbol slots in TEXT memory. -/
abbrev textMax : Nat := 4096
/-- `BITS_MAX`: bit slots in BIT memory. -/
abbrev bitsMax : Nat := 65536
/-- `BYTES_MAX`: byte slots in BYTE memory. -/
abbrev bytesMax : Nat := 8192
/-- `SCH_MAX`: character slots in SCH memory. -/
abbrev schMax : Nat := 65536
/-- The largest weight, `2^WT_W - 1` (R16, R86). -/
abbrev weightMax : Nat := 4294967295
/-- The largest symbol, `2^SYM_W - 1` (R15, R119). -/
abbrev symMax : Nat := 4294967295
/-- Words of bit slots in one CODE entry: 256 slots, 32 a word (R30, R47). -/
abbrev codeWords : Nat := 8

/-! The free values. The first argument counts the hard resets so far, the second is the element's index:
"each element holds some value of its type that the spec does not name ... stable" (R38). They have no body, so
nothing can be proved of them. -/

opaque initFreqCount (epoch i : Nat) : Word
opaque initFreqSym (epoch i : Nat) : Word
/-- The `kind` bit of an unwritten NODE entry (true = 1 = Branch). -/
opaque initNodeKind (epoch i : Nat) : Bool
opaque initNodeA (epoch i : Nat) : Word
opaque initNodeB (epoch i : Nat) : BitVec 9
opaque initCodeSym (epoch i : Nat) : Word
opaque initCodeLen (epoch i : Nat) : Word
/-- Word `j` of all the bit-slot words of CODE memory: word `j mod 8` of entry `j div 8`. -/
opaque initCodeBits (epoch j : Nat) : Word
opaque initText (epoch i : Nat) : Word
opaque initBit (epoch i : Nat) : Bool
opaque initByte (epoch i : Nat) : Byte
opaque initSch (epoch i : Nat) : Byte

end Sys2Proof.Config
end

