-- ==== Sys2Proof/Machine/Bits.lean ====
section
/-! DEFINITION. Bit-strings and their places in words and bytes (00_scope.md R11, 20_memory.md R44, R52,
44_bitpack.md R124, R125). A bit-string is a `List Bool`, element 0 first. -/

namespace Sys2Proof.Machine

/-- The number whose bit `j` is element `j`: the lower index at the less significant place (R44). -/
def slotsValue : List Bool → Nat
  | [] => 0
  | b :: bs => b.toNat + 2 * slotsValue bs

/-- The host word whose bit `j` is `f j` (R44, `w` = 1). -/
def wordOfSlots (f : Nat → Bool) : Word := word (slotsValue ((List.range 32).map f))

/-- The binary numeral of a bit-string, its first element the most significant digit (R124). -/
def numeral : List Bool → Nat
  | [] => 0
  | b :: bs => b.toNat * 2 ^ bs.length + numeral bs

/-- The byte of a group of eight bits (R124). -/
def byteOfGroup (bs : List Bool) : Byte := BitVec.ofNat 8 (numeral bs)

/-- The eight bits of a byte, most significant first (R125). -/
def bitsOfByte (v : Byte) : List Bool := (List.range 8).map fun j => v.getLsbD (7 - j)

/-- The host word of four bytes, the lower index at the less significant place (R44, `w` = 8). -/
def wordOfBytes (f : Nat → Byte) : Word := f 3 ++ f 2 ++ f 1 ++ f 0

/-- Byte `m` of a host word (R44, `w` = 8). -/
def byteOfWord (v : Word) (m : Nat) : Byte := v.extractLsb' (8 * m) 8

/-- The eight words of the bit slots of a CODE entry holding `b`, 0 in the slots at or above its length
(42_code_table.md R95, 20_memory.md R47). -/
def slotWords (b : List Bool) : List Word :=
  (List.range Config.codeWords).map fun k => wordOfSlots fun j => b.getD (32 * k + j) false

end Sys2Proof.Machine
end

