-- ==== Sys2Proof/Machine/State.lean ====
section
/-! DEFINITION. The state of HUFCORE as plain data: the registers of 10_state.md R17, the seven buffer memories
of R28 to R34, and the model's own fields (the memories' epoch, the inputs still to come, the responses given).
The machine right after reset (R38). -/

namespace Sys2Proof.Machine

/-- Why the machine stops. -/
inductive Fault where
  /-- DERIVE, with TREEVALID = 1, over NODE memory that is no tree: the walk leaves `NODE[0 .. NNODE-1]`, does
  not end within `NODE_MAX` levels, or yields more than `N_MAX` entries or a path above `CODE_MAX`. R26 and R88
  exclude such a state and R155 rests on that ("DERIVE runs only on a valid tree"); no run reaches it. Safe
  (log 4). -/
  | treeNotWellFormed
  deriving DecidableEq, Repr

/-- Why an instruction has no meaning. -/
inductive Refusal where
  /-- Raised by `exec` for an instruction not modelled yet, named as the opcode table names it. Safe. No arm
  raises it. -/
  | notModelled (mnemonic : String)
  deriving DecidableEq, Repr

/-- The error kinds of STATUS.ERR (60_exceptions.md R133); codes 10 .. 15 are never written. -/
inductive ErrKind where
  | noError
  | emptyInput
  | malformedScheme
  | undecodableSequence
  | noSentinelFound
  | badCommand
  | capacity
  | badOperand
  | unknownSymbol
  | notReady
  deriving DecidableEq, Repr

/-- `raise K(info)` (R131). -/
structure Raise where
  kind : ErrKind
  info : Word
  deriving DecidableEq, Repr

/-- The `kind` field of a NODE entry (R29): 0 = Leaf, 1 = Branch. -/
inductive NodeKind where
  | leaf
  | branch
  deriving DecidableEq, Repr

/-- One field of a buffer memory: the elements written since the last hard reset, as (index, value) pairs in one
canonical form, indices strictly rising. An index not listed has no written value; what a read of it gives is
the free value of Config (log 2). -/
abbrev Memory (α : Type) := List (Nat × α)

/-- The seven buffer memories (R28 to R34), field by field. -/
structure Buffers where
  freqCount : Memory Word
  freqSym : Memory Word
  nodeKind : Memory NodeKind
  nodeA : Memory Word
  nodeB : Memory (BitVec 9)
  codeSym : Memory Word
  codeLen : Memory Word
  /-- Word `k` of the bit slots of entry `i` is at index `8 * i + k` (R47). -/
  codeBits : Memory Word
  text : Memory Word
  bit : Memory Bool
  byte : List Host.Cell
  sch : List Host.Cell
  deriving DecidableEq, Repr

/-- A host transaction (20_memory.md R40). -/
inductive Request where
  /-- `MemRead(addr, 4)` -/
  | read (addr : Addr)
  /-- `MemWrite(addr, 4, data)` -/
  | write (addr : Addr) (data : Word)
  deriving DecidableEq, Repr

/-- The response to an accepted request (R40): 0 and true when it is refused (R42). -/
structure Response where
  rdata : Word
  err : Bool
  deriving DecidableEq, Repr

/-- What happens next outside the engine, or that the engine's turn comes first (log 1). -/
inductive Input where
  /-- The host presents a request on the port. -/
  | request (r : Request)
  /-- The engine takes its step, if it has one, before the inputs after this one. -/
  | engine
  /-- `rst` is sampled high (70_reset_and_hazards.md R152). -/
  | hardReset
  deriving DecidableEq, Repr

/-- The state of the block, and of the world outside as far as the model holds it. -/
structure State where
  /-- CTRL.IE (R19). -/
  ie : Bool
  /-- CMD (R20). -/
  cmd : Word
  /-- STATUS.BUSY (R21). -/
  busy : Bool
  /-- STATUS.DONE (R21). -/
  done : Bool
  /-- STATUS.ERR (R21, R133). -/
  err : ErrKind
  /-- STATUS.TREEVALID (R26). -/
  treeValid : Bool
  /-- STATUS.TVALID (R27). -/
  tableValid : Bool
  /-- ERRINFO (R22). -/
  errInfo : Word
  /-- TEXTLEN (R23). -/
  textLen : Word
  /-- NFREQ (R23). -/
  nFreq : Word
  /-- NNODE (R24). -/
  nNode : Word
  /-- ROOT (R24). -/
  root : Word
  /-- NCODE (R23). -/
  nCode : Word
  /-- BITLEN (R23). -/
  bitLen : Word
  /-- BYTELEN (R23). -/
  byteLen : Word
  /-- SCHLEN (R23). -/
  schLen : Word
  /-- FREQ, NODE, CODE, TEXT, BIT, BYTE and SCH (R28 to R34). -/
  mem : Buffers
  /-- The model's own: the number of hard resets so far, which selects the free values of the memories. -/
  epoch : Nat
  /-- The model's own: what the world outside does next, in order. -/
  inputs : List Input
  /-- The model's own: the responses given on the port, newest first. -/
  responses : List Response
  deriving DecidableEq, Repr

/-- No element written. -/
def Buffers.unwritten : Buffers where
  freqCount := []
  freqSym := []
  nodeKind := []
  nodeA := []
  nodeB := []
  codeSym := []
  codeLen := []
  codeBits := []
  text := []
  bit := []
  byte := []
  sch := []

/-- The machine right after a hard reset (R38, R152): all registers and flags 0, every memory element
unspecified, nothing on the port. -/
def State.reset : State where
  ie := false
  cmd := 0
  busy := false
  done := false
  err := .noError
  treeValid := false
  tableValid := false
  errInfo := 0
  textLen := 0
  nFreq := 0
  nNode := 0
  root := 0
  nCode := 0
  bitLen := 0
  byteLen := 0
  schLen := 0
  mem := .unwritten
  epoch := 0
  inputs := []
  responses := []

end Sys2Proof.Machine
end

