-- ==== Sys2Proof/Machine/Ops.lean ====
section
/-! DEFINITION. The named operations: the buffer memories' read and write, the start of a command, its completion
without error and with one (the block's trap entry), the resets, the writes a command commits. -/

namespace Sys2Proof.Machine

/-! ### Memory -/

/-- The written value at an index, if any. -/
def Memory.read {α : Type} : Memory α → Nat → Option α
  | [], _ => none
  | (k, v) :: m, i => if k = i then some v else Memory.read m i

/-- The cells of consecutive elements from index `base`. -/
def Memory.cells {α : Type} : Nat → List α → Memory α
  | _, [] => []
  | base, v :: vs => (base, v) :: Memory.cells (base + 1) vs

/-- Write consecutive elements from index `base`; every other index keeps what it has. -/
def Memory.store {α : Type} (base : Nat) (vs : List α) (m : Memory α) : Memory α :=
  m.filter (fun c => c.1 < base) ++ Memory.cells base vs ++ m.filter (fun c => base + vs.length ≤ c.1)

/-- Write one element. -/
def Memory.set {α : Type} (i : Nat) (v : α) (m : Memory α) : Memory α := Memory.store i [v] m

/-- The canonical form: indices strictly rising, each below the memory's size. -/
abbrev Memory.wf {α : Type} (size : Nat) (m : Memory α) : Prop :=
  m.Pairwise (fun a b => a.1 < b.1) ∧ ∀ c ∈ m, c.1 < size

/-- All seven memories are in canonical form, with the sizes of 00_scope.md R8. -/
abbrev Buffers.wf (b : Buffers) : Prop :=
  Memory.wf Config.nMax b.freqCount ∧ Memory.wf Config.nMax b.freqSym ∧
  Memory.wf Config.nodeMax b.nodeKind ∧ Memory.wf Config.nodeMax b.nodeA ∧ Memory.wf Config.nodeMax b.nodeB ∧
  Memory.wf Config.nMax b.codeSym ∧ Memory.wf Config.nMax b.codeLen ∧
  Memory.wf (Config.codeWords * Config.nMax) b.codeBits ∧
  Memory.wf Config.textMax b.text ∧ Memory.wf Config.bitsMax b.bit ∧
  Memory.wf Config.bytesMax b.byte ∧ Memory.wf Config.schMax b.sch

/-! ### Command start, completion, errors -/

/-- Command start (30_encoding.md R65): what an accepted write of `w` to CMD does. It is also all the "return"
from an error there is (60_exceptions.md R146): it clears DONE, ERR and ERRINFO. -/
def State.startCommand (w : Word) (s : State) : State :=
  { s with cmd := w, busy := true, done := false, err := .noError, errInfo := 0 }

/-- Completion without error, after the commit (R66). -/
def State.finish (s : State) : State :=
  { s with err := .noError, errInfo := 0, busy := false, done := true }

/-- Completion with an error, the block's trap entry (R66; 60_exceptions.md R131, R132, R145): the cause goes to
ERR, the auxiliary value to ERRINFO, the failing word stays in CMD, control goes nowhere, and nothing else
changes. -/
def State.raise (r : Raise) (s : State) : State :=
  { s with err := r.kind, errInfo := r.info, busy := false, done := true }

/-- The completion step of a command whose semantics gave `outcome` (R66): perform all writes of the commit, or
none of them and report the error. -/
def completeWith {α : Type} (s : State) (outcome : Except Raise α) (commit : α → State → State) :
    Host.Outcome State Fault Refusal :=
  match outcome with
  | .ok a => .next (commit a s).finish
  | .error r => .next (s.raise r)

/-! ### Resets -/

/-- The registers and flags a reset clears (70_reset_and_hazards.md R152, R153). -/
def State.clearRegisters (s : State) : State :=
  { s with
    ie := false, cmd := 0, busy := false, done := false, err := .noError
    treeValid := false, tableValid := false, errInfo := 0
    textLen := 0, nFreq := 0, nNode := 0, root := 0
    nCode := 0, bitLen := 0, byteLen := 0, schLen := 0 }

/-- The soft reset (R153): registers and flags to 0, every memory element kept. It is only ever accepted with
BUSY = 0, so clearing BUSY changes nothing then. -/
def State.softReset (s : State) : State := s.clearRegisters

/-- The hard reset (R152): registers and flags to 0 and every memory element unspecified anew. -/
def State.hardReset (s : State) : State :=
  { s.clearRegisters with mem := .unwritten, epoch := s.epoch + 1 }

/-! ### Commits -/

/-- The commit of FREQ (40_freq.md R73). -/
def State.commitFreq (l : List (Nat × Word)) (s : State) : State :=
  { s with
    mem := { s.mem with
      freqCount := Memory.store 0 (l.map fun e => word e.1) s.mem.freqCount
      freqSym := Memory.store 0 (l.map fun e => e.2) s.mem.freqSym }
    nFreq := word l.length }

/-- Writing table entries from index 0 (42_code_table.md R95): symbol, length, all eight words of bit slots. -/
def Buffers.storeTable (t : List (Word × List Bool)) (b : Buffers) : Buffers :=
  { b with
    codeSym := Memory.store 0 (t.map fun e => e.1) b.codeSym
    codeLen := Memory.store 0 (t.map fun e => word e.2.length) b.codeLen
    codeBits := Memory.store 0 (t.flatMap fun e => slotWords e.2) b.codeBits }

/-- The commit of DERIVE and PARSE (42_code_table.md R96, 43_transcode.md R120). -/
def State.commitTable (t : List (Word × List Bool)) (s : State) : State :=
  { s with mem := s.mem.storeTable t, nCode := word t.length, tableValid := true }

/-- The commit of INVERT (42_code_table.md R101): TVALID only. -/
def State.commitValid (_ : Unit) (s : State) : State := { s with tableValid := true }

/-- The commit of ENCODE and UNPACK (43_transcode.md R109, 44_bitpack.md R128). -/
def State.commitBits (b : List Bool) (s : State) : State :=
  { s with mem := { s.mem with bit := Memory.store 0 b s.mem.bit }, bitLen := word b.length }

/-- The commit of DECODE (43_transcode.md R112). -/
def State.commitText (t : List Word) (s : State) : State :=
  { s with mem := { s.mem with text := Memory.store 0 t s.mem.text }, textLen := word t.length }

/-- The commit of SER (43_transcode.md R116). -/
def State.commitScheme (c : List Byte) (s : State) : State :=
  { s with mem := { s.mem with sch := Memory.store 0 c s.mem.sch }, schLen := word c.length }

/-- The commit of PACK (44_bitpack.md R126). -/
def State.commitBytes (y : List Byte) (s : State) : State :=
  { s with mem := { s.mem with byte := Memory.store 0 y s.mem.byte }, byteLen := word y.length }

end Sys2Proof.Machine
end

