-- ==== Sys2Proof/Machine/Operands.lean ====
section
/-! DEFINITION. How a command reads its implicit operands (30_encoding.md R61, R63, R68; 00_scope.md R12): single
elements of the buffer memories, and the whole operand a length register delimits. An element nothing has
written reads as its free value (10_state.md R38; log 2). -/

namespace Sys2Proof.Machine

/-! ### Elements -/

/-- `FREQ[i].count` (R28). -/
def State.freqCountAt (s : State) (i : Nat) : Word :=
  (Memory.read s.mem.freqCount i).getD (Config.initFreqCount s.epoch i)

/-- `FREQ[i].sym` (R28). -/
def State.freqSymAt (s : State) (i : Nat) : Word :=
  (Memory.read s.mem.freqSym i).getD (Config.initFreqSym s.epoch i)

/-- A NODE kind from its bit (R29). -/
def NodeKind.ofBit (b : Bool) : NodeKind := if b then .branch else .leaf

/-- The bit of a NODE kind (R29). -/
def NodeKind.bit : NodeKind → Bool
  | .leaf => false
  | .branch => true

/-- `NODE[i].kind` (R29). -/
def State.nodeKindAt (s : State) (i : Nat) : NodeKind :=
  (Memory.read s.mem.nodeKind i).getD (.ofBit (Config.initNodeKind s.epoch i))

/-- `NODE[i].a` (R29): a Leaf's symbol, a Branch's left child. -/
def State.nodeAAt (s : State) (i : Nat) : Word :=
  (Memory.read s.mem.nodeA i).getD (Config.initNodeA s.epoch i)

/-- `NODE[i].b` (R29): a Branch's right child. -/
def State.nodeBAt (s : State) (i : Nat) : BitVec 9 :=
  (Memory.read s.mem.nodeB i).getD (Config.initNodeB s.epoch i)

/-- `CODE[i].sym` (R30). -/
def State.codeSymAt (s : State) (i : Nat) : Word :=
  (Memory.read s.mem.codeSym i).getD (Config.initCodeSym s.epoch i)

/-- `CODE[i].len` (R30). -/
def State.codeLenAt (s : State) (i : Nat) : Word :=
  (Memory.read s.mem.codeLen i).getD (Config.initCodeLen s.epoch i)

/-- Word `k` of the bit slots of `CODE[i]` (R47). -/
def State.codeWordAt (s : State) (i k : Nat) : Word :=
  (Memory.read s.mem.codeBits (Config.codeWords * i + k)).getD
    (Config.initCodeBits s.epoch (Config.codeWords * i + k))

/-- `CODE[i].bits[j]` (R30, R47). -/
def State.codeBitAt (s : State) (i j : Nat) : Bool := (s.codeWordAt i (j / 32)).getLsbD (j % 32)

/-- `TEXT[i]` (R31). -/
def State.textAt (s : State) (i : Nat) : Word := (Memory.read s.mem.text i).getD (Config.initText s.epoch i)

/-- `BIT[i]` (R32). -/
def State.bitAt (s : State) (i : Nat) : Bool := (Memory.read s.mem.bit i).getD (Config.initBit s.epoch i)

/-- `BYTE[i]` (R33). -/
def State.byteAt (s : State) (i : Nat) : Byte := (Memory.read s.mem.byte i).getD (Config.initByte s.epoch i)

/-- `SCH[i]` (R34). -/
def State.schAt (s : State) (i : Nat) : Byte := (Memory.read s.mem.sch i).getD (Config.initSch s.epoch i)

/-! ### Whole operands -/

/-- The first `n` values of `f`, in index order. -/
def firstOf {α : Type} (n : Nat) (f : Nat → α) : List α := (List.range n).map f

/-- `TEXT[0 .. TEXTLEN-1]` (R23). -/
def State.textOperand (s : State) : List Word := firstOf s.textLen.toNat s.textAt

/-- `FREQ[0 .. NFREQ-1]` as (count, sym) pairs (R23, R28). -/
def State.freqOperand (s : State) : List (Word × Word) :=
  firstOf s.nFreq.toNat fun i => (s.freqCountAt i, s.freqSymAt i)

/-- The bit-string `CODE[i].bits[0 .. len)` (R30). -/
def State.codeString (s : State) (i : Nat) : List Bool := firstOf (s.codeLenAt i).toNat (s.codeBitAt i)

/-- Row `i` of the code table, symbol and bit-string (R30). -/
def State.codeEntry (s : State) (i : Nat) : Word × List Bool := (s.codeSymAt i, s.codeString i)

/-- The code table `CODE[0 .. NCODE-1]` (R23, R30). -/
def State.tableOperand (s : State) : List (Word × List Bool) := firstOf s.nCode.toNat s.codeEntry

/-- `BIT[0 .. BITLEN-1]` (R23, R32). -/
def State.bitOperand (s : State) : List Bool := firstOf s.bitLen.toNat s.bitAt

/-- `BYTE[0 .. BYTELEN-1]` (R23, R33). -/
def State.byteOperand (s : State) : List Byte := firstOf s.byteLen.toNat s.byteAt

/-- `SCH[0 .. SCHLEN-1]` (R23, R34). -/
def State.schOperand (s : State) : List Byte := firstOf s.schLen.toNat s.schAt

/-- A length register used as an input, against its largest legal value (60_exceptions.md R140): an unsigned
comparison of the whole register (30_encoding.md R69); the error reports the register. -/
def checkLength (len : Word) (limit : Nat) : Except Raise Unit :=
  if limit < len.toNat then .error ⟨.capacity, len⟩ else .ok ()

end Sys2Proof.Machine
end

