-- ==== Sys2Proof/Machine/BitPack.lean ====
section
/-! DEFINITION. PACK and UNPACK, the bit-packer and bit-unpacker (44_bitpack.md R123 to R130). -/

namespace Sys2Proof.Machine

/-- The packed form of a bit-string, still as bits (R123): the sentinel, then zeros to a multiple of 8. -/
def sentinelForm (b : List Bool) : List Bool := b ++ [true] ++ List.replicate (7 - b.length % 8) false

/-- The first `n` groups of eight bits as bytes (R124). -/
def groupBytes : Nat → List Bool → List Byte
  | 0, _ => []
  | n + 1, bits => byteOfGroup (bits.take 8) :: groupBytes n (bits.drop 8)

/-- The bytes of a bit-string (R126). -/
def packBytes (b : List Bool) : List Byte := groupBytes (b.length / 8 + 1) (sentinelForm b)

/-- The semantics of PACK up to its commit (R126). -/
def packOutcome (s : State) : Except Raise (List Byte) :=
  match checkLength s.bitLen Config.bitsMax with
  | .error r => .error r
  | .ok () =>
    if Config.bytesMax < s.bitLen.toNat / 8 + 1 then .error ⟨.capacity, s.bitLen⟩
    else .ok (packBytes s.bitOperand)

/-- PACK (R126). -/
def execPack (s : State) : Host.Outcome State Fault Refusal := completeWith s (packOutcome s) State.commitBytes

/-- The index of the last 1 (R128). -/
def lastOne : List Bool → Option Nat
  | [] => none
  | b :: bs =>
    match lastOne bs with
    | some q => some (q + 1)
    | none => if b then some 0 else none

/-- The bit-string of a byte stream (R125, R128): everything strictly before the last 1. -/
def unpackBits (bytes : List Byte) : Option (List Bool) :=
  (lastOne (bytes.flatMap bitsOfByte)).map fun p => (bytes.flatMap bitsOfByte).take p

/-- The semantics of UNPACK up to its commit (R128). -/
def unpackOutcome (s : State) : Except Raise (List Bool) :=
  match checkLength s.byteLen Config.bytesMax with
  | .error r => .error r
  | .ok () =>
    match unpackBits s.byteOperand with
    | none => .error ⟨.noSentinelFound, s.byteLen⟩
    | some b => .ok b

/-- UNPACK (R128). -/
def execUnpack (s : State) : Host.Outcome State Fault Refusal := completeWith s (unpackOutcome s) State.commitBits

end Sys2Proof.Machine
end

