-- ==== Sys2Proof/Machine/Freq.lean ====
section
/-! DEFINITION. FREQ, the frequency counter (40_freq.md R72 to R76). -/

namespace Sys2Proof.Machine

/-- Add one to the count of the first entry with the symbol, if there is one (R73). -/
def bumpCount (sym : Word) : List (Nat × Word) → Option (List (Nat × Word))
  | [] => none
  | (c, t) :: l => if t = sym then some ((c + 1, t) :: l) else (bumpCount sym l).map ((c, t) :: ·)

/-- The loop of R73 from text index `i`, with the local list so far. -/
def countFrom : Nat → List Word → List (Nat × Word) → Except Raise (List (Nat × Word))
  | _, [], l => .ok l
  | i, sym :: rest, l =>
    match bumpCount sym l with
    | some l' => countFrom (i + 1) rest l'
    | none =>
      if l.length = Config.nMax then .error ⟨.capacity, word i⟩
      else countFrom (i + 1) rest (l ++ [(1, sym)])

/-- The semantics of FREQ up to its commit (R73). -/
def freqOutcome (s : State) : Except Raise (List (Nat × Word)) :=
  match checkLength s.textLen Config.textMax with
  | .error r => .error r
  | .ok () => countFrom 0 s.textOperand []

/-- FREQ (R73). -/
def execFreq (s : State) : Host.Outcome State Fault Refusal := completeWith s (freqOutcome s) State.commitFreq

end Sys2Proof.Machine
end

