-- ==== Sys2Proof/Machine/CodeTable.lean ====
section
/-! DEFINITION. DERIVE and INVERT, the prefix-code table generator (42_code_table.md R91 to R105), and the two
lookups in a table. A table is a list of rows (symbol, bit-string). -/

namespace Sys2Proof.Machine

/-- The walk of R96 from node `v` with the path so far: the leaves below `v`, left first, each with its path. It
reads only `NODE[0 .. NNODE-1]`; `fuel` bounds the levels, and there is no result when the nodes run out of
either (log 4). -/
def State.walk (s : State) : Nat → Nat → List Bool → Option (List (Word × List Bool))
  | 0, _, _ => none
  | fuel + 1, v, path =>
    if v < s.nNode.toNat then
      match s.nodeKindAt v with
      | .leaf => some [(s.nodeAAt v, path)]
      | .branch =>
        match s.walk fuel (s.nodeAAt v).toNat (path ++ [false]) with
        | none => none
        | some l =>
          match s.walk fuel (s.nodeBAt v).toNat (path ++ [true]) with
          | none => none
          | some r => some (l ++ r)
    else none

/-- The rows DERIVE binds (R96): the single leaf gets "0" (R93), otherwise the walk from the root. -/
def State.leafRows (s : State) : Option (List (Word × List Bool)) :=
  if s.root.toNat < s.nNode.toNat then
    match s.nodeKindAt s.root.toNat with
    | .leaf => some [(s.nodeAAt s.root.toNat, [false])]
    | .branch => s.walk Config.nodeMax s.root.toNat []
  else none

/-- The rows fit CODE memory (R94: with a valid tree they always do). -/
def rowsFit (t : List (Word × List Bool)) : Bool :=
  decide (t.length ≤ Config.nMax) && t.all fun e => decide (e.2.length ≤ Config.codeMax)

/-- DERIVE (R96). On NODE memory that is no tree, which TREEVALID = 1 excludes (R26, R88), it stops (log 4). -/
def execDerive (s : State) : Host.Outcome State Fault Refusal :=
  if s.treeValid then
    match s.leafRows with
    | some t => if rowsFit t then completeWith s (.ok t) State.commitTable else .fault .treeNotWellFormed
    | none => .fault .treeNotWellFormed
  else completeWith s (.error ⟨.notReady, 0⟩) State.commitTable

/-- Checks 1 to 4 of R100 on entry `i`, with the rows before it; the row when they pass. -/
def checkRow (s : State) (i : Nat) (seen : List (Word × List Bool)) : Except Raise (Word × List Bool) :=
  if s.codeLenAt i = 0 then .error ⟨.malformedScheme, word i⟩
  else if Config.codeMax < (s.codeLenAt i).toNat then .error ⟨.capacity, word i⟩
  else if s.codeSymAt i ∈ seen.map Prod.fst then .error ⟨.malformedScheme, word i⟩
  else if s.codeString i ∈ seen.map Prod.snd then .error ⟨.malformedScheme, word i⟩
  else .ok (s.codeEntry i)

/-- The loop of R101 over `n` entries from entry `i`, with the rows before it. -/
def checkRowsFrom (s : State) : Nat → Nat → List (Word × List Bool) → Except Raise Unit
  | 0, _, _ => .ok ()
  | n + 1, i, seen =>
    match checkRow s i seen with
    | .error r => .error r
    | .ok row => checkRowsFrom s n (i + 1) (seen ++ [row])

/-- The semantics of INVERT up to its commit (R101). -/
def invertOutcome (s : State) : Except Raise Unit :=
  match checkLength s.nCode Config.nMax with
  | .error r => .error r
  | .ok () => checkRowsFrom s s.nCode.toNat 0 []

/-- INVERT (R101). -/
def execInvert (s : State) : Host.Outcome State Fault Refusal := completeWith s (invertOutcome s) State.commitValid

/-- Forward lookup (R103): the bit-string of the first row with the symbol. -/
def lookupSym (t : List (Word × List Bool)) (sym : Word) : Option (List Bool) :=
  (t.find? fun e => e.1 == sym).map Prod.snd

/-- Inverse lookup (R104): the symbol of the first row with the bit-string. -/
def lookupCode (t : List (Word × List Bool)) (b : List Bool) : Option Word :=
  (t.find? fun e => e.2 == b).map Prod.fst

end Sys2Proof.Machine
end

