-- ==== Sys2Proof/Machine/Transcode.lean ====
section
/-! DEFINITION. ENCODE, DECODE, SER and PARSE (43_transcode.md R106 to R122). -/

namespace Sys2Proof.Machine

/-- A command that needs a valid table (60_exceptions.md R143): NotReady(0) before anything else is looked at. -/
def needTable (s : State) : Except Raise Unit := if s.tableValid then .ok () else .error ⟨.notReady, 0⟩

/-! ### ENCODE -/

/-- The loop of R109 from text index `i`, `n` bits being out: the bits it appends. -/
def encodeFrom (t : List (Word × List Bool)) : Nat → Nat → List Word → Except Raise (List Bool)
  | _, _, [] => .ok []
  | i, n, sym :: rest =>
    match lookupSym t sym with
    | none => .error ⟨.unknownSymbol, word i⟩
    | some b =>
      if Config.bitsMax < n + b.length then .error ⟨.capacity, word i⟩
      else match encodeFrom t (i + 1) (n + b.length) rest with
        | .error r => .error r
        | .ok out => .ok (b ++ out)

/-- The semantics of ENCODE up to its commit (R109). -/
def encodeOutcome (s : State) : Except Raise (List Bool) :=
  match needTable s with
  | .error r => .error r
  | .ok () =>
    match checkLength s.textLen Config.textMax with
    | .error r => .error r
    | .ok () => encodeFrom s.tableOperand 0 0 s.textOperand

/-- ENCODE (R109). -/
def execEncode (s : State) : Host.Outcome State Fault Refusal := completeWith s (encodeOutcome s) State.commitBits

/-! ### DECODE -/

/-- The shortest match at the front of `rest` (R111): lengths 1, 2, 3, ... up to `CODE_MAX` or the end, the first
that is in the table; its length and symbol. -/
def firstMatch (t : List (Word × List Bool)) (rest : List Bool) : Option (Nat × Word) :=
  (List.range (min rest.length Config.codeMax)).findSome? fun k =>
    (lookupCode t (rest.take (k + 1))).map fun sym => (k + 1, sym)

/-- The loop of R112 at bit position `pos`, `n` symbols being out, `rest` the bits from `pos` on: the symbols it
appends. Each pass takes at least one bit, so `fuel` = the number of bits is enough. -/
def decodeFrom (t : List (Word × List Bool)) : Nat → Nat → Nat → List Bool → Except Raise (List Word)
  | 0, _, _, _ => .ok []
  | _ + 1, _, _, [] => .ok []
  | fuel + 1, pos, n, b :: rest =>
    match firstMatch t (b :: rest) with
    | none => .error ⟨.undecodableSequence, word pos⟩
    | some (len, sym) =>
      if n = Config.textMax then .error ⟨.capacity, word pos⟩
      else match decodeFrom t fuel (pos + len) (n + 1) ((b :: rest).drop len) with
        | .error r => .error r
        | .ok out => .ok (sym :: out)

/-- The semantics of DECODE up to its commit (R112). -/
def decodeOutcome (s : State) : Except Raise (List Word) :=
  match needTable s with
  | .error r => .error r
  | .ok () =>
    match checkLength s.bitLen Config.bitsMax with
    | .error r => .error r
    | .ok () => decodeFrom s.tableOperand s.bitLen.toNat 0 0 s.bitOperand

/-- DECODE (R112). -/
def execDecode (s : State) : Host.Outcome State Fault Refusal := completeWith s (decodeOutcome s) State.commitText

/-! ### Scheme text -/

/-- The delimiter between entries, `-` (R114, R115). -/
def dash : Byte := 0x2D

/-- The key/value separator, `:` (R114, R115). -/
def colon : Byte := 0x3A

/-- The character of a decimal digit (R115). -/
def digitChar (d : Nat) : Byte := BitVec.ofNat 8 (0x30 + d)

/-- The decimal numeral of `n` with no leading zeros, of at most `fuel` digits (R116). -/
def decimalWithin : Nat → Nat → List Byte
  | 0, _ => []
  | fuel + 1, n => if n < 10 then [digitChar n] else decimalWithin fuel (n / 10) ++ [digitChar (n % 10)]

/-- `dec(s)` (R116): 1 to 10 digits for a 32-bit symbol. -/
def decimal (sym : Word) : List Byte := decimalWithin 10 sym.toNat

/-- `chars(B)` (R116). -/
def bitChars (b : List Bool) : List Byte := b.map fun x => if x then 0x31 else 0x30

/-- The text of one row (R114, R116). -/
def rowText (e : Word × List Bool) : List Byte := decimal e.1 ++ [colon] ++ bitChars e.2

/-- What entry `i` adds to the text (R116): a delimiter before every entry but the first. -/
def entryText (i : Nat) (e : Word × List Bool) : List Byte :=
  if i = 0 then rowText e else dash :: rowText e

/-- The loop of R116 from entry `i`, `n` characters being out: the characters it appends. -/
def renderFrom : Nat → Nat → List (Word × List Bool) → Except Raise (List Byte)
  | _, _, [] => .ok []
  | i, n, e :: rest =>
    if Config.schMax < n + (entryText i e).length then .error ⟨.capacity, word i⟩
    else match renderFrom (i + 1) (n + (entryText i e).length) rest with
      | .error r => .error r
      | .ok out => .ok (entryText i e ++ out)

/-- The semantics of SER up to its commit (R116). -/
def serOutcome (s : State) : Except Raise (List Byte) :=
  match needTable s with
  | .error r => .error r
  | .ok () => if s.nCode = 0 then .error ⟨.badOperand, 0⟩ else renderFrom 0 0 s.tableOperand

/-- SER (R116). -/
def execSer (s : State) : Host.Outcome State Fault Refusal := completeWith s (serOutcome s) State.commitScheme

/-! ### PARSE -/

/-- The pieces of a text between the separators, none dropped, each with the position of its first character, the
text starting at position `pos` (R118). -/
def splitAt (sep : Byte) : Nat → List Byte → List (Nat × List Byte)
  | pos, [] => [(pos, [])]
  | pos, c :: cs =>
    if c = sep then (pos, []) :: splitAt sep (pos + 1) cs
    else match splitAt sep (pos + 1) cs with
      | [] => [(pos, [c])]
      | (_, piece) :: rest => (pos, c :: piece) :: rest

/-- The value of a digit character, if it is one (R119). -/
def digitValue (c : Byte) : Option Nat :=
  if 0x30 ≤ c.toNat ∧ c.toNat ≤ 0x39 then some (c.toNat - 0x30) else none

/-- The exact base-10 value of a digit string, `v` being that of the digits before it (R119; 30_encoding.md
R69). -/
def digitsValue : Nat → List Byte → Option Nat
  | v, [] => some v
  | v, c :: cs =>
    match digitValue c with
    | none => none
    | some d => digitsValue (v * 10 + d) cs

/-- The integer field (R119): one or more digits, value at most `2^32 - 1`. -/
def parseInteger (field : List Byte) : Option Word :=
  if field = [] then none
  else match digitsValue 0 field with
    | none => none
    | some v => if v ≤ Config.symMax then some (word v) else none

/-- The characters of a bit-string field as bits, if each is `0` or `1` (R119). -/
def charsBits : List Byte → Option (List Bool)
  | [] => some []
  | c :: cs =>
    match charsBits cs with
    | none => none
    | some bs => if c = 0x31 then some (true :: bs) else if c = 0x30 then some (false :: bs) else none

/-- The bit-string field (R119): one or more characters, each `0` or `1`. -/
def parseBits (field : List Byte) : Option (List Bool) := if field = [] then none else charsBits field

/-- The two fields of an entry (R118): it contains exactly one `:`. -/
def entryFields (entry : List Byte) : Option (List Byte × List Byte) :=
  match splitAt colon 0 entry with
  | [(_, key), (_, value)] => some (key, value)
  | _ => none

/-- The row of an entry, or the error of its first defect, in the order of R120. -/
def parseEntry (entry : List Byte) : Except ErrKind (Word × List Bool) :=
  match entryFields entry with
  | none => .error .malformedScheme
  | some (key, value) =>
    match parseInteger key with
    | none => .error .malformedScheme
    | some sym =>
      match parseBits value with
      | none => .error .malformedScheme
      | some b => if Config.codeMax < b.length then .error .capacity else .ok (sym, b)

/-- The loop of R120 over the entries, with the rows so far. -/
def parseFrom : List (Nat × List Byte) → List (Word × List Bool) → Except Raise (List (Word × List Bool))
  | [], rows => .ok rows
  | (pos, entry) :: rest, rows =>
    if rows.length = Config.nMax then .error ⟨.capacity, word pos⟩
    else match parseEntry entry with
      | .error k => .error ⟨k, word pos⟩
      | .ok (sym, b) =>
        if sym ∈ rows.map Prod.fst then .error ⟨.malformedScheme, word pos⟩
        else if b ∈ rows.map Prod.snd then .error ⟨.malformedScheme, word pos⟩
        else parseFrom rest (rows ++ [(sym, b)])

/-- The semantics of PARSE up to its commit (R120). -/
def parseOutcome (s : State) : Except Raise (List (Word × List Bool)) :=
  match checkLength s.schLen Config.schMax with
  | .error r => .error r
  | .ok () => parseFrom (splitAt dash 0 s.schOperand) []

/-- PARSE (R120). -/
def execParse (s : State) : Host.Outcome State Fault Refusal := completeWith s (parseOutcome s) State.commitTable

end Sys2Proof.Machine
end

