-- ==== Sys2Proof/Machine/Tree.lean ====
section
/-! DEFINITION. BUILD, the Huffman tree builder (41_tree_build.md R77 to R90). Weights are exact natural numbers
(30_encoding.md R69, R86). -/

namespace Sys2Proof.Machine

/-- A tree node (10_state.md R29): a Leaf holds one symbol, a Branch two children, as indices into NODE. -/
inductive TreeNode where
  | leaf (sym : Word)
  | branch (left right : Nat)
  deriving DecidableEq, Repr

/-- `NODE.kind` of a node (R84). -/
def TreeNode.kind : TreeNode → NodeKind
  | .leaf _ => .leaf
  | .branch _ _ => .branch

/-- `NODE.a` of a node (R84). -/
def TreeNode.a : TreeNode → Word
  | .leaf sym => sym
  | .branch left _ => word left

/-- `NODE.b` of a node (R84): 0 in a Leaf. -/
def TreeNode.b : TreeNode → BitVec 9
  | .leaf _ => 0
  | .branch _ right => BitVec.ofNat 9 right

/-- An item of the working collection (R79): a weight and the index of its node. -/
structure Item where
  weight : Nat
  node : Nat
  deriving DecidableEq, Repr

/-- Check 3 of R78 from entry `i`, with the counts' sum and the symbols before it. -/
def checkFreqFrom : Nat → Nat → List Word → List (Word × Word) → Except Raise Unit
  | _, _, _, [] => .ok ()
  | i, total, seen, (count, sym) :: rest =>
    if count = 0 then .error ⟨.badOperand, word i⟩
    else if sym ∈ seen then .error ⟨.badOperand, word i⟩
    else if Config.weightMax < total + count.toNat then .error ⟨.capacity, word i⟩
    else checkFreqFrom (i + 1) (total + count.toNat) (seen ++ [sym]) rest

/-- The scan of R80 and R81 from position `p`: the candidate is replaced only by a strictly smaller weight, and
the excluded position is passed over. -/
def leastFrom (excluded : Option Nat) : Nat → Option (Nat × Item) → List Item → Option (Nat × Item)
  | _, best, [] => best
  | p, best, x :: xs =>
    leastFrom excluded (p + 1)
      (if excluded = some p then best
       else match best with
        | none => some (p, x)
        | some (q, y) => if x.weight < y.weight then some (p, x) else some (q, y)) xs

/-- `lowest` (R80): the earliest position of the smallest weight, and its item. -/
def lowest (w : List Item) : Option (Nat × Item) := leastFrom none 0 none w

/-- `secondLowest` (R81): the same among the others. -/
def secondLowest (w : List Item) (lo : Nat) : Option (Nat × Item) := leastFrom (some lo) 0 none w

/-- One round (R82): a new Branch of the two items, left the one selected first; the merged item takes the place
of `lowest`; the item at `secondLowest` is deleted. A list of fewer than two items has no round. -/
def mergeRound (w : List Item) (t : List TreeNode) : List Item × List TreeNode :=
  match lowest w with
  | none => (w, t)
  | some (lo, x) =>
    match secondLowest w lo with
    | none => (w, t)
    | some (hi, y) =>
      ((w.set lo ⟨x.weight + y.weight, t.length⟩).eraseIdx hi, t ++ [.branch x.node y.node])

/-- That many rounds (R83). -/
def mergeRounds : Nat → List Item → List TreeNode → List Item × List TreeNode
  | 0, w, t => (w, t)
  | k + 1, w, t => mergeRounds k (mergeRound w t).1 (mergeRound w t).2

/-- Seeding (R79): leaf `i` is node `i`. -/
def seedNodes (freqs : List (Word × Word)) : List TreeNode := freqs.map fun e => .leaf e.2

/-- Seeding (R79): item `i` has the count of entry `i` and node `i`. -/
def seedItems (freqs : List (Word × Word)) : List Item :=
  (freqs.zipIdx).map fun e => ⟨e.1.1.toNat, e.2⟩

/-- The nodes and the root of a frequency list (R79 to R83): `N` items take `N - 1` rounds. -/
def buildTree (freqs : List (Word × Word)) : List TreeNode × Nat :=
  let result := mergeRounds (freqs.length - 1) (seedItems freqs) (seedNodes freqs)
  (result.2, (result.1.head?.map Item.node).getD 0)

/-- The operand checks of R78, in order. -/
def checkFreqs (s : State) : Except Raise Unit :=
  if s.nFreq = 0 then .error ⟨.emptyInput, 0⟩
  else match checkLength s.nFreq Config.nMax with
    | .error r => .error r
    | .ok () => checkFreqFrom 0 0 [] s.freqOperand

/-- The semantics of BUILD up to its commit (R84). -/
def buildOutcome (s : State) : Except Raise (List TreeNode × Nat) :=
  match checkFreqs s with
  | .error r => .error r
  | .ok () => .ok (buildTree s.freqOperand)

/-- The commit of BUILD (R84). -/
def State.commitTree (r : List TreeNode × Nat) (s : State) : State :=
  { s with
    mem := { s.mem with
      nodeKind := Memory.store 0 (r.1.map TreeNode.kind) s.mem.nodeKind
      nodeA := Memory.store 0 (r.1.map TreeNode.a) s.mem.nodeA
      nodeB := Memory.store 0 (r.1.map TreeNode.b) s.mem.nodeB }
    nNode := word r.1.length, root := word r.2, treeValid := true }

/-- BUILD (R84). -/
def execBuild (s : State) : Host.Outcome State Fault Refusal := completeWith s (buildOutcome s) State.commitTree

end Sys2Proof.Machine
end

