-- ==== Sys2Proof/Machine/Flags.lean ====
section
/-! DEFINITION. The flags and what the host sees of them: the codes of STATUS.ERR, the STATUS and CTRL words, the
interrupt output, and the host writes that act on flags (10_state.md R19, R21, R25 to R27; 60_exceptions.md R133,
R148). The flags a command sets at its commit are set in Ops.lean. -/

namespace Sys2Proof.Machine

/-- The code of an error kind in STATUS.ERR (R133). -/
def ErrKind.code : ErrKind → BitVec 4
  | .noError => 0
  | .emptyInput => 1
  | .malformedScheme => 2
  | .undecodableSequence => 3
  | .noSentinelFound => 4
  | .badCommand => 5
  | .capacity => 6
  | .badOperand => 7
  | .unknownSymbol => 8
  | .notReady => 9

/-- A one-bit field. -/
def bitField (b : Bool) : BitVec 1 := BitVec.ofBool b

/-- The STATUS word (R21): bit 0 BUSY, bit 1 DONE, bits 7..4 ERR, bit 8 TREEVALID, bit 9 TVALID, the rest 0. -/
def State.statusWord (s : State) : Word :=
  (0 : BitVec 22) ++ bitField s.tableValid ++ bitField s.treeValid ++ s.err.code ++ (0 : BitVec 2) ++
    bitField s.done ++ bitField s.busy

/-- The CTRL word (R19): bit 0 IE, the rest 0. -/
def State.ctrlWord (s : State) : Word := (bitField s.ie).setWidth 32

/-- The interrupt output, a level (R148). -/
def State.irq (s : State) : Bool := s.ie && s.done

/-- A host write of `w` to CTRL (R19): IE <- w[0]; then, if w[1] = 1, the soft reset. -/
def State.writeCtrl (w : Word) (s : State) : State :=
  if w.getLsbD 1 then ({ s with ie := w.getLsbD 0 } : State).softReset else { s with ie := w.getLsbD 0 }

/-- A host write of `w` to STATUS (R21): if w[1] = 1 then DONE <- 0. -/
def State.writeStatus (w : Word) (s : State) : State :=
  if w.getLsbD 1 then { s with done := false } else s

/-- What any accepted write to NCODE or into the CODE window does to the table's validity (R27). -/
def State.clearTableValid (s : State) : State := { s with tableValid := false }

end Sys2Proof.Machine
end

