-- ==== Sys2Proof/Machine/HostPort.lean ====
section
/-! DEFINITION. The host port at the level of transactions (20_memory.md R39 to R58): address decode, the map, the
placement of elements in host words, reads, writes, refusals, and which requests are accepted while a command
runs. -/

namespace Sys2Proof.Machine

/-- What a mapped host address names (10_state.md R17, 20_memory.md R43 to R51). -/
inductive Location where
  | id
  | ctrl
  | cmd
  | status
  | errInfo
  | textLen
  | nFreq
  | nNode
  | root
  | nCode
  | bitLen
  | byteLen
  | schLen
  | freqCount (i : Nat)
  | freqSym (i : Nat)
  | nodeKind (i : Nat)
  | nodeA (i : Nat)
  | nodeB (i : Nat)
  | nodeReserved (i : Nat)
  | codeSym (i : Nat)
  | codeLen (i : Nat)
  | codeBits (i k : Nat)
  | codeReserved (i : Nat)
  | text (i : Nat)
  /-- The word of `BIT[32k .. 32k+31]`. -/
  | bitWord (k : Nat)
  /-- The word of `BYTE[4k .. 4k+3]`. -/
  | byteWord (k : Nat)
  /-- The word of `SCH[4k .. 4k+3]`. -/
  | schWord (k : Nat)
  deriving DecidableEq, Repr

/-- The registers' addresses (R17). -/
def registerAt : Nat → Option Location
  | 0x00000 => some .id
  | 0x00004 => some .ctrl
  | 0x00008 => some .cmd
  | 0x0000C => some .status
  | 0x00010 => some .errInfo
  | 0x00020 => some .textLen
  | 0x00024 => some .nFreq
  | 0x00028 => some .nNode
  | 0x0002C => some .root
  | 0x00030 => some .nCode
  | 0x00034 => some .bitLen
  | 0x00038 => some .byteLen
  | 0x0003C => some .schLen
  | _ => none

/-- The word at byte offset `o` of the FREQ window (R45). -/
def freqLocation (o : Nat) : Location := if o % 8 = 0 then .freqCount (o / 8) else .freqSym (o / 8)

/-- The word at byte offset `o` of the NODE window (R46). -/
def nodeLocation (o : Nat) : Location :=
  if o % 16 = 0 then .nodeKind (o / 16)
  else if o % 16 = 4 then .nodeA (o / 16)
  else if o % 16 = 8 then .nodeB (o / 16)
  else .nodeReserved (o / 16)

/-- The word at byte offset `o` of the CODE window (R47). -/
def codeLocation (o : Nat) : Location :=
  if o % 64 = 0 then .codeSym (o / 64)
  else if o % 64 = 4 then .codeLen (o / 64)
  else if o % 64 < 40 then .codeBits (o / 64) ((o % 64 - 8) / 4)
  else .codeReserved (o / 64)

/-- The map (R43): the location a word-aligned byte address names, or none where it is unmapped. -/
def mapAddress (a : Nat) : Option Location :=
  if a < 0x01000 then registerAt a
  else if a < 0x01800 then some (freqLocation (a - 0x01000))
  else if a < 0x02000 then none
  else if a < 0x03FF0 then some (nodeLocation (a - 0x02000))
  else if a < 0x04000 then none
  else if a < 0x08000 then some (codeLocation (a - 0x04000))
  else if a < 0x0C000 then some (.text ((a - 0x08000) / 4))
  else if a < 0x0E000 then some (.bitWord ((a - 0x0C000) / 4))
  else if a < 0x10000 then some (.byteWord ((a - 0x0E000) / 4))
  else some (.schWord ((a - 0x10000) / 4))

/-- Address decode, steps (1) and (2) of R42: a misaligned or an unmapped address names nothing. -/
def locate (addr : Addr) : Option Location :=
  if addr.toNat % 4 = 0 then mapAddress addr.toNat else none

/-- The index bounds of a location's element (R43, 10_state.md R28 to R34). -/
def Location.exists : Location → Bool
  | .id | .ctrl | .cmd | .status | .errInfo | .textLen | .nFreq | .nNode | .root | .nCode | .bitLen | .byteLen
  | .schLen => true
  | .freqCount i | .freqSym i | .codeSym i | .codeLen i => decide (i < Config.nMax)
  | .nodeKind i | .nodeA i | .nodeB i | .nodeReserved i => decide (i < Config.nodeMax)
  | .codeBits i k => decide (i < Config.nMax ∧ k < Config.codeWords)
  | .codeReserved i => decide (i < Config.nMax)
  | .text i => decide (i < Config.textMax)
  | .bitWord k => decide (32 * k < Config.bitsMax)
  | .byteWord k => decide (4 * k < Config.bytesMax)
  | .schWord k => decide (4 * k < Config.schMax)

/-- The byte address of a location (R17, R45 to R51), the first of the reserved words of an entry. -/
def Location.addr : Location → Addr
  | .id => 0x00000
  | .ctrl => 0x00004
  | .cmd => 0x00008
  | .status => 0x0000C
  | .errInfo => 0x00010
  | .textLen => 0x00020
  | .nFreq => 0x00024
  | .nNode => 0x00028
  | .root => 0x0002C
  | .nCode => 0x00030
  | .bitLen => 0x00034
  | .byteLen => 0x00038
  | .schLen => 0x0003C
  | .freqCount i => BitVec.ofNat 17 (0x01000 + 8 * i)
  | .freqSym i => BitVec.ofNat 17 (0x01000 + 8 * i + 4)
  | .nodeKind i => BitVec.ofNat 17 (0x02000 + 16 * i)
  | .nodeA i => BitVec.ofNat 17 (0x02000 + 16 * i + 4)
  | .nodeB i => BitVec.ofNat 17 (0x02000 + 16 * i + 8)
  | .nodeReserved i => BitVec.ofNat 17 (0x02000 + 16 * i + 12)
  | .codeSym i => BitVec.ofNat 17 (0x04000 + 64 * i)
  | .codeLen i => BitVec.ofNat 17 (0x04000 + 64 * i + 4)
  | .codeBits i k => BitVec.ofNat 17 (0x04000 + 64 * i + 8 + 4 * k)
  | .codeReserved i => BitVec.ofNat 17 (0x04000 + 64 * i + 40)
  | .text i => BitVec.ofNat 17 (0x08000 + 4 * i)
  | .bitWord k => BitVec.ofNat 17 (0x0C000 + 4 * k)
  | .byteWord k => BitVec.ofNat 17 (0x0E000 + 4 * k)
  | .schWord k => BitVec.ofNat 17 (0x10000 + 4 * k)

/-- Locations whose host write is refused (R53). -/
def Location.readOnly : Location → Bool
  | .id | .errInfo | .nNode | .root => true
  | .nodeKind _ | .nodeA _ | .nodeB _ | .nodeReserved _ => true
  | .ctrl | .cmd | .status | .textLen | .nFreq | .nCode | .bitLen | .byteLen | .schLen => false
  | .freqCount _ | .freqSym _ | .codeSym _ | .codeLen _ | .codeBits _ _ | .codeReserved _ => false
  | .text _ | .bitWord _ | .byteWord _ | .schWord _ => false

/-- The word a host read of a location returns (R17 to R24, R44 to R51, R54). ID is hard-wired (R18). -/
def State.readLocation (s : State) : Location → Word
  | .id => 0x48554601
  | .ctrl => s.ctrlWord
  | .cmd => s.cmd
  | .status => s.statusWord
  | .errInfo => s.errInfo
  | .textLen => s.textLen
  | .nFreq => s.nFreq
  | .nNode => s.nNode
  | .root => s.root
  | .nCode => s.nCode
  | .bitLen => s.bitLen
  | .byteLen => s.byteLen
  | .schLen => s.schLen
  | .freqCount i => s.freqCountAt i
  | .freqSym i => s.freqSymAt i
  | .nodeKind i => (bitField (s.nodeKindAt i).bit).setWidth 32
  | .nodeA i => s.nodeAAt i
  | .nodeB i => (s.nodeBAt i).setWidth 32
  | .nodeReserved _ => 0
  | .codeSym i => s.codeSymAt i
  | .codeLen i => s.codeLenAt i
  | .codeBits i k => s.codeWordAt i k
  | .codeReserved _ => 0
  | .text i => s.textAt i
  | .bitWord k => wordOfSlots fun j => s.bitAt (32 * k + j)
  | .byteWord k => wordOfBytes fun m => s.byteAt (4 * k + m)
  | .schWord k => wordOfBytes fun m => s.schAt (4 * k + m)

/-- The 32 elements a written BIT word stores (R44, R49). -/
def slotsOfWord (v : Word) : List Bool := (List.range 32).map v.getLsbD

/-- The four elements a written BYTE or SCH word stores (R44, R50, R51). -/
def bytesOfWord (v : Word) : List Byte := (List.range 4).map (byteOfWord v)

/-- What a performed host write of `v` does (R55): stores, and the side effects of CMD, CTRL, STATUS, NCODE and
the CODE window. A read-only location is never written. -/
def State.writeLocation (s : State) (v : Word) : Location → State
  | .ctrl => s.writeCtrl v
  | .cmd => s.startCommand v
  | .status => s.writeStatus v
  | .textLen => { s with textLen := v }
  | .nFreq => { s with nFreq := v }
  | .nCode => ({ s with nCode := v } : State).clearTableValid
  | .bitLen => { s with bitLen := v }
  | .byteLen => { s with byteLen := v }
  | .schLen => { s with schLen := v }
  | .freqCount i => { s with mem := { s.mem with freqCount := Memory.set i v s.mem.freqCount } }
  | .freqSym i => { s with mem := { s.mem with freqSym := Memory.set i v s.mem.freqSym } }
  | .codeSym i => ({ s with mem := { s.mem with codeSym := Memory.set i v s.mem.codeSym } } : State).clearTableValid
  | .codeLen i => ({ s with mem := { s.mem with codeLen := Memory.set i v s.mem.codeLen } } : State).clearTableValid
  | .codeBits i k =>
    ({ s with mem := { s.mem with
      codeBits := Memory.set (Config.codeWords * i + k) v s.mem.codeBits } } : State).clearTableValid
  | .codeReserved _ => s.clearTableValid
  | .text i => { s with mem := { s.mem with text := Memory.set i v s.mem.text } }
  | .bitWord k => { s with mem := { s.mem with bit := Memory.store (32 * k) (slotsOfWord v) s.mem.bit } }
  | .byteWord k => { s with mem := { s.mem with byte := Memory.store (4 * k) (bytesOfWord v) s.mem.byte } }
  | .schWord k => { s with mem := { s.mem with sch := Memory.store (4 * k) (bytesOfWord v) s.mem.sch } }
  | .id | .errInfo | .nNode | .root => s
  | .nodeKind _ | .nodeA _ | .nodeB _ | .nodeReserved _ => s

/-- The response of a refused request (R42). -/
def Response.refused : Response := { rdata := 0, err := true }

/-- The response of a performed write (R39): read data 0. -/
def Response.written : Response := { rdata := 0, err := false }

/-- Performing an accepted request (R42): the new state and the response. -/
def State.transact (s : State) : Request → State × Response
  | .read addr =>
    match locate addr with
    | some l => (s, { rdata := s.readLocation l, err := false })
    | none => (s, .refused)
  | .write addr v =>
    match locate addr with
    | some l => if l.readOnly then (s, .refused) else (s.writeLocation v l, .written)
    | none => (s, .refused)

/-- Every accepted request gets exactly one response (R40). -/
def State.respond (r : Response) (s : State) : State := { s with responses := r :: s.responses }

/-- An accepted request: performed and answered, one atomic step (R40). -/
def State.perform (r : Request) (s : State) : State := (s.transact r).1.respond (s.transact r).2

/-- The address of STATUS (R17). -/
def statusAddr : Addr := 0x0000C

/-- Which requests the block accepts (R41): all while BUSY = 0, the read of STATUS alone while BUSY = 1. -/
def State.accepts (s : State) (r : Request) : Bool := !s.busy || r == .read statusAddr

end Sys2Proof.Machine
end

