-- ==== Sys2Proof/Machine/Engine.lean ====
section
/-! DEFINITION. The three agents HOST, ENGINE and RESET (10_state.md R13) and which of them moves next
(20_memory.md R41, R57; 30_encoding.md R66; 70_reset_and_hazards.md R152, R155). -/

namespace Sys2Proof.Machine

/-- The completion step (R66): the command word in CMD is decoded and run on the current state; an illegal word
completes with BadCommand(0) and changes nothing else (R64; 60_exceptions.md R139). -/
def complete (s : State) : Host.Outcome State Fault Refusal :=
  match decode s.cmd with
  | .ok i => exec i s
  | .error _ => completeWith s (.error ⟨.badCommand, 0⟩) State.commitValid

/-- The engine's turn (R66): one enabled step while BUSY = 1, none while BUSY = 0. -/
def engineTurn (s : State) : Host.Outcome State Fault Refusal :=
  if s.busy then complete s else .next s

/-- One step of the block and the world around it (log 1). An accepted request is performed. A held request stays
where it is while the engine completes, and is lost when a hard reset comes instead (R41; R152; log 6). With no
input left the engine moves, or the block idles. -/
def agentStep (s : State) : Host.Outcome State Fault Refusal :=
  match s.inputs with
  | [] => engineTurn s
  | .engine :: rest => engineTurn { s with inputs := rest }
  | .hardReset :: rest => .next ({ s with inputs := rest } : State).hardReset
  | .request r :: rest =>
    if s.accepts r then .next (({ s with inputs := rest } : State).perform r)
    else match rest with
      | .hardReset :: rest' => .next ({ s with inputs := rest' } : State).hardReset
      | .engine :: rest' => engineTurn { s with inputs := .request r :: rest' }
      | _ => engineTurn s

/-- The state in which the next step runs command word `w`: `w` has been written to CMD and accepted (R65), and
the engine's turn is next. -/
def fetchWord (s : State) (w : Word) : State :=
  { s.startCommand w with inputs := .engine :: s.inputs }

/-- A command issued by an accepted CMD write and run to its completion (R65, R66; `EXEC` of R71). -/
def issue (i : Instr) (s : State) : Host.Outcome State Fault Refusal := exec i (s.startCommand (encode i))

end Sys2Proof.Machine
end

