-- ==== Sys2Proof/Machine/Step.lean ====
section
/-! DEFINITION. One step of the machine, and how the host places a command word. -/

namespace Sys2Proof.Machine

/-- One step (Engine.lean says which agent moves). -/
def step (s : State) : Host.Outcome State Fault Refusal := agentStep s

/-- `s` with the command word whose low `nbits` bits are `w` started, so that the next step runs it (log 3). -/
def State.withFetchWord (s : State) (nbits w : Nat) : State := fetchWord s (word (w % 2 ^ nbits))

end Sys2Proof.Machine
end

