-- ==== Sys2Proof/Safety.lean ====
section
/-! DEFINITION. What counts as a safe state and a safe run, in the terms the statements use: the invariants of the
registers, the memories, the tree (41_tree_build.md R88) and the table (10_state.md R27), and declarative readings of
the spec's rules that mention no function of the machine. -/

namespace Sys2Proof.Safety

open Sys2Proof.Machine

/-! ### Invariants -/

/-- The sequencing and error registers agree (10_state.md R21, R22; 30_encoding.md R65): BUSY and DONE are never
both 1; while a command runs ERR and ERRINFO are 0; ERRINFO is 0 whenever ERR is. -/
abbrev StatusOk (s : State) : Prop :=
  ¬(s.busy = true ∧ s.done = true) ∧
  (s.busy = true → s.err = .noError) ∧
  (s.err = .noError → s.errInfo = 0)

/-- Every buffer memory is in canonical form, within its size. -/
abbrev MemoryOk (s : State) : Prop := s.mem.wf

/-- The number of leaves of the tree in NODE memory (42_code_table.md R96). -/
def leafCount (s : State) : Nat := (s.nNode.toNat + 1) / 2

/-- The children of all Branches of `NODE[0 .. NNODE-1]`, in node order, left before right. -/
def childNodes (s : State) : List Nat :=
  (List.range s.nNode.toNat).flatMap fun v =>
    match s.nodeKindAt v with
    | .leaf => []
    | .branch => [(s.nodeAAt v).toNat, (s.nodeBAt v).toNat]

/-- NODE memory, NNODE and ROOT hold a tree of `n` leaves (41_tree_build.md R88 (a) to (e)): nodes `0 .. n-1` are
Leaves with `b` = 0 and pairwise different symbols, nodes `n .. 2n-2` Branches whose children have smaller indices,
ROOT is `2n-2`, and every other node is the child of exactly one Branch, once. -/
abbrev TreeOf (n : Nat) (s : State) : Prop :=
  1 ≤ n ∧ n ≤ Config.nMax ∧ s.nNode.toNat = 2 * n - 1 ∧ s.root.toNat = 2 * n - 2 ∧
  (∀ i, i < n → s.nodeKindAt i = .leaf ∧ s.nodeBAt i = 0) ∧
  (∀ i, i < 2 * n - 1 → n ≤ i → s.nodeKindAt i = .branch ∧ (s.nodeAAt i).toNat < i ∧ (s.nodeBAt i).toNat < i) ∧
  (∀ v, v < 2 * n - 2 → (childNodes s).count v = 1) ∧ (childNodes s).count (2 * n - 2) = 0 ∧
  (firstOf n s.nodeAAt).Nodup

/-- What TREEVALID = 1 promises (10_state.md R26). -/
abbrev TreeOk (s : State) : Prop := TreeOf (leafCount s) s

/-- What TVALID = 1 promises (10_state.md R27). -/
abbrev TableOk (s : State) : Prop :=
  s.nCode.toNat ≤ Config.nMax ∧
  (∀ i, i < s.nCode.toNat → 1 ≤ (s.codeLenAt i).toNat ∧ (s.codeLenAt i).toNat ≤ Config.codeMax) ∧
  (s.tableOperand.map Prod.fst).Nodup ∧ (s.tableOperand.map Prod.snd).Nodup

/-- The machine's invariant. -/
abbrev Inv (s : State) : Prop :=
  StatusOk s ∧ MemoryOk s ∧ (s.treeValid = true → TreeOk s) ∧ (s.tableValid = true → TableOk s)

/-- The engine moves in the next step: its turn is marked, or nothing outside can move before it (20_memory.md
R41). -/
def engineMoves (s : State) : Bool :=
  match s.inputs with
  | [] => true
  | .engine :: _ => true
  | .hardReset :: _ => false
  | .request _ :: .hardReset :: _ => false
  | .request r :: _ => !s.accepts r

/-- The inputs left once the engine has moved: its mark, if any, is used up. -/
def inputsAfterEngine (s : State) : List Input :=
  match s.inputs with
  | [] => []
  | .engine :: rest => rest
  | .request r :: .engine :: rest => .request r :: rest
  | other => other

/-- The hard reset comes in the next step (70_reset_and_hazards.md R152). -/
def resets (s : State) : Bool :=
  match s.inputs with
  | .hardReset :: _ => true
  | .request r :: .hardReset :: _ => !s.accepts r
  | _ => false

/-- The write the block accepts in the next step, if it accepts one (20_memory.md R41). -/
def acceptedWrite (s : State) : Option (Addr × Word) :=
  match s.inputs with
  | .request (.write a w) :: _ => if s.busy then none else some (a, w)
  | _ => none

/-- The write accepted in the next step is a soft reset (10_state.md R19). -/
def softResets (s : State) : Prop := ∃ w : Word, acceptedWrite s = some (0x00004, w) ∧ w.getLsbD 1 = true

/-- The next step completes the command `i`. -/
def Completes (s : State) (i : Instr) : Prop := s.busy = true ∧ engineMoves s = true ∧ decode s.cmd = .ok i

/-- The command completes with an error of the given kind and ERRINFO, and changes nothing else (60_exceptions.md
R131, R132). -/
def FailsWith (i : Instr) (s : State) (k : ErrKind) (info : Word) : Prop :=
  exec i s = .next { s with err := k, errInfo := info, busy := false, done := true }

/-- Byte addresses no register and no window has (20_memory.md R43). -/
def unmapped (a : Nat) : Bool :=
  decide (0x00014 ≤ a ∧ a < 0x00020) || decide (0x00040 ≤ a ∧ a < 0x01000) ||
  decide (0x01800 ≤ a ∧ a < 0x02000) || decide (0x03FF0 ≤ a ∧ a < 0x04000)

/-- Byte addresses the host may not write: ID, ERRINFO, NNODE, ROOT and the NODE window (20_memory.md R53). -/
def readOnlyAddress (a : Nat) : Bool :=
  a == 0x00000 || a == 0x00010 || a == 0x00028 || a == 0x0002C || decide (0x02000 ≤ a ∧ a < 0x03FF0)

/-- A host read of the byte address gives this word, without error. -/
def ReadsAs (s : State) (a : Nat) (v : Word) : Prop :=
  (s.transact (.read (BitVec.ofNat 17 a))).2 = { rdata := v, err := false }

/-- The state after a host write to the byte address, answered without error. -/
def WritesTo (s : State) (a : Nat) (v : Word) (t : State) : Prop :=
  s.transact (.write (BitVec.ofNat 17 a) v) = (t, { rdata := 0, err := false })

/-! ### Bit-strings, texts, tables -/

/-- Element `p` of the packed form of a bit-string (44_bitpack.md R126): the bit, the sentinel, padding. -/
def packedBit (n : Nat) (bit : Nat → Bool) (p : Nat) : Bool :=
  if p < n then bit p else if p = n then true else false

/-- Bit `8k + j` of the expansion of BYTE memory (44_bitpack.md R125). -/
def expandedBit (s : State) (q : Nat) : Bool := (s.byteAt (q / 8)).toNat / 2 ^ (7 - q % 8) % 2 == 1

/-- No bit-string of the table is a prefix of that of another row (42_code_table.md R98). -/
def PrefixFree (t : List (Word × List Bool)) : Prop :=
  ∀ i j : Nat, ∀ e f, t[i]? = some e → t[j]? = some f → i ≠ j → ¬ (e.2 <+: f.2)

/-- Row `k` of the table is the first with the symbol, and `b` is its bit-string (42_code_table.md R103). -/
def CodeOf (t : List (Word × List Bool)) (sym : Word) (b : List Bool) : Prop :=
  ∃ k : Nat, t[k]? = some (sym, b) ∧ ∀ j e, j < k → t[j]? = some e → e.1 ≠ sym

/-- Row `k` of the table is the first with the bit-string, and `sym` is its symbol (42_code_table.md R104). -/
def SymbolOf (t : List (Word × List Bool)) (b : List Bool) (sym : Word) : Prop :=
  ∃ k : Nat, t[k]? = some (sym, b) ∧ ∀ j e, j < k → t[j]? = some e → e.2 ≠ b

/-- `b` is the shortest non-empty prefix of `rest`, of at most `CODE_MAX` bits, that is in the table; `sym` is its
symbol (43_transcode.md R111). -/
def ShortestMatch (t : List (Word × List Bool)) (rest b : List Bool) (sym : Word) : Prop :=
  b <+: rest ∧ b ≠ [] ∧ b.length ≤ Config.codeMax ∧ SymbolOf t b sym ∧
  ∀ c, c <+: rest → c ≠ [] → c.length < b.length → ∀ e ∈ t, e.2 ≠ c

/-- No prefix of `rest` of 1 to `CODE_MAX` bits is in the table (43_transcode.md R112). -/
def NoMatch (t : List (Word × List Bool)) (rest : List Bool) : Prop :=
  ∀ c, c <+: rest → c ≠ [] → c.length ≤ Config.codeMax → ∀ e ∈ t, e.2 ≠ c

/-- The scan of R112 takes the bits `used` off the front of `used ++ rest` and emits the symbols `out`. -/
inductive Scans (t : List (Word × List Bool)) (rest : List Bool) : List Bool → List Word → Prop where
  | done : Scans t rest [] []
  | emit (b used : List Bool) (sym : Word) (out : List Word) :
      ShortestMatch t (b ++ used ++ rest) b sym → Scans t rest used out → Scans t rest (b ++ used) (sym :: out)

/-! ### The tree builder -/

/-- Position `p` is `lowest` (41_tree_build.md R80): the least index whose weight is at most every weight. -/
abbrev IsLowest (w : List Item) (p : Nat) : Prop :=
  p < w.length ∧
  (∀ q, q < w.length → (w.getD p ⟨0, 0⟩).weight ≤ (w.getD q ⟨0, 0⟩).weight) ∧
  (∀ q, q < p → (w.getD p ⟨0, 0⟩).weight < (w.getD q ⟨0, 0⟩).weight)

/-- Position `p` is `secondLowest` beside `lo` (41_tree_build.md R81). -/
abbrev IsSecondLowest (w : List Item) (lo p : Nat) : Prop :=
  p < w.length ∧ p ≠ lo ∧
  (∀ q, q < w.length → q ≠ lo → (w.getD p ⟨0, 0⟩).weight ≤ (w.getD q ⟨0, 0⟩).weight) ∧
  (∀ q, q < p → q ≠ lo → (w.getD p ⟨0, 0⟩).weight < (w.getD q ⟨0, 0⟩).weight)

/-- The working collection after merging positions `lo` and `hi` into node `next` (41_tree_build.md R82). -/
def mergedItems (w : List Item) (lo hi next : Nat) : List Item :=
  (w.set lo ⟨(w.getD lo ⟨0, 0⟩).weight + (w.getD hi ⟨0, 0⟩).weight, next⟩).eraseIdx hi

/-- The Branch that merging makes (41_tree_build.md R82): left the item selected first. -/
def mergedNode (w : List Item) (lo hi : Nat) : TreeNode :=
  .branch (w.getD lo ⟨0, 0⟩).node (w.getD hi ⟨0, 0⟩).node

/-- The rounds of R80 to R83 lead from a working collection and nodes to one item, the root, and all nodes. -/
inductive Merges : List Item → List TreeNode → Item → List TreeNode → Prop where
  | done (root : Item) (t : List TreeNode) : Merges [root] t root t
  | round (w : List Item) (t : List TreeNode) (lo hi : Nat) (root : Item) (t' : List TreeNode) :
      IsLowest w lo → IsSecondLowest w lo hi →
      Merges (mergedItems w lo hi t.length) (t ++ [mergedNode w lo hi]) root t' → Merges w t root t'

/-- The sum of the counts of the first entries of a frequency list. -/
def countSum (f : List (Word × Word)) : Nat := (f.map fun e => e.1.toNat).sum

/-- A frequency list BUILD accepts (41_tree_build.md R78): 1 to `N_MAX` entries, counts positive, symbols pairwise
different, sum within `WT_W` bits. -/
abbrev FreqListOk (f : List (Word × Word)) : Prop :=
  1 ≤ f.length ∧ f.length ≤ Config.nMax ∧ (∀ e ∈ f, e.1 ≠ 0) ∧ (f.map Prod.snd).Nodup ∧
  countSum f ≤ Config.weightMax

/-! ### The priority queue of 41_tree_build.md R87 -/

/-- An item of the queue: weight, rank, node. -/
structure Ranked where
  weight : Nat
  rank : Nat
  node : Nat
  deriving DecidableEq, Repr

/-- Smaller weight first, smaller rank first among equal weights (R87). -/
def Ranked.before (x y : Ranked) : Bool := x.weight < y.weight || (x.weight == y.weight && x.rank < y.rank)

/-- The queue is a list ordered by `before`; insertion keeps the order. -/
def insertRanked (x : Ranked) : List Ranked → List Ranked
  | [] => [x]
  | y :: ys => if x.before y then x :: y :: ys else y :: insertRanked x ys

/-- One round over the queue (R87): the two minima leave, the merged item enters with the rank of the first. -/
def queueRound : List Ranked → List TreeNode → List Ranked × List TreeNode
  | x :: y :: q, t => (insertRanked ⟨x.weight + y.weight, x.rank, t.length⟩ q, t ++ [.branch x.node y.node])
  | q, t => (q, t)

/-- That many rounds over the queue. -/
def queueRounds : Nat → List Ranked → List TreeNode → List Ranked × List TreeNode
  | 0, q, t => (q, t)
  | k + 1, q, t => queueRounds k (queueRound q t).1 (queueRound q t).2

/-- Seeding the queue (R87): seed item `i` has rank `i`. -/
def seedQueue (f : List (Word × Word)) : List Ranked :=
  f.zipIdx.foldl (fun q e => insertRanked ⟨e.1.1.toNat, e.2, e.2⟩ q) []

/-- The nodes and the root the queue gives. -/
def queueTree (f : List (Word × Word)) : List TreeNode × Nat :=
  let result := queueRounds (f.length - 1) (seedQueue f) (f.map fun e => .leaf e.2)
  (result.2, (result.1.head?.map Ranked.node).getD 0)

/-! ### The tree walker -/

/-- `path` leads from node `v` to the Leaf `l` (42_code_table.md R92): false for a left turn, true for a right. -/
inductive Reaches (s : State) (l : Nat) : Nat → List Bool → Prop where
  | leaf : s.nodeKindAt l = .leaf → Reaches s l l []
  | left (v : Nat) (path : List Bool) : s.nodeKindAt v = .branch → Reaches s l (s.nodeAAt v).toNat path →
      Reaches s l v (false :: path)
  | right (v : Nat) (path : List Bool) : s.nodeKindAt v = .branch → Reaches s l (s.nodeBAt v).toNat path →
      Reaches s l v (true :: path)

/-- Lexicographic order of bit-strings that part somewhere, 0 before 1 (42_code_table.md R97). -/
def PartsBefore (a b : List Bool) : Prop :=
  ∃ c x y, a = c ++ false :: x ∧ b = c ++ true :: y

/-! ### Scheme text -/

/-- The digits of a number, as characters (43_transcode.md R115, R116), by the library's decimal numerals. -/
def decimalChars (n : Nat) : List Byte := (Nat.toDigits 10 n).map fun c => BitVec.ofNat 8 c.toNat

/-- A character is a digit (43_transcode.md R115). -/
abbrev IsDigit (c : Byte) : Prop := 0x30 ≤ c.toNat ∧ c.toNat ≤ 0x39

/-- The base-10 value of a digit string (43_transcode.md R119), by the library's positional value. -/
def digitString (cs : List Byte) : Nat := Nat.ofDigits 10 (cs.reverse.map fun c => c.toNat - 0x30)

/-- The integer field of an entry parses to `sym` (43_transcode.md R119). -/
abbrev IntegerField (cs : List Byte) (sym : Word) : Prop :=
  cs ≠ [] ∧ (∀ c ∈ cs, IsDigit c) ∧ digitString cs = sym.toNat

/-- The bit-string field of an entry parses to `b` (43_transcode.md R119). -/
abbrev BitField (cs : List Byte) (b : List Bool) : Prop :=
  cs ≠ [] ∧ cs = b.map fun x => if x then (0x31 : Byte) else 0x30

/-- An entry of a scheme text splits into fields that parse to a row (43_transcode.md R118, R119). -/
abbrev EntryParses (entry : List Byte) (row : Word × List Bool) : Prop :=
  ∃ key value, entry = key ++ [0x3A] ++ value ∧ IntegerField key row.1 ∧ BitField value row.2

/-- The text with the given entries (43_transcode.md R114, R118): a hyphen between each two. -/
def joinEntries (entries : List (List Byte)) : List Byte := List.intercalate [0x2D] entries

/-- The position of the first character of entry `k` (43_transcode.md R118). -/
def entryOffset (entries : List (List Byte)) (k : Nat) : Nat := ((entries.take k).map fun e => e.length + 1).sum

/-- The entries hold no delimiter. -/
abbrev NoDash (entries : List (List Byte)) : Prop := ∀ e ∈ entries, (0x2D : Byte) ∉ e

/-! ### What a command reads and writes (30_encoding.md R63) -/

/-- The two states agree on every operand of the command. -/
def ReadsAgree (i : Instr) (s u : State) : Prop :=
  match i with
  | .freq => s.textLen = u.textLen ∧ ∀ j, j < s.textLen.toNat → s.textAt j = u.textAt j
  | .build => s.nFreq = u.nFreq ∧
      ∀ j, j < s.nFreq.toNat → s.freqCountAt j = u.freqCountAt j ∧ s.freqSymAt j = u.freqSymAt j
  | .derive => s.treeValid = u.treeValid ∧ s.nNode = u.nNode ∧ s.root = u.root ∧
      ∀ j, j < s.nNode.toNat →
        s.nodeKindAt j = u.nodeKindAt j ∧ s.nodeAAt j = u.nodeAAt j ∧ s.nodeBAt j = u.nodeBAt j
  | .invert => s.nCode = u.nCode ∧ ∀ j, j < s.nCode.toNat → s.codeEntry j = u.codeEntry j ∧
      s.codeLenAt j = u.codeLenAt j
  | .encode => s.tableValid = u.tableValid ∧ s.textLen = u.textLen ∧ s.nCode = u.nCode ∧
      (∀ j, j < s.textLen.toNat → s.textAt j = u.textAt j) ∧
      ∀ j, j < s.nCode.toNat → s.codeEntry j = u.codeEntry j
  | .decode => s.tableValid = u.tableValid ∧ s.bitLen = u.bitLen ∧ s.nCode = u.nCode ∧
      (∀ j, j < s.bitLen.toNat → s.bitAt j = u.bitAt j) ∧
      ∀ j, j < s.nCode.toNat → s.codeEntry j = u.codeEntry j
  | .ser => s.tableValid = u.tableValid ∧ s.nCode = u.nCode ∧
      ∀ j, j < s.nCode.toNat → s.codeEntry j = u.codeEntry j
  | .parse => s.schLen = u.schLen ∧ ∀ j, j < s.schLen.toNat → s.schAt j = u.schAt j
  | .pack => s.bitLen = u.bitLen ∧ ∀ j, j < s.bitLen.toNat → s.bitAt j = u.bitAt j
  | .unpack => s.byteLen = u.byteLen ∧ ∀ j, j < s.byteLen.toNat → s.byteAt j = u.byteAt j

/-- The two states agree on every output of a successful run of the command. -/
def WritesAgree (i : Instr) (t v : State) : Prop :=
  match i with
  | .freq => t.nFreq = v.nFreq ∧
      ∀ j, j < t.nFreq.toNat → t.freqCountAt j = v.freqCountAt j ∧ t.freqSymAt j = v.freqSymAt j
  | .build => t.nNode = v.nNode ∧ t.root = v.root ∧ t.treeValid = v.treeValid ∧
      ∀ j, j < t.nNode.toNat →
        t.nodeKindAt j = v.nodeKindAt j ∧ t.nodeAAt j = v.nodeAAt j ∧ t.nodeBAt j = v.nodeBAt j
  | .derive | .parse => t.nCode = v.nCode ∧ t.tableValid = v.tableValid ∧
      ∀ j, j < t.nCode.toNat → t.codeSymAt j = v.codeSymAt j ∧ t.codeLenAt j = v.codeLenAt j ∧
        ∀ k, k < 8 → t.codeWordAt j k = v.codeWordAt j k
  | .invert => t.tableValid = v.tableValid
  | .encode | .unpack => t.bitLen = v.bitLen ∧ ∀ j, j < t.bitLen.toNat → t.bitAt j = v.bitAt j
  | .decode => t.textLen = v.textLen ∧ ∀ j, j < t.textLen.toNat → t.textAt j = v.textAt j
  | .ser => t.schLen = v.schLen ∧ ∀ j, j < t.schLen.toNat → t.schAt j = v.schAt j
  | .pack => t.byteLen = v.byteLen ∧ ∀ j, j < t.byteLen.toNat → t.byteAt j = v.byteAt j

end Sys2Proof.Safety
end

