-- ==== Sys2Proof/Certificates/Slice0/Obligations.lean ====
section
/-! DEFINITION. The statements for the provers. Each docstring names the passage of the spec it formalises. -/

open Sys2Proof Sys2Proof.Machine Sys2Proof.Safety

/-! ### Encoding and the step -/

/-- 30_encoding.md section 1: legal words are those with bits 31..8 zero and bits 7..0 in 0x01 .. 0x0A; a legal word denotes
the command with that opcode. -/
def Obligations.LegalWordsAreTheTenCommands : Prop :=
  ∀ w : Word,
    ((∃ i, decode w = .ok i) ↔ w.toNat / 256 = 0 ∧ 1 ≤ w.toNat % 256 ∧ w.toNat % 256 ≤ 10) ∧
    (∀ i, decode w = .ok i → i.opc.toNat = w.toNat % 256) ∧
    (∀ i, decode w = .ok i ↔ w = encode i)

/-- 30_encoding.md section 2: the ten command words of the opcode map, written out. -/
def Obligations.DecodesTheOpcodeMap : Prop :=
  decode 0x00000001 = .ok .freq ∧ decode 0x00000002 = .ok .build ∧ decode 0x00000003 = .ok .derive ∧
  decode 0x00000004 = .ok .invert ∧ decode 0x00000005 = .ok .encode ∧ decode 0x00000006 = .ok .decode ∧
  decode 0x00000007 = .ok .ser ∧ decode 0x00000008 = .ok .parse ∧ decode 0x00000009 = .ok .pack ∧
  decode 0x0000000A = .ok .unpack

/-- 30_encoding.md section 3: when the engine moves with BUSY = 1 and CMD decodes to a command, the step is `exec` of it.
With BUSY = 0 the spec gives the engine no step. The model's choice (log 1): the schedule is the list of inputs, the engine's
turn uses up its mark, also behind a held request, and its turn with BUSY = 0 is a step that changes nothing else. -/
def Obligations.StepRunsTheDecodedCommand : Prop :=
  (∀ (s : State) (i : Instr), s.busy = true → engineMoves s = true → decode s.cmd = .ok i →
    step s = exec i { s with inputs := inputsAfterEngine s }) ∧
  (∀ s : State, s.busy = false → engineMoves s = true → step s = .next { s with inputs := inputsAfterEngine s })

/-- 30_encoding.md R65: what an accepted write of `w` to CMD does, whatever `w` is; `irq` falls. (The lists of requests to
come and of responses are how the model holds the port, log 1 and log 7.) -/
def Obligations.AcceptedCmdWriteStartsCommand : Prop :=
  ∀ (s : State) (w : Word) (rest : List Input), s.busy = false →
    s.inputs = .request (.write 0x00008 w) :: rest →
    ∃ t, step s = .next t ∧
      t = { s with
        cmd := w, busy := true, done := false, err := .noError, errInfo := 0
        inputs := rest, responses := { rdata := 0, err := false } :: s.responses } ∧
      t.irq = false

/-- 30_encoding.md R64, 60_exceptions.md R139: an illegal word is accepted and kept in CMD, the command starts, changes
nothing, and completes with BadCommand (code 5) and ERRINFO = 0: right behind the CMD write, and in any state where it runs
and the engine moves. (When the engine moves is taken from the list of inputs, log 1.) -/
def Obligations.IllegalWordCompletesWithBadCommand : Prop :=
  (∀ (s : State) (w : Word) (rest : List Input),
    (w.toNat / 256 ≠ 0 ∨ w.toNat % 256 = 0 ∨ 10 < w.toNat % 256) → s.busy = false →
    s.inputs = .request (.write 0x00008 w) :: .engine :: rest →
    ∃ u, step s = .next u ∧
      step u = .next { s with
        cmd := w, busy := false, done := true, err := .badCommand, errInfo := 0
        inputs := rest, responses := { rdata := 0, err := false } :: s.responses }) ∧
  (∀ s : State, (s.cmd.toNat / 256 ≠ 0 ∨ s.cmd.toNat % 256 = 0 ∨ 10 < s.cmd.toNat % 256) → s.busy = true →
    engineMoves s = true →
    step s = .next { s with
      inputs := inputsAfterEngine s, err := .badCommand, errInfo := 0, busy := false, done := true }) ∧
  ErrKind.badCommand.code = 5

/-- 60_exceptions.md section 1: a command that completes with ERR not 0 has changed BUSY, DONE, ERR and ERRINFO and
nothing else; CTRL, CMD, every length register, NNODE, ROOT, TREEVALID, TVALID and every memory are as before. -/
def Obligations.FailingCommandChangesNothingElse : Prop :=
  ∀ (i : Instr) (s t : State), exec i s = .next t → t.err ≠ .noError →
    t = { s with err := t.err, errInfo := t.errInfo, busy := false, done := true }

/-- 30_encoding.md section 3 and 60_exceptions.md section 2: every completion leaves BUSY = 0 and DONE = 1, ERRINFO = 0
when ERR is 0, CTRL and CMD as they were, and an error kind the command can raise. -/
def Obligations.CompletionIdlesWithLegalError : Prop :=
  ∀ (i : Instr) (s t : State), exec i s = .next t →
    t.busy = false ∧ t.done = true ∧ (t.err = .noError → t.errInfo = 0) ∧
    t.ie = s.ie ∧ t.cmd = s.cmd ∧ t.inputs = s.inputs ∧ t.responses = s.responses ∧ t.epoch = s.epoch ∧
    t.err ∈ (ErrKind.noError :: match i with
      | .freq => [.capacity]
      | .build => [.emptyInput, .capacity, .badOperand]
      | .derive => [.notReady]
      | .invert => [.malformedScheme, .capacity]
      | .encode => [.notReady, .capacity, .unknownSymbol]
      | .decode => [.notReady, .capacity, .undecodableSequence]
      | .ser => [.notReady, .capacity, .badOperand]
      | .parse => [.malformedScheme, .capacity]
      | .pack => [.capacity]
      | .unpack => [.capacity, .noSentinelFound])

/-! ### The host port -/

/-- 20_memory.md section 1: while BUSY = 1 a read of STATUS is answered at once and changes nothing else; any other request is
held: it gets no response, has no effect (the step leaves all but the inputs as it would with nothing on the port), and
stays first in line while the engine completes. With BUSY = 0 every request is accepted and performed on the state as it is
then. (That the engine moves while a request is held, and a hard reset that comes instead, are log 1 and log 6.) -/
def Obligations.RequestsAreHeldWhileBusy : Prop :=
  (∀ (s : State) (rest : List Input), s.busy = true → s.inputs = .request (.read 0x0000C) :: rest →
    step s = .next { s with
      inputs := rest, responses := { rdata := s.statusWord, err := false } :: s.responses }) ∧
  (∀ (s t : State) (r : Request) (rest : List Input), s.busy = true → s.inputs = .request r :: rest →
    r ≠ .read 0x0000C → resets s = false → step s = .next t →
    t.responses = s.responses ∧ t.inputs.head? = some (.request r) ∧ t.busy = false ∧
    ∃ u, step { s with inputs := [] } = .next u ∧ t = { u with inputs := t.inputs }) ∧
  (∀ (s : State) (r : Request) (rest : List Input), s.busy = false → s.inputs = .request r :: rest →
    step s = .next { (s.transact r).1 with inputs := rest, responses := (s.transact r).2 :: s.responses })

/-- 20_memory.md R53 and sections 2 and 5: a misaligned or unmapped access and a write to a read-only location are refused with (0, err =
1) and change no state; every other access is performed with err = 0; no read changes any state. -/
def Obligations.RefusedAccessesChangeNothing : Prop :=
  (∀ (s : State) (a : Addr),
    (s.transact (.read a)).1 = s ∧
    ((s.transact (.read a)).2.err = true ↔ a.toNat % 4 ≠ 0 ∨ unmapped a.toNat = true) ∧
    ((s.transact (.read a)).2.err = true → (s.transact (.read a)).2.rdata = 0)) ∧
  (∀ (s : State) (a : Addr) (v : Word),
    (s.transact (.write a v)).2.rdata = 0 ∧
    ((s.transact (.write a v)).2.err = true ↔
      a.toNat % 4 ≠ 0 ∨ unmapped a.toNat = true ∨ readOnlyAddress a.toNat = true) ∧
    ((s.transact (.write a v)).2.err = true → (s.transact (.write a v)).1 = s))

/-- 20_memory.md section 3: what a host read of every word of every window returns. -/
def Obligations.HostReadsSeeElements : Prop :=
  ∀ (s : State) (i : Nat),
    (i < 256 → ReadsAs s (0x01000 + 8 * i) (s.freqCountAt i) ∧ ReadsAs s (0x01004 + 8 * i) (s.freqSymAt i)) ∧
    (i < 511 →
      (s.nodeKindAt i = .leaf → ReadsAs s (0x02000 + 16 * i) 0) ∧
      (s.nodeKindAt i = .branch → ReadsAs s (0x02000 + 16 * i) 1) ∧
      ReadsAs s (0x02004 + 16 * i) (s.nodeAAt i) ∧
      ReadsAs s (0x02008 + 16 * i) (word (s.nodeBAt i).toNat) ∧ ReadsAs s (0x0200C + 16 * i) 0) ∧
    (i < 256 →
      ReadsAs s (0x04000 + 64 * i) (s.codeSymAt i) ∧ ReadsAs s (0x04004 + 64 * i) (s.codeLenAt i) ∧
      (∀ k, k < 8 → ∃ w : Word, ReadsAs s (0x04008 + 64 * i + 4 * k) w ∧
        ∀ j, j < 32 → w.getLsbD j = s.codeBitAt i (32 * k + j)) ∧
      (∀ k, k < 6 → ReadsAs s (0x04028 + 64 * i + 4 * k) 0)) ∧
    (i < 4096 → ReadsAs s (0x08000 + 4 * i) (s.textAt i)) ∧
    (i < 2048 → ∃ w : Word, ReadsAs s (0x0C000 + 4 * i) w ∧ ∀ j, j < 32 → w.getLsbD j = s.bitAt (32 * i + j)) ∧
    (i < 2048 → ∃ w : Word, ReadsAs s (0x0E000 + 4 * i) w ∧
      ∀ m, m < 4 → w.extractLsb' (8 * m) 8 = s.byteAt (4 * i + m)) ∧
    (i < 16384 → ∃ w : Word, ReadsAs s (0x10000 + 4 * i) w ∧
      ∀ m, m < 4 → w.extractLsb' (8 * m) 8 = s.schAt (4 * i + m))

/-- 20_memory.md sections 3 and 5: what a host write to every writable word of the windows stores, and that every other
element, register and flag is kept but TVALID, which a write into the CODE window clears. -/
def Obligations.HostWritesStoreElements : Prop :=
  ∀ (s : State) (i : Nat) (v : Word),
    (i < 256 → ∃ t, WritesTo s (0x01000 + 8 * i) v t ∧
      t = { s with mem := { s.mem with freqCount := t.mem.freqCount } } ∧
      t.freqCountAt i = v ∧ ∀ j, j ≠ i → t.freqCountAt j = s.freqCountAt j) ∧
    (i < 256 → ∃ t, WritesTo s (0x01004 + 8 * i) v t ∧
      t = { s with mem := { s.mem with freqSym := t.mem.freqSym } } ∧
      t.freqSymAt i = v ∧ ∀ j, j ≠ i → t.freqSymAt j = s.freqSymAt j) ∧
    (i < 256 → ∃ t, WritesTo s (0x04000 + 64 * i) v t ∧
      t = { s with mem := { s.mem with codeSym := t.mem.codeSym }, tableValid := false } ∧
      t.codeSymAt i = v ∧ ∀ j, j ≠ i → t.codeSymAt j = s.codeSymAt j) ∧
    (i < 256 → ∃ t, WritesTo s (0x04004 + 64 * i) v t ∧
      t = { s with mem := { s.mem with codeLen := t.mem.codeLen }, tableValid := false } ∧
      t.codeLenAt i = v ∧ ∀ j, j ≠ i → t.codeLenAt j = s.codeLenAt j) ∧
    (∀ k, i < 256 → k < 8 → ∃ t, WritesTo s (0x04008 + 64 * i + 4 * k) v t ∧
      t = { s with mem := { s.mem with codeBits := t.mem.codeBits }, tableValid := false } ∧
      (∀ j, j < 32 → t.codeBitAt i (32 * k + j) = v.getLsbD j) ∧
      ∀ i' j, i' < 256 → j < 256 → (i' ≠ i ∨ j / 32 ≠ k) → t.codeBitAt i' j = s.codeBitAt i' j) ∧
    (i < 4096 → ∃ t, WritesTo s (0x08000 + 4 * i) v t ∧
      t = { s with mem := { s.mem with text := t.mem.text } } ∧
      t.textAt i = v ∧ ∀ j, j ≠ i → t.textAt j = s.textAt j) ∧
    (i < 2048 → ∃ t, WritesTo s (0x0C000 + 4 * i) v t ∧
      t = { s with mem := { s.mem with bit := t.mem.bit } } ∧
      (∀ j, j < 32 → t.bitAt (32 * i + j) = v.getLsbD j) ∧ ∀ j, j / 32 ≠ i → t.bitAt j = s.bitAt j) ∧
    (i < 2048 → ∃ t, WritesTo s (0x0E000 + 4 * i) v t ∧
      t = { s with mem := { s.mem with byte := t.mem.byte } } ∧
      (∀ m, m < 4 → t.byteAt (4 * i + m) = v.extractLsb' (8 * m) 8) ∧ ∀ j, j / 4 ≠ i → t.byteAt j = s.byteAt j) ∧
    (i < 16384 → ∃ t, WritesTo s (0x10000 + 4 * i) v t ∧
      t = { s with mem := { s.mem with sch := t.mem.sch } } ∧
      (∀ m, m < 4 → t.schAt (4 * i + m) = v.extractLsb' (8 * m) 8) ∧ ∀ j, j / 4 ≠ i → t.schAt j = s.schAt j)

/-- 10_state.md section 3: a length register stores and returns any 32-bit value, with no check; of the six only NCODE
has a side effect, TVALID <- 0. In every state ID reads 0x48554601, and CMD, ERRINFO, NNODE and ROOT read the values they
hold. -/
def Obligations.LengthRegistersStoreAnyValue : Prop :=
  ∀ (s : State) (v : Word),
    WritesTo s 0x00020 v { s with textLen := v } ∧ WritesTo s 0x00024 v { s with nFreq := v } ∧
    WritesTo s 0x00030 v { s with nCode := v, tableValid := false } ∧
    WritesTo s 0x00034 v { s with bitLen := v } ∧ WritesTo s 0x00038 v { s with byteLen := v } ∧
    WritesTo s 0x0003C v { s with schLen := v } ∧
    ReadsAs s 0x00020 s.textLen ∧ ReadsAs s 0x00024 s.nFreq ∧ ReadsAs s 0x00030 s.nCode ∧
    ReadsAs s 0x00034 s.bitLen ∧ ReadsAs s 0x00038 s.byteLen ∧ ReadsAs s 0x0003C s.schLen ∧
    ReadsAs s 0x00000 0x48554601 ∧ ReadsAs s 0x00008 s.cmd ∧ ReadsAs s 0x00010 s.errInfo ∧
    ReadsAs s 0x00028 s.nNode ∧ ReadsAs s 0x0002C s.root

/-- 70_reset_and_hazards.md R153, 10_state.md section 3: a write of `w` to CTRL sets IE to w[0] and, if w[1] = 1, then
resets registers and flags and keeps every memory; CTRL reads as IE. -/
def Obligations.CtrlWriteAndSoftReset : Prop :=
  ∀ (s : State) (w : Word),
    (w.getLsbD 1 = false → WritesTo s 0x00004 w { s with ie := w.getLsbD 0 }) ∧
    (w.getLsbD 1 = true → s.busy = false → WritesTo s 0x00004 w
      { s with
        ie := false, cmd := 0, done := false, err := .noError, treeValid := false, tableValid := false, errInfo := 0
        textLen := 0, nFreq := 0, nNode := 0, root := 0, nCode := 0, bitLen := 0, byteLen := 0, schLen := 0 }) ∧
    ReadsAs s 0x00004 (if s.ie then 1 else 0)

/-- 10_state.md section 3: the fields of the STATUS word, and that a write to it clears DONE if w[1] = 1 and does nothing
else. 60_exceptions.md section 2: the ten codes of ERR. -/
def Obligations.StatusReadAndWrite : Prop :=
  (∀ s : State, ∃ w : Word, ReadsAs s 0x0000C w ∧
    w.getLsbD 0 = s.busy ∧ w.getLsbD 1 = s.done ∧ w.getLsbD 2 = false ∧ w.getLsbD 3 = false ∧
    w.extractLsb' 4 4 = s.err.code ∧ w.getLsbD 8 = s.treeValid ∧ w.getLsbD 9 = s.tableValid ∧
    ∀ j, 10 ≤ j → w.getLsbD j = false) ∧
  (∀ (s : State) (w : Word), WritesTo s 0x0000C w { s with done := s.done && !w.getLsbD 1 }) ∧
  ErrKind.noError.code = 0 ∧ ErrKind.emptyInput.code = 1 ∧ ErrKind.malformedScheme.code = 2 ∧
  ErrKind.undecodableSequence.code = 3 ∧ ErrKind.noSentinelFound.code = 4 ∧ ErrKind.badCommand.code = 5 ∧
  ErrKind.capacity.code = 6 ∧ ErrKind.badOperand.code = 7 ∧ ErrKind.unknownSymbol.code = 8 ∧ ErrKind.notReady.code = 9

/-- 20_memory.md R54: reserved words of the CODE window read 0; a write to one stores nothing, is answered without error
and clears TVALID. Reserved words of the NODE window read 0 and refuse writes. Reserved bits of CTRL and STATUS read 0
and ignore writes. -/
def Obligations.ReservedPlacesReadZero : Prop :=
  (∀ (s : State) (i k : Nat) (v : Word), i < 256 → k < 6 →
    ReadsAs s (0x04028 + 64 * i + 4 * k) 0 ∧
    WritesTo s (0x04028 + 64 * i + 4 * k) v { s with tableValid := false }) ∧
  (∀ (s : State) (i : Nat) (v : Word), i < 511 →
    ReadsAs s (0x0200C + 16 * i) 0 ∧
    s.transact (.write (BitVec.ofNat 17 (0x0200C + 16 * i)) v) = (s, { rdata := 0, err := true })) ∧
  (∀ (s : State) (v w : Word),
    (∃ c d : Word, ReadsAs s 0x00004 c ∧ ReadsAs s 0x0000C d ∧ (∀ j, 1 ≤ j → c.getLsbD j = false) ∧
      (∀ j, j = 2 ∨ j = 3 ∨ 10 ≤ j → d.getLsbD j = false)) ∧
    (v.getLsbD 0 = w.getLsbD 0 → v.getLsbD 1 = w.getLsbD 1 →
      s.transact (.write 0x00004 v) = s.transact (.write 0x00004 w)) ∧
    (v.getLsbD 1 = w.getLsbD 1 → s.transact (.write 0x0000C v) = s.transact (.write 0x0000C w)))

/-- 20_memory.md section 1: a step answers at most one request, the one at the head of the inputs if it is accepted, with
exactly one response, and otherwise gives none. The inputs are taken in order, also by a step that answers nothing: the
engine's turn uses up at most its mark, a hard reset uses up itself and the request it finds held (the list of inputs, the
mark and the lost request are the model's reading, log 1 and log 6). -/
def Obligations.EachAcceptedRequestGetsOneResponse : Prop :=
  ∀ s t : State, step s = .next t →
    (∃ r rest x, s.inputs = .request r :: rest ∧ s.accepts r = true ∧ t.inputs = rest ∧
      t.responses = x :: s.responses) ∨
    ((∀ r rest, s.inputs = .request r :: rest → s.accepts r = false) ∧ t.responses = s.responses ∧
      ((engineMoves s = true ∧ resets s = false ∧ t.inputs = inputsAfterEngine s) ∨
        (resets s = true ∧ (s.inputs = .hardReset :: t.inputs ∨ ∃ r, s.inputs = .request r :: .hardReset :: t.inputs))))

/-! ### Reset and interrupt -/

/-- 70_reset_and_hazards.md section 1: the hard reset, in any state, a command running or not and a request held or not:
registers and flags 0, no element of any memory written any more (each reads as a free value; the counter that selects it
is the model's own, log 2), nothing answered; a held request is lost (log 6). -/
def Obligations.HardResetClearsRegisters : Prop :=
  ∀ (s : State) (rest : List Input),
    (s.inputs = .hardReset :: rest ∨
      ∃ r, s.accepts r = false ∧ s.inputs = .request r :: .hardReset :: rest) →
    step s = .next { State.reset with epoch := s.epoch + 1, inputs := rest, responses := s.responses }

/-- 10_state.md section 8: after reset the thirteen registers read their reset values, `irq` is 0, and every memory
element, the bit slots of CODE by their words, reads as a free value of Config (log 2). -/
def Obligations.ResetStateValues : Prop :=
  ReadsAs State.reset 0x00000 0x48554601 ∧
  (∀ a ∈ [0x00004, 0x00008, 0x0000C, 0x00010, 0x00020, 0x00024, 0x00028, 0x0002C, 0x00030, 0x00034, 0x00038, 0x0003C],
    ReadsAs State.reset a 0) ∧
  State.reset.irq = false ∧
  (∀ i, State.reset.freqCountAt i = Config.initFreqCount 0 i ∧ State.reset.freqSymAt i = Config.initFreqSym 0 i ∧
    State.reset.nodeKindAt i = .ofBit (Config.initNodeKind 0 i) ∧ State.reset.nodeAAt i = Config.initNodeA 0 i ∧
    State.reset.nodeBAt i = Config.initNodeB 0 i ∧ State.reset.codeSymAt i = Config.initCodeSym 0 i ∧
    State.reset.codeLenAt i = Config.initCodeLen 0 i ∧ State.reset.textAt i = Config.initText 0 i ∧
    State.reset.bitAt i = Config.initBit 0 i ∧ State.reset.byteAt i = Config.initByte 0 i ∧
    State.reset.schAt i = Config.initSch 0 i ∧
    ∀ k, k < 8 → State.reset.codeWordAt i k = Config.initCodeBits 0 (8 * i + k) ∧
      ∀ j, j < 32 → State.reset.codeBitAt i (32 * k + j) = (Config.initCodeBits 0 (8 * i + k)).getLsbD j)

/-- 60_exceptions.md R148: `irq` is the level IE and DONE; DONE reads as bit 1 of STATUS whatever IE is; every completion,
of a command or of an illegal word, with or without error, sets DONE; a 1 written
to STATUS bit 1, a command start and both resets clear DONE and lower `irq`; IE = 0 lowers it and leaves DONE pending; IE = 1 raises it at
once when DONE is 1. -/
def Obligations.InterruptIsLevelOfDone : Prop :=
  (∀ s : State, s.irq = (s.ie && s.done)) ∧
  (∀ s : State, ∃ w : Word, ReadsAs s 0x0000C w ∧ w.getLsbD 1 = s.done) ∧
  (∀ (i : Instr) (s t : State), exec i s = .next t → t.done = true ∧ t.irq = s.ie) ∧
  (∀ s t : State, s.busy = true → engineMoves s = true → step s = .next t → t.done = true ∧ t.irq = s.ie) ∧
  (∀ (s : State) (w : Word), w.getLsbD 1 = true →
    (s.transact (.write 0x0000C w)).1.done = false ∧ (s.transact (.write 0x0000C w)).1.irq = false) ∧
  (∀ (s : State) (w : Word),
    (s.transact (.write 0x00008 w)).1.done = false ∧ (s.transact (.write 0x00008 w)).1.irq = false) ∧
  (∀ (s : State) (w : Word), w.getLsbD 1 = true →
    (s.transact (.write 0x00004 w)).1.done = false ∧ (s.transact (.write 0x00004 w)).1.irq = false) ∧
  (∀ (s t : State), resets s = true → step s = .next t → t.done = false ∧ t.irq = false) ∧
  (∀ (s : State) (w : Word), w.getLsbD 1 = false →
    (s.transact (.write 0x00004 w)).1.done = s.done ∧
    (s.transact (.write 0x00004 w)).1.irq = (w.getLsbD 0 && s.done)) ∧
  State.reset.ie = false

/-! ### Rules about every step -/

/-- 10_state.md section 4, the column "set to 1 by": what a step can be that sets a flag. -/
def Obligations.FlagsAreSetOnlyAsTabulated : Prop :=
  ∀ s t : State, step s = .next t →
    (s.busy = false → t.busy = true → ∃ w, acceptedWrite s = some (0x00008, w)) ∧
    (s.done = false → t.done = true → s.busy = true ∧ engineMoves s = true) ∧
    (s.err = .noError → t.err ≠ .noError → s.busy = true ∧ engineMoves s = true) ∧
    (s.treeValid = false → t.treeValid = true → Completes s .build ∧ t.err = .noError) ∧
    (s.tableValid = false → t.tableValid = true →
      (Completes s .derive ∨ Completes s .invert ∨ Completes s .parse) ∧ t.err = .noError)

/-- 10_state.md section 4, the column "cleared to 0 by": what a step can be that clears a flag. -/
def Obligations.FlagsAreClearedOnlyAsTabulated : Prop :=
  ∀ s t : State, StatusOk s → step s = .next t →
    (s.busy = true → t.busy = false → engineMoves s = true ∨ resets s = true) ∧
    (s.done = true → t.done = false →
      (∃ w, acceptedWrite s = some (0x00008, w)) ∨
      (∃ w : Word, acceptedWrite s = some (0x0000C, w) ∧ w.getLsbD 1 = true) ∨ softResets s ∨ resets s = true) ∧
    (s.err ≠ .noError → t.err = .noError →
      (∃ w, acceptedWrite s = some (0x00008, w)) ∨ softResets s ∨ resets s = true) ∧
    (s.treeValid = true → t.treeValid = false → softResets s ∨ resets s = true) ∧
    (s.tableValid = true → t.tableValid = false →
      softResets s ∨ resets s = true ∨
      ∃ a w, acceptedWrite s = some (a, w) ∧
        (a = 0x00030 ∨ (a.toNat % 4 = 0 ∧ 0x04000 ≤ a.toNat ∧ a.toNat < 0x08000)))

/-- 10_state.md sections 3 to 5: NODE memory changes only by the completion of BUILD and the hard reset, NNODE and ROOT
only by these and the soft reset. The host cannot write any of them. -/
def Obligations.TreeChangesOnlyByBuildOrReset : Prop :=
  ∀ s t : State, step s = .next t → ¬ Completes s .build → resets s = false →
    (t.mem.nodeKind = s.mem.nodeKind ∧ t.mem.nodeA = s.mem.nodeA ∧ t.mem.nodeB = s.mem.nodeB ∧ t.epoch = s.epoch) ∧
    (¬ softResets s → t.nNode = s.nNode ∧ t.root = s.root)

/-- The invariant holds right after reset (10_state.md sections 3, 4 and 8). -/
def Obligations.ResetMeetsInvariant : Prop := Inv State.reset

/-- Every step keeps the agreement of BUSY, DONE, ERR and ERRINFO (10_state.md section 3). -/
def Obligations.StepKeepsStatusRegisters : Prop :=
  ∀ s t : State, StatusOk s → step s = .next t → StatusOk t

/-- Every step keeps all seven memories in canonical form and within their sizes: no command and no host write reaches an
element that does not exist (30_encoding.md section 4). -/
def Obligations.StepKeepsMemoryCanonical : Prop :=
  ∀ s t : State, MemoryOk s → step s = .next t → MemoryOk t

/-- Every step keeps what TREEVALID = 1 promises (10_state.md section 4, 41_tree_build.md section 5). -/
def Obligations.StepKeepsTreeInvariant : Prop :=
  ∀ s t : State, (s.treeValid = true → TreeOk s) → step s = .next t → t.treeValid = true → TreeOk t

/-- Every step keeps what TVALID = 1 promises (10_state.md section 4). -/
def Obligations.StepKeepsTableInvariant : Prop :=
  ∀ s t : State, (s.treeValid = true → TreeOk s) → (s.tableValid = true → TableOk s) →
    step s = .next t → t.tableValid = true → TableOk t

/-- From a state that meets the invariant every step goes on, and to a state that meets it (93_implementation_defined.md
section 2: nothing in the block is stuck). -/
def Obligations.InvariantStatesStepForever : Prop :=
  ∀ s : State, Inv s → ∃ t, step s = .next t ∧ Inv t

/-- 70_reset_and_hazards.md sections 1 and 2: every started command ends, whatever the host does meanwhile: within one step
more than there are inputs BUSY is 0, and when no hard reset stands among the inputs the command has completed, DONE being
1; a hard reset abandons it. The spec makes progress a fairness assumption; that the engine moves when nothing else can,
which gives the bound, is the model's schedule (log 1). -/
def Obligations.EveryStartedCommandCompletes : Prop :=
  ∀ s : State, Inv s → s.busy = true →
    ∃ n t, n ≤ s.inputs.length + 1 ∧ Host.Core.run core n s = .next t ∧ t.busy = false ∧
      (Input.hardReset ∉ s.inputs → t.done = true)

/-! ### FREQ -/

/-- 40_freq.md: FREQ of a text of at most 4096 symbols, at most 256 of them distinct, completes
without error; the list has one entry per distinct symbol, in order of first occurrence, with its number of
occurrences. -/
def Obligations.FreqCountsTheText : Prop :=
  ∀ s : State, s.textLen.toNat ≤ 4096 → s.textOperand.eraseDups.length ≤ 256 →
    ∃ t, exec .freq s = .next t ∧ t.err = .noError ∧
      t.nFreq.toNat = s.textOperand.eraseDups.length ∧
      t.freqOperand = s.textOperand.eraseDups.map fun x => (word (s.textOperand.count x), x)

/-- 40_freq.md: the two Capacity errors of FREQ: a text length above 4096, and the text index of the 257th distinct
symbol. -/
def Obligations.FreqCapacityErrors : Prop :=
  (∀ s : State, 4096 < s.textLen.toNat → FailsWith .freq s .capacity s.textLen) ∧
  (∀ (s : State) (i : Nat), s.textLen.toNat ≤ 4096 → i < s.textLen.toNat →
    (s.textOperand.take i).eraseDups.length = 256 → s.textAt i ∉ s.textOperand.take i →
    FailsWith .freq s .capacity (word i))

/-! ### BUILD -/

/-- 41_tree_build.md sections 3 and 4: BUILD of a frequency list it accepts completes without error; its nodes are those
of the rounds of R79 to R83, written to NODE memory, with NNODE = 2N - 1, ROOT = 2N - 2 and TREEVALID = 1. -/
def Obligations.BuildMergesGreedily : Prop :=
  ∀ s : State, FreqListOk s.freqOperand →
    ∃ t root nodes, exec .build s = .next t ∧ t.err = .noError ∧ t.treeValid = true ∧
      Merges (s.freqOperand.zipIdx.map fun e => ⟨e.1.1.toNat, e.2⟩) (s.freqOperand.map fun e => .leaf e.2) root nodes ∧
      nodes.length = 2 * s.nFreq.toNat - 1 ∧ t.nNode.toNat = 2 * s.nFreq.toNat - 1 ∧
      root.node = 2 * s.nFreq.toNat - 2 ∧ t.root.toNat = 2 * s.nFreq.toNat - 2 ∧
      ∀ i, i < 2 * s.nFreq.toNat - 1 →
        match nodes[i]? with
        | some (.leaf sym) => t.nodeKindAt i = .leaf ∧ t.nodeAAt i = sym ∧ t.nodeBAt i = 0
        | some (.branch l r) => t.nodeKindAt i = .branch ∧ (t.nodeAAt i).toNat = l ∧ (t.nodeBAt i).toNat = r
        | none => False

/-- 41_tree_build.md section 2: the operand checks of BUILD in their order, each with its error. -/
def Obligations.BuildOperandErrors : Prop :=
  (∀ s : State, s.nFreq = 0 → FailsWith .build s .emptyInput 0) ∧
  (∀ s : State, 256 < s.nFreq.toNat → FailsWith .build s .capacity s.nFreq) ∧
  (∀ (s : State) (i : Nat), s.nFreq.toNat ≤ 256 → i < s.nFreq.toNat →
    (∀ e ∈ s.freqOperand.take i, e.1 ≠ 0) → ((s.freqOperand.take i).map Prod.snd).Nodup →
    countSum (s.freqOperand.take i) ≤ 4294967295 →
    ((s.freqCountAt i = 0 ∨ s.freqSymAt i ∈ (s.freqOperand.take i).map Prod.snd) →
      FailsWith .build s .badOperand (word i)) ∧
    (s.freqCountAt i ≠ 0 → s.freqSymAt i ∉ (s.freqOperand.take i).map Prod.snd →
      4294967295 < countSum (s.freqOperand.take (i + 1)) → FailsWith .build s .capacity (word i)))

/-- 41_tree_build.md section 5: a priority queue ordered by weight, then rank, where the merged item keeps the rank of
the item extracted first, gives the tree of the reference scan. -/
def Obligations.PriorityQueueBuildsTheSameTree : Prop :=
  ∀ f : List (Word × Word), 1 ≤ f.length → queueTree f = buildTree f

/-! ### DERIVE and INVERT -/

/-- 42_code_table.md section 1: DERIVE of a valid tree completes without error; one row per leaf, the row's bit-string
the turns from the root to the leaf ("0" for a single leaf), rows in walk order, every length between 1 and max(1, N - 1),
bit slots at or above the length 0. -/
def Obligations.DeriveWalksTheTree : Prop :=
  ∀ s : State, s.treeValid = true → TreeOk s →
    ∃ t, exec .derive s = .next t ∧ t.err = .noError ∧ t.tableValid = true ∧ t.treeValid = true ∧
      t.nCode.toNat = leafCount s ∧
      (leafCount s = 1 → t.tableOperand = [(s.nodeAAt s.root.toNat, [false])]) ∧
      (2 ≤ leafCount s → ∀ k, k < leafCount s → ∃ l, l < leafCount s ∧ t.codeSymAt k = s.nodeAAt l ∧
        Reaches s l s.root.toNat (t.codeString k)) ∧
      (∀ l, l < leafCount s → ∃ k, k < leafCount s ∧ t.codeSymAt k = s.nodeAAt l) ∧
      (∀ j k, j < k → k < leafCount s → PartsBefore (t.codeString j) (t.codeString k)) ∧
      (∀ k, k < leafCount s → 1 ≤ (t.codeLenAt k).toNat ∧ (t.codeLenAt k).toNat ≤ max 1 (leafCount s - 1) ∧
        ∀ j, (t.codeLenAt k).toNat ≤ j → j < 256 → t.codeBitAt k j = false)

/-- 42_code_table.md R98: the table DERIVE makes is prefix-free, has no empty bit-string, as many rows as the tree has
leaves, pairwise different symbols, and meets every condition of TVALID. -/
def Obligations.DerivedTableIsPrefixFree : Prop :=
  ∀ s : State, s.treeValid = true → TreeOk s →
    ∃ t, exec .derive s = .next t ∧ t.tableValid = true ∧ TableOk t ∧ PrefixFree t.tableOperand ∧
      t.tableOperand.length = leafCount s ∧ ∀ e ∈ t.tableOperand, e.2 ≠ []

/-- 60_exceptions.md R143: DERIVE without a valid tree, ENCODE, DECODE and SER without a valid table complete with
NotReady and ERRINFO = 0, before anything else is looked at. -/
def Obligations.NotReadyBeforeAnythingElse : Prop :=
  ∀ s : State,
    (s.treeValid = false → FailsWith .derive s .notReady 0) ∧
    (s.tableValid = false →
      FailsWith .encode s .notReady 0 ∧ FailsWith .decode s .notReady 0 ∧ FailsWith .ser s .notReady 0)

/-- 42_code_table.md section 2: INVERT of a table that passes the checks completes without error, sets TVALID and writes
nothing else. -/
def Obligations.InvertValidatesTheTable : Prop :=
  ∀ s : State, TableOk s →
    exec .invert s = .next
      { s with tableValid := true, err := .noError, errInfo := 0, busy := false, done := true }

/-- 42_code_table.md section 2: the checks of INVERT in their order, each with its error; the first bad entry decides. -/
def Obligations.InvertReportsFirstDefect : Prop :=
  (∀ s : State, 256 < s.nCode.toNat → FailsWith .invert s .capacity s.nCode) ∧
  (∀ (s : State) (i : Nat), s.nCode.toNat ≤ 256 → i < s.nCode.toNat →
    (∀ j, j < i → 1 ≤ (s.codeLenAt j).toNat ∧ (s.codeLenAt j).toNat ≤ 255) →
    ((firstOf i s.codeEntry).map Prod.fst).Nodup → ((firstOf i s.codeEntry).map Prod.snd).Nodup →
    (s.codeLenAt i = 0 → FailsWith .invert s .malformedScheme (word i)) ∧
    (255 < (s.codeLenAt i).toNat → FailsWith .invert s .capacity (word i)) ∧
    (1 ≤ (s.codeLenAt i).toNat → (s.codeLenAt i).toNat ≤ 255 →
      (∃ j, j < i ∧ (s.codeSymAt j = s.codeSymAt i ∨ s.codeString j = s.codeString i)) →
      FailsWith .invert s .malformedScheme (word i)))

/-! ### ENCODE and DECODE -/

/-- 43_transcode.md section 2: ENCODE with a valid table, every symbol of the text in it and a result of at most 65536
bits, completes without error with the concatenation of the codes, in text order. -/
def Obligations.EncodeConcatenatesCodes : Prop :=
  ∀ (s : State) (code : Word → List Bool), s.tableValid = true → s.textLen.toNat ≤ 4096 →
    (∀ sym ∈ s.textOperand, CodeOf s.tableOperand sym (code sym)) →
    (s.textOperand.flatMap code).length ≤ 65536 →
    ∃ t, exec .encode s = .next t ∧ t.err = .noError ∧
      t.bitLen.toNat = (s.textOperand.flatMap code).length ∧ t.bitOperand = s.textOperand.flatMap code

/-- 43_transcode.md section 2: the errors of ENCODE after NotReady, in their order. -/
def Obligations.EncodeReportsFirstError : Prop :=
  (∀ s : State, s.tableValid = true → 4096 < s.textLen.toNat → FailsWith .encode s .capacity s.textLen) ∧
  (∀ (s : State) (code : Word → List Bool) (i : Nat), s.tableValid = true → s.textLen.toNat ≤ 4096 →
    i < s.textLen.toNat → (∀ sym ∈ s.textOperand.take i, CodeOf s.tableOperand sym (code sym)) →
    ((s.textOperand.take i).flatMap code).length ≤ 65536 →
    ((∀ e ∈ s.tableOperand, e.1 ≠ s.textAt i) → FailsWith .encode s .unknownSymbol (word i)) ∧
    (∀ b, CodeOf s.tableOperand (s.textAt i) b → 65536 < ((s.textOperand.take i).flatMap code).length + b.length →
      FailsWith .encode s .capacity (word i)))

/-- 43_transcode.md section 3: DECODE with a valid table of a bit-string that the shortest-first scan of R111 takes to its
end in at most 4096 symbols completes without error with those symbols. -/
def Obligations.DecodeTakesShortestMatches : Prop :=
  ∀ (s : State) (out : List Word), s.tableValid = true → s.bitLen.toNat ≤ 65536 →
    Scans s.tableOperand [] s.bitOperand out → out.length ≤ 4096 →
    ∃ t, exec .decode s = .next t ∧ t.err = .noError ∧ t.textLen.toNat = out.length ∧ t.textOperand = out

/-- 43_transcode.md section 3: the errors of DECODE after NotReady: a length above 65536; the position where no prefix
matches; the position of the code of the 4097th symbol. -/
def Obligations.DecodeReportsPosition : Prop :=
  (∀ s : State, s.tableValid = true → 65536 < s.bitLen.toNat → FailsWith .decode s .capacity s.bitLen) ∧
  (∀ (s : State) (used rest : List Bool) (out : List Word), s.tableValid = true → s.bitLen.toNat ≤ 65536 →
    s.bitOperand = used ++ rest → Scans s.tableOperand rest used out → rest ≠ [] → out.length ≤ 4096 →
    (NoMatch s.tableOperand rest → FailsWith .decode s .undecodableSequence (word used.length)) ∧
    (∀ b sym, out.length = 4096 → ShortestMatch s.tableOperand rest b sym →
      FailsWith .decode s .capacity (word used.length)))

/-! ### SER and PARSE -/

/-- 43_transcode.md section 5: SER of a valid, non-empty table whose text fits completes without error with the rows in
index order, symbol in decimal, colon, bit-string, joined by hyphens. -/
def Obligations.SerRendersTheTable : Prop :=
  ∀ (s : State) (scheme : List Byte),
    scheme = joinEntries (s.tableOperand.map fun e =>
      decimalChars e.1.toNat ++ [0x3A] ++ e.2.map fun x => if x then (0x31 : Byte) else 0x30) →
    s.tableValid = true → s.nCode ≠ 0 → scheme.length ≤ 65536 →
    ∃ t, exec .ser s = .next t ∧ t.err = .noError ∧ t.schLen.toNat = scheme.length ∧ t.schOperand = scheme

/-- 43_transcode.md section 5: the errors of SER after NotReady: the empty table, and the entry with which the text passes
65536 characters. -/
def Obligations.SerReportsFirstError : Prop :=
  (∀ s : State, s.tableValid = true → s.nCode = 0 → FailsWith .ser s .badOperand 0) ∧
  (∀ (s : State) (entries : List (List Byte)) (i : Nat),
    entries = (s.tableOperand.map fun e =>
      decimalChars e.1.toNat ++ [0x3A] ++ e.2.map fun x => if x then (0x31 : Byte) else 0x30) →
    s.tableValid = true → i < s.nCode.toNat →
    (joinEntries (entries.take i)).length ≤ 65536 → 65536 < (joinEntries (entries.take (i + 1))).length →
    FailsWith .ser s .capacity (word i))

/-- 43_transcode.md section 6: PARSE of a text of 1 to 256 entries, each parsing to a row, bit-strings of at most 255
bits, symbols and bit-strings pairwise different, completes without error with those rows in text order and TVALID
= 1. -/
def Obligations.ParseReadsTheScheme : Prop :=
  ∀ (s : State) (entries : List (List Byte)) (rows : List (Word × List Bool)),
    s.schLen.toNat ≤ 65536 → s.schOperand = joinEntries entries → 1 ≤ rows.length → rows.length ≤ 256 →
    List.Forall₂ EntryParses entries rows → (∀ e ∈ rows, e.2.length ≤ 255) →
    (rows.map Prod.fst).Nodup → (rows.map Prod.snd).Nodup →
    ∃ t, exec .parse s = .next t ∧ t.err = .noError ∧ t.tableValid = true ∧
      t.nCode.toNat = rows.length ∧ t.tableOperand = rows

/-- 43_transcode.md section 6: the errors of PARSE: a text length above 65536; else the first bad entry, reported by the
position of its first character: a 257th entry, an entry that does not parse, a bit-string above 255 bits, a repeated
symbol or bit-string. -/
def Obligations.ParseReportsFirstDefect : Prop :=
  (∀ s : State, 65536 < s.schLen.toNat → FailsWith .parse s .capacity s.schLen) ∧
  (∀ (s : State) (entries : List (List Byte)) (rows : List (Word × List Bool)) (k : Nat),
    s.schLen.toNat ≤ 65536 → s.schOperand = joinEntries entries → NoDash entries → k < entries.length →
    List.Forall₂ EntryParses (entries.take k) rows → (∀ e ∈ rows, e.2.length ≤ 255) →
    (rows.map Prod.fst).Nodup → (rows.map Prod.snd).Nodup → k ≤ 256 →
    (k = 256 → FailsWith .parse s .capacity (word (entryOffset entries k))) ∧
    (k < 256 → (∀ row, ¬ EntryParses (entries.getD k []) row) →
      FailsWith .parse s .malformedScheme (word (entryOffset entries k))) ∧
    (k < 256 → ∀ sym b, EntryParses (entries.getD k []) (sym, b) →
      (255 < b.length → FailsWith .parse s .capacity (word (entryOffset entries k))) ∧
      (b.length ≤ 255 → (sym ∈ rows.map Prod.fst ∨ b ∈ rows.map Prod.snd) →
        FailsWith .parse s .malformedScheme (word (entryOffset entries k)))))

/-! ### PACK and UNPACK -/

/-- 44_bitpack.md R126: PACK of up to 65535 bits makes `n div 8 + 1` bytes, each the numeral of its group of the bits, the
sentinel and the padding; above that it is Capacity(BITLEN). No more of memory and registers changes than the frame
statements say. -/
def Obligations.PackAppendsSentinel : Prop :=
  encode .pack = 0x00000009 ∧
  (∀ s : State, s.bitLen.toNat ≤ 65535 →
    ∃ t, exec .pack s = .next t ∧
      t = { s with
        mem := { s.mem with byte := t.mem.byte }, byteLen := word (s.bitLen.toNat / 8 + 1)
        err := .noError, errInfo := 0, busy := false, done := true } ∧
      (∀ k, k < s.bitLen.toNat / 8 + 1 →
        (t.byteAt k).toNat = ((List.range 8).map fun j =>
          (packedBit s.bitLen.toNat s.bitAt (8 * k + j)).toNat * 2 ^ (7 - j)).sum) ∧
      ∀ k, s.bitLen.toNat / 8 + 1 ≤ k → t.byteAt k = s.byteAt k) ∧
  (∀ s : State, 65535 < s.bitLen.toNat → FailsWith .pack s .capacity s.bitLen)

/-- 44_bitpack.md R128: UNPACK keeps the bits strictly before the last 1 of the expansion of the bytes; it is
NoSentinelFound(BYTELEN) when there is no 1, Capacity(BYTELEN) above 8192 bytes. -/
def Obligations.UnpackDropsSentinel : Prop :=
  encode .unpack = 0x0000000A ∧
  (∀ (s : State) (p : Nat), s.byteLen.toNat ≤ 8192 → p < 8 * s.byteLen.toNat → expandedBit s p = true →
    (∀ q, p < q → q < 8 * s.byteLen.toNat → expandedBit s q = false) →
    ∃ t, exec .unpack s = .next t ∧
      t = { s with
        mem := { s.mem with bit := t.mem.bit }, bitLen := word p
        err := .noError, errInfo := 0, busy := false, done := true } ∧
      (∀ q, q < p → t.bitAt q = expandedBit s q) ∧ ∀ q, p ≤ q → t.bitAt q = s.bitAt q) ∧
  (∀ s : State, s.byteLen.toNat ≤ 8192 → (∀ q, q < 8 * s.byteLen.toNat → expandedBit s q = false) →
    FailsWith .unpack s .noSentinelFound s.byteLen) ∧
  (∀ s : State, 8192 < s.byteLen.toNat → FailsWith .unpack s .capacity s.byteLen)

/-! ### Frames -/

/-- 30_encoding.md section 2, rows FREQ and BUILD: what the two commands leave unchanged. Elements at or above the output
length, and all elements when the command fails, keep their values. -/
def Obligations.FrameOfFreqAndBuild : Prop :=
  (∀ s t : State, exec .freq s = .next t →
    t = { s with
      mem := { s.mem with freqCount := t.mem.freqCount, freqSym := t.mem.freqSym }, nFreq := t.nFreq
      err := t.err, errInfo := t.errInfo, busy := false, done := true } ∧
    (t.err ≠ .noError → t.nFreq = s.nFreq) ∧
    ∀ i, (t.err = .noError → t.nFreq.toNat ≤ i) →
      t.freqCountAt i = s.freqCountAt i ∧ t.freqSymAt i = s.freqSymAt i) ∧
  (∀ s t : State, exec .build s = .next t →
    t = { s with
      mem := { s.mem with nodeKind := t.mem.nodeKind, nodeA := t.mem.nodeA, nodeB := t.mem.nodeB }
      nNode := t.nNode, root := t.root, treeValid := t.treeValid
      err := t.err, errInfo := t.errInfo, busy := false, done := true } ∧
    (t.err ≠ .noError → t.nNode = s.nNode ∧ t.root = s.root ∧ t.treeValid = s.treeValid) ∧
    ∀ i, (t.err = .noError → t.nNode.toNat ≤ i) →
      t.nodeKindAt i = s.nodeKindAt i ∧ t.nodeAAt i = s.nodeAAt i ∧ t.nodeBAt i = s.nodeBAt i)

/-- 30_encoding.md section 2, rows DERIVE, PARSE and INVERT: what the three commands leave unchanged. -/
def Obligations.FrameOfTableCommands : Prop :=
  (∀ (i : Instr) (s t : State), i = .derive ∨ i = .parse → exec i s = .next t →
    t = { s with
      mem := { s.mem with codeSym := t.mem.codeSym, codeLen := t.mem.codeLen, codeBits := t.mem.codeBits }
      nCode := t.nCode, tableValid := t.tableValid
      err := t.err, errInfo := t.errInfo, busy := false, done := true } ∧
    (t.err ≠ .noError → t.nCode = s.nCode ∧ t.tableValid = s.tableValid) ∧
    ∀ k, (t.err = .noError → t.nCode.toNat ≤ k) →
      t.codeSymAt k = s.codeSymAt k ∧ t.codeLenAt k = s.codeLenAt k ∧ ∀ j, j < 256 → t.codeBitAt k j = s.codeBitAt k j) ∧
  (∀ s t : State, exec .invert s = .next t →
    t = { s with
      tableValid := t.tableValid, err := t.err, errInfo := t.errInfo, busy := false, done := true } ∧
    (t.err ≠ .noError → t.tableValid = s.tableValid))

/-- 30_encoding.md section 2, rows ENCODE, UNPACK and DECODE: what the three commands leave unchanged. -/
def Obligations.FrameOfBitAndTextCommands : Prop :=
  (∀ (i : Instr) (s t : State), i = .encode ∨ i = .unpack → exec i s = .next t →
    t = { s with
      mem := { s.mem with bit := t.mem.bit }, bitLen := t.bitLen
      err := t.err, errInfo := t.errInfo, busy := false, done := true } ∧
    (t.err ≠ .noError → t.bitLen = s.bitLen) ∧
    ∀ k, (t.err = .noError → t.bitLen.toNat ≤ k) → t.bitAt k = s.bitAt k) ∧
  (∀ s t : State, exec .decode s = .next t →
    t = { s with
      mem := { s.mem with text := t.mem.text }, textLen := t.textLen
      err := t.err, errInfo := t.errInfo, busy := false, done := true } ∧
    (t.err ≠ .noError → t.textLen = s.textLen) ∧
    ∀ k, (t.err = .noError → t.textLen.toNat ≤ k) → t.textAt k = s.textAt k)

/-- 30_encoding.md section 2, rows SER and PACK: what the two commands leave unchanged. -/
def Obligations.FrameOfSchemeAndByteCommands : Prop :=
  (∀ s t : State, exec .ser s = .next t →
    t = { s with
      mem := { s.mem with sch := t.mem.sch }, schLen := t.schLen
      err := t.err, errInfo := t.errInfo, busy := false, done := true } ∧
    (t.err ≠ .noError → t.schLen = s.schLen) ∧
    ∀ k, (t.err = .noError → t.schLen.toNat ≤ k) → t.schAt k = s.schAt k) ∧
  (∀ s t : State, exec .pack s = .next t →
    t = { s with
      mem := { s.mem with byte := t.mem.byte }, byteLen := t.byteLen
      err := t.err, errInfo := t.errInfo, busy := false, done := true } ∧
    (t.err ≠ .noError → t.byteLen = s.byteLen) ∧
    ∀ k, (t.err = .noError → t.byteLen.toNat ≤ k) → t.byteAt k = s.byteAt k)

/-- 30_encoding.md section 2: the operands listed for a command are every piece of state whose value can influence its
outcome. Two states that agree on them give the same error or the same output elements, whatever else they hold. -/
def Obligations.OutcomeDependsOnlyOnOperands : Prop :=
  ∀ (i : Instr) (s u t : State), ReadsAgree i s u → exec i s = .next t →
    ∃ v, exec i u = .next v ∧ v.err = t.err ∧ v.errInfo = t.errInfo ∧ (t.err = .noError → WritesAgree i t v)

/-! ### Properties of sequences of commands -/

/-- 44_bitpack.md section 4: PACK, then UNPACK, gives every bit-string of 0 to 65535 bits back. -/
def Obligations.UnpackAfterPackIsIdentity : Prop :=
  ∀ s : State, s.bitLen.toNat ≤ 65535 →
    ∃ t u, issue .pack s = .next t ∧ t.err = .noError ∧ issue .unpack t = .next u ∧ u.err = .noError ∧
      u.bitLen = s.bitLen ∧ ∀ i, u.bitAt i = s.bitAt i

/-- 44_bitpack.md section 4: UNPACK, then PACK, gives every byte stream back whose last byte is not 0. -/
def Obligations.PackAfterUnpackIsIdentity : Prop :=
  ∀ s : State, 1 ≤ s.byteLen.toNat → s.byteLen.toNat ≤ 8192 → s.byteAt (s.byteLen.toNat - 1) ≠ 0 →
    ∃ t u, issue .unpack s = .next t ∧ t.err = .noError ∧ issue .pack t = .next u ∧ u.err = .noError ∧
      u.byteLen = s.byteLen ∧ ∀ i, u.byteAt i = s.byteAt i

/-- 43_transcode.md section 7: under a valid, prefix-free table, DECODE after a successful ENCODE gives the text back. -/
def Obligations.DecodeAfterEncodeIsIdentity : Prop :=
  ∀ s t : State, s.tableValid = true → TableOk s → PrefixFree s.tableOperand →
    issue .encode s = .next t → t.err = .noError →
    ∃ u, issue .decode t = .next u ∧ u.err = .noError ∧ u.textLen = s.textLen ∧ u.textOperand = s.textOperand

/-- 43_transcode.md section 7: PARSE after a successful SER gives the table back. -/
def Obligations.ParseAfterSerIsIdentity : Prop :=
  ∀ s t : State, s.tableValid = true → TableOk s → issue .ser s = .next t → t.err = .noError →
    ∃ u, issue .parse t = .next u ∧ u.err = .noError ∧ u.tableValid = true ∧ u.nCode = s.nCode ∧
      u.tableOperand = s.tableOperand

/-- 43_transcode.md section 7: for every non-empty text within the capacities, FREQ, BUILD and DERIVE succeed, and when
ENCODE succeeds (its result fits BIT memory) DECODE gives the text back. -/
def Obligations.TextRoundTrip : Prop :=
  ∀ s : State, 1 ≤ s.textLen.toNat → s.textLen.toNat ≤ 4096 → s.textOperand.eraseDups.length ≤ 256 →
    ∃ a b c, issue .freq s = .next a ∧ a.err = .noError ∧ issue .build a = .next b ∧ b.err = .noError ∧
      issue .derive b = .next c ∧ c.err = .noError ∧
      ∀ d, issue .encode c = .next d → d.err = .noError →
        ∃ e, issue .decode d = .next e ∧ e.err = .noError ∧ e.textLen = s.textLen ∧ e.textOperand = s.textOperand

/-- 42_code_table.md and 43_transcode.md: INVERT of the table a successful DERIVE (of a valid tree) or PARSE left
succeeds and changes nothing. -/
def Obligations.InvertAcceptsMadeTables : Prop :=
  ∀ (i : Instr) (s t : State), i = .derive ∧ TreeOk s ∨ i = .parse → exec i s = .next t → t.err = .noError →
    exec .invert t = .next t
end

