-- ==== Sys2Proof/Laws/Memory.lean ====
section
/-! SUPPORT. The laws of one field of a buffer memory: a read after a write gives the value written, a write leaves every
other index alone, every write keeps the canonical form. -/

namespace Sys2Proof.Laws

open Sys2Proof.Machine

variable {α : Type}

@[simp] theorem read_nil (i : Nat) : Memory.read ([] : Memory α) i = none := rfl

theorem read_append (m m' : Memory α) (i : Nat) :
    Memory.read (m ++ m') i = (Memory.read m i).or (Memory.read m' i) := by
  induction m with
  | nil => simp
  | cons c m ih =>
    obtain ⟨k, v⟩ := c
    by_cases h : k = i <;> simp [Memory.read, h, ih]

theorem read_filter (p : Nat → Bool) (m : Memory α) (i : Nat) :
    Memory.read (m.filter fun c => p c.1) i = if p i then Memory.read m i else none := by
  induction m with
  | nil => simp
  | cons c m ih =>
    obtain ⟨k, v⟩ := c
    by_cases hk : p k <;> by_cases h : k = i
    · subst h; simp [Memory.read, hk]
    · simp [Memory.read, hk, h, ih]
    · subst h; simp [hk, ih]
    · simp [Memory.read, hk, h, ih]

theorem read_cells (vs : List α) (base i : Nat) :
    Memory.read (Memory.cells base vs) i = if base ≤ i then vs[i - base]? else none := by
  induction vs generalizing base with
  | nil => simp [Memory.cells]
  | cons v vs ih =>
    by_cases h : base = i
    · subst h; simp [Memory.cells, Memory.read]
    · simp only [Memory.cells, Memory.read, h, if_false, ih]
      by_cases hle : base + 1 ≤ i
      · have h1 : i - base = (i - (base + 1)) + 1 := by omega
        rw [if_pos hle, if_pos (by omega), h1, List.getElem?_cons_succ]
      · rw [if_neg hle, if_neg (by omega)]

/-- All that a read after a write of consecutive elements can give. -/
theorem read_store (base : Nat) (vs : List α) (m : Memory α) (i : Nat) :
    Memory.read (Memory.store base vs m) i =
      if base ≤ i ∧ i < base + vs.length then vs[i - base]? else Memory.read m i := by
  have hlow : Memory.read (m.filter fun c => c.1 < base) i = if i < base then Memory.read m i else none := by
    simpa using read_filter (fun k => decide (k < base)) m i
  have hhigh : Memory.read (m.filter fun c => base + vs.length ≤ c.1) i =
      if base + vs.length ≤ i then Memory.read m i else none := by
    simpa using read_filter (fun k => decide (base + vs.length ≤ k)) m i
  rw [Memory.store, read_append, read_append, read_cells, hlow, hhigh]
  by_cases h1 : base ≤ i
  · have h3 : ¬ i < base := by omega
    by_cases h2 : i < base + vs.length
    · have h4 : i - base < vs.length := by omega
      rw [if_neg h3, if_pos h1, if_neg (by omega), if_pos ⟨h1, h2⟩, List.getElem?_eq_getElem h4]
      rfl
    · have h4 : vs[i - base]? = none := List.getElem?_eq_none (by omega)
      rw [if_neg h3, if_pos h1, if_pos (by omega), if_neg (fun h => h2 h.2), h4]
      rfl
  · rw [if_pos (by omega), if_neg h1, if_neg (by omega), if_neg (fun h => h1 h.1)]
    simp

theorem read_store_of_lt (vs : List α) (m : Memory α) {i : Nat} (h : i < vs.length) :
    Memory.read (Memory.store 0 vs m) i = some vs[i] := by
  simp [read_store, h]

theorem read_store_of_le (vs : List α) (m : Memory α) {i : Nat} (h : vs.length ≤ i) :
    Memory.read (Memory.store 0 vs m) i = Memory.read m i := by
  rw [read_store, if_neg (by omega)]

theorem read_set (i : Nat) (v : α) (m : Memory α) (j : Nat) :
    Memory.read (Memory.set i v m) j = if j = i then some v else Memory.read m j := by
  rw [Memory.set, read_store]
  by_cases h : j = i
  · subst h; simp
  · rw [if_neg (by simp; omega), if_neg h]

theorem mem_cells {vs : List α} {base : Nat} {c : Nat × α} (h : c ∈ Memory.cells base vs) :
    base ≤ c.1 ∧ c.1 < base + vs.length := by
  induction vs generalizing base with
  | nil => simp [Memory.cells] at h
  | cons v vs ih =>
    rcases List.mem_cons.mp h with h | h
    · subst h; simp
    · have := ih h
      simp only [List.length_cons]
      omega

theorem pairwise_cells (vs : List α) (base : Nat) :
    (Memory.cells base vs).Pairwise (fun a b => a.1 < b.1) := by
  induction vs generalizing base with
  | nil => exact List.Pairwise.nil
  | cons v vs ih =>
    refine List.Pairwise.cons (fun c hc => ?_) (ih (base + 1))
    have := mem_cells hc
    show base < c.1
    omega

/-- Every write keeps the canonical form, within the memory's size. -/
theorem wf_store {size base : Nat} {vs : List α} {m : Memory α} (h : Memory.wf size m)
    (hle : base + vs.length ≤ size) : Memory.wf size (Memory.store base vs m) := by
  obtain ⟨hp, hb⟩ := h
  refine ⟨?_, ?_⟩
  · rw [Memory.store, List.pairwise_append, List.pairwise_append]
    refine ⟨⟨hp.filter _, pairwise_cells vs base, ?_⟩, hp.filter _, ?_⟩
    · intro a ha b hb'
      have h1 : a.1 < base := by simpa using (List.mem_filter.mp ha).2
      have h2 := (mem_cells hb').1
      omega
    · intro a ha b hb'
      have h2 : base + vs.length ≤ b.1 := by simpa using (List.mem_filter.mp hb').2
      rcases List.mem_append.mp ha with ha | ha
      · have h1 : a.1 < base := by simpa using (List.mem_filter.mp ha).2
        omega
      · have h1 := (mem_cells ha).2
        omega
  · intro c hc
    rcases List.mem_append.mp hc with hc | hc
    · rcases List.mem_append.mp hc with hc | hc
      · exact hb c (List.mem_filter.mp hc).1
      · have := (mem_cells hc).2
        omega
    · exact hb c (List.mem_filter.mp hc).1

theorem wf_set {size i : Nat} {v : α} {m : Memory α} (h : Memory.wf size m) (hi : i < size) :
    Memory.wf size (Memory.set i v m) := wf_store h (by simp; omega)

theorem wf_nil (size : Nat) : Memory.wf size ([] : Memory α) := by simp [Memory.wf]

/-- No memory has an element written. -/
theorem wf_unwritten : Buffers.unwritten.wf := by simp [Buffers.unwritten, Buffers.wf, Memory.wf]

/-- In canonical form, equal reads are equal data. -/
theorem eq_of_read_eq {m m' : Memory α} (h : m.Pairwise (fun a b => a.1 < b.1))
    (h' : m'.Pairwise (fun a b => a.1 < b.1)) (hr : ∀ i, Memory.read m i = Memory.read m' i) : m = m' := by
  have none_of_lt : ∀ {n : Memory α} {i : Nat}, (∀ c ∈ n, i < c.1) → Memory.read n i = none := by
    intro n
    induction n with
    | nil => simp
    | cons c n ih =>
      intro i hi
      obtain ⟨k, v⟩ := c
      have hk : i < k := hi (k, v) (by simp)
      have : k ≠ i := by omega
      simp only [Memory.read, this, if_false]
      exact ih fun c hc => hi c (by simp [hc])
  induction m generalizing m' with
  | nil =>
    cases m' with
    | nil => rfl
    | cons c m' => have := hr c.1; simp [Memory.read] at this
  | cons c m ih =>
    obtain ⟨k, v⟩ := c
    cases m' with
    | nil => have := hr k; simp [Memory.read] at this
    | cons c' m' =>
      obtain ⟨k', v'⟩ := c'
      rw [List.pairwise_cons] at h h'
      have hk : k = k' := by
        rcases Nat.lt_trichotomy k k' with hlt | heq | hgt
        · have h1 := hr k
          have : k' ≠ k := by omega
          simp only [Memory.read, if_true, this, if_false] at h1
          rw [none_of_lt fun c hc => by have := h'.1 c hc; simp at this; omega] at h1
          exact absurd h1 (by simp)
        · exact heq
        · have h1 := hr k'
          have : k ≠ k' := by omega
          simp only [Memory.read, if_true, this, if_false] at h1
          rw [none_of_lt fun c hc => by have := h.1 c hc; simp at this; omega] at h1
          exact absurd h1.symm (by simp)
      subst hk
      have hv : v = v' := by have := hr k; simpa [Memory.read] using this
      subst hv
      congr 1
      refine ih h.2 h'.2 fun i => ?_
      by_cases hi : k = i
      · subst hi
        rw [none_of_lt h.1, none_of_lt h'.1]
      · have := hr i
        simpa [Memory.read, hi] using this

end Sys2Proof.Laws
end

