-- ==== Sys2Proof/Laws/State.lean ====
section
/-! SUPPORT. One lemma per field and per element accessor of State for each named update, all true by unfolding,
so that no later proof unfolds a record update. -/

namespace Sys2Proof.Laws

open Sys2Proof.Machine

variable (s : State)

/-! ### State.startCommand -/

@[simp] theorem startCommand_ie (w : Word) : (s.startCommand w).ie = s.ie := rfl
@[simp] theorem startCommand_cmd (w : Word) : (s.startCommand w).cmd = w := rfl
@[simp] theorem startCommand_busy (w : Word) : (s.startCommand w).busy = true := rfl
@[simp] theorem startCommand_done (w : Word) : (s.startCommand w).done = false := rfl
@[simp] theorem startCommand_err (w : Word) : (s.startCommand w).err = .noError := rfl
@[simp] theorem startCommand_treeValid (w : Word) : (s.startCommand w).treeValid = s.treeValid := rfl
@[simp] theorem startCommand_tableValid (w : Word) : (s.startCommand w).tableValid = s.tableValid := rfl
@[simp] theorem startCommand_errInfo (w : Word) : (s.startCommand w).errInfo = 0 := rfl
@[simp] theorem startCommand_textLen (w : Word) : (s.startCommand w).textLen = s.textLen := rfl
@[simp] theorem startCommand_nFreq (w : Word) : (s.startCommand w).nFreq = s.nFreq := rfl
@[simp] theorem startCommand_nNode (w : Word) : (s.startCommand w).nNode = s.nNode := rfl
@[simp] theorem startCommand_root (w : Word) : (s.startCommand w).root = s.root := rfl
@[simp] theorem startCommand_nCode (w : Word) : (s.startCommand w).nCode = s.nCode := rfl
@[simp] theorem startCommand_bitLen (w : Word) : (s.startCommand w).bitLen = s.bitLen := rfl
@[simp] theorem startCommand_byteLen (w : Word) : (s.startCommand w).byteLen = s.byteLen := rfl
@[simp] theorem startCommand_schLen (w : Word) : (s.startCommand w).schLen = s.schLen := rfl
@[simp] theorem startCommand_mem (w : Word) : (s.startCommand w).mem = s.mem := rfl
@[simp] theorem startCommand_epoch (w : Word) : (s.startCommand w).epoch = s.epoch := rfl
@[simp] theorem startCommand_inputs (w : Word) : (s.startCommand w).inputs = s.inputs := rfl
@[simp] theorem startCommand_responses (w : Word) : (s.startCommand w).responses = s.responses := rfl
@[simp] theorem startCommand_freqCountAt (w : Word) (i : Nat) : (s.startCommand w).freqCountAt i = s.freqCountAt i := rfl
@[simp] theorem startCommand_freqSymAt (w : Word) (i : Nat) : (s.startCommand w).freqSymAt i = s.freqSymAt i := rfl
@[simp] theorem startCommand_nodeKindAt (w : Word) (i : Nat) : (s.startCommand w).nodeKindAt i = s.nodeKindAt i := rfl
@[simp] theorem startCommand_nodeAAt (w : Word) (i : Nat) : (s.startCommand w).nodeAAt i = s.nodeAAt i := rfl
@[simp] theorem startCommand_nodeBAt (w : Word) (i : Nat) : (s.startCommand w).nodeBAt i = s.nodeBAt i := rfl
@[simp] theorem startCommand_codeSymAt (w : Word) (i : Nat) : (s.startCommand w).codeSymAt i = s.codeSymAt i := rfl
@[simp] theorem startCommand_codeLenAt (w : Word) (i : Nat) : (s.startCommand w).codeLenAt i = s.codeLenAt i := rfl
@[simp] theorem startCommand_codeWordAt (w : Word) (i k : Nat) : (s.startCommand w).codeWordAt i k = s.codeWordAt i k := rfl
@[simp] theorem startCommand_codeBitAt (w : Word) (i j : Nat) : (s.startCommand w).codeBitAt i j = s.codeBitAt i j := rfl
@[simp] theorem startCommand_codeString (w : Word) (i : Nat) : (s.startCommand w).codeString i = s.codeString i := rfl
@[simp] theorem startCommand_codeEntry (w : Word) (i : Nat) : (s.startCommand w).codeEntry i = s.codeEntry i := rfl
@[simp] theorem startCommand_textAt (w : Word) (i : Nat) : (s.startCommand w).textAt i = s.textAt i := rfl
@[simp] theorem startCommand_bitAt (w : Word) (i : Nat) : (s.startCommand w).bitAt i = s.bitAt i := rfl
@[simp] theorem startCommand_byteAt (w : Word) (i : Nat) : (s.startCommand w).byteAt i = s.byteAt i := rfl
@[simp] theorem startCommand_schAt (w : Word) (i : Nat) : (s.startCommand w).schAt i = s.schAt i := rfl
@[simp] theorem startCommand_textOperand (w : Word) : (s.startCommand w).textOperand = s.textOperand := rfl
@[simp] theorem startCommand_freqOperand (w : Word) : (s.startCommand w).freqOperand = s.freqOperand := rfl
@[simp] theorem startCommand_tableOperand (w : Word) : (s.startCommand w).tableOperand = s.tableOperand := rfl
@[simp] theorem startCommand_bitOperand (w : Word) : (s.startCommand w).bitOperand = s.bitOperand := rfl
@[simp] theorem startCommand_byteOperand (w : Word) : (s.startCommand w).byteOperand = s.byteOperand := rfl
@[simp] theorem startCommand_schOperand (w : Word) : (s.startCommand w).schOperand = s.schOperand := rfl

/-! ### State.finish -/

@[simp] theorem finish_ie : s.finish.ie = s.ie := rfl
@[simp] theorem finish_cmd : s.finish.cmd = s.cmd := rfl
@[simp] theorem finish_busy : s.finish.busy = false := rfl
@[simp] theorem finish_done : s.finish.done = true := rfl
@[simp] theorem finish_err : s.finish.err = .noError := rfl
@[simp] theorem finish_treeValid : s.finish.treeValid = s.treeValid := rfl
@[simp] theorem finish_tableValid : s.finish.tableValid = s.tableValid := rfl
@[simp] theorem finish_errInfo : s.finish.errInfo = 0 := rfl
@[simp] theorem finish_textLen : s.finish.textLen = s.textLen := rfl
@[simp] theorem finish_nFreq : s.finish.nFreq = s.nFreq := rfl
@[simp] theorem finish_nNode : s.finish.nNode = s.nNode := rfl
@[simp] theorem finish_root : s.finish.root = s.root := rfl
@[simp] theorem finish_nCode : s.finish.nCode = s.nCode := rfl
@[simp] theorem finish_bitLen : s.finish.bitLen = s.bitLen := rfl
@[simp] theorem finish_byteLen : s.finish.byteLen = s.byteLen := rfl
@[simp] theorem finish_schLen : s.finish.schLen = s.schLen := rfl
@[simp] theorem finish_mem : s.finish.mem = s.mem := rfl
@[simp] theorem finish_epoch : s.finish.epoch = s.epoch := rfl
@[simp] theorem finish_inputs : s.finish.inputs = s.inputs := rfl
@[simp] theorem finish_responses : s.finish.responses = s.responses := rfl
@[simp] theorem finish_freqCountAt (i : Nat) : s.finish.freqCountAt i = s.freqCountAt i := rfl
@[simp] theorem finish_freqSymAt (i : Nat) : s.finish.freqSymAt i = s.freqSymAt i := rfl
@[simp] theorem finish_nodeKindAt (i : Nat) : s.finish.nodeKindAt i = s.nodeKindAt i := rfl
@[simp] theorem finish_nodeAAt (i : Nat) : s.finish.nodeAAt i = s.nodeAAt i := rfl
@[simp] theorem finish_nodeBAt (i : Nat) : s.finish.nodeBAt i = s.nodeBAt i := rfl
@[simp] theorem finish_codeSymAt (i : Nat) : s.finish.codeSymAt i = s.codeSymAt i := rfl
@[simp] theorem finish_codeLenAt (i : Nat) : s.finish.codeLenAt i = s.codeLenAt i := rfl
@[simp] theorem finish_codeWordAt (i k : Nat) : s.finish.codeWordAt i k = s.codeWordAt i k := rfl
@[simp] theorem finish_codeBitAt (i j : Nat) : s.finish.codeBitAt i j = s.codeBitAt i j := rfl
@[simp] theorem finish_codeString (i : Nat) : s.finish.codeString i = s.codeString i := rfl
@[simp] theorem finish_codeEntry (i : Nat) : s.finish.codeEntry i = s.codeEntry i := rfl
@[simp] theorem finish_textAt (i : Nat) : s.finish.textAt i = s.textAt i := rfl
@[simp] theorem finish_bitAt (i : Nat) : s.finish.bitAt i = s.bitAt i := rfl
@[simp] theorem finish_byteAt (i : Nat) : s.finish.byteAt i = s.byteAt i := rfl
@[simp] theorem finish_schAt (i : Nat) : s.finish.schAt i = s.schAt i := rfl
@[simp] theorem finish_textOperand : s.finish.textOperand = s.textOperand := rfl
@[simp] theorem finish_freqOperand : s.finish.freqOperand = s.freqOperand := rfl
@[simp] theorem finish_tableOperand : s.finish.tableOperand = s.tableOperand := rfl
@[simp] theorem finish_bitOperand : s.finish.bitOperand = s.bitOperand := rfl
@[simp] theorem finish_byteOperand : s.finish.byteOperand = s.byteOperand := rfl
@[simp] theorem finish_schOperand : s.finish.schOperand = s.schOperand := rfl

/-! ### State.raise -/

@[simp] theorem raise_ie (r : Raise) : (s.raise r).ie = s.ie := rfl
@[simp] theorem raise_cmd (r : Raise) : (s.raise r).cmd = s.cmd := rfl
@[simp] theorem raise_busy (r : Raise) : (s.raise r).busy = false := rfl
@[simp] theorem raise_done (r : Raise) : (s.raise r).done = true := rfl
@[simp] theorem raise_err (r : Raise) : (s.raise r).err = r.kind := rfl
@[simp] theorem raise_treeValid (r : Raise) : (s.raise r).treeValid = s.treeValid := rfl
@[simp] theorem raise_tableValid (r : Raise) : (s.raise r).tableValid = s.tableValid := rfl
@[simp] theorem raise_errInfo (r : Raise) : (s.raise r).errInfo = r.info := rfl
@[simp] theorem raise_textLen (r : Raise) : (s.raise r).textLen = s.textLen := rfl
@[simp] theorem raise_nFreq (r : Raise) : (s.raise r).nFreq = s.nFreq := rfl
@[simp] theorem raise_nNode (r : Raise) : (s.raise r).nNode = s.nNode := rfl
@[simp] theorem raise_root (r : Raise) : (s.raise r).root = s.root := rfl
@[simp] theorem raise_nCode (r : Raise) : (s.raise r).nCode = s.nCode := rfl
@[simp] theorem raise_bitLen (r : Raise) : (s.raise r).bitLen = s.bitLen := rfl
@[simp] theorem raise_byteLen (r : Raise) : (s.raise r).byteLen = s.byteLen := rfl
@[simp] theorem raise_schLen (r : Raise) : (s.raise r).schLen = s.schLen := rfl
@[simp] theorem raise_mem (r : Raise) : (s.raise r).mem = s.mem := rfl
@[simp] theorem raise_epoch (r : Raise) : (s.raise r).epoch = s.epoch := rfl
@[simp] theorem raise_inputs (r : Raise) : (s.raise r).inputs = s.inputs := rfl
@[simp] theorem raise_responses (r : Raise) : (s.raise r).responses = s.responses := rfl
@[simp] theorem raise_freqCountAt (r : Raise) (i : Nat) : (s.raise r).freqCountAt i = s.freqCountAt i := rfl
@[simp] theorem raise_freqSymAt (r : Raise) (i : Nat) : (s.raise r).freqSymAt i = s.freqSymAt i := rfl
@[simp] theorem raise_nodeKindAt (r : Raise) (i : Nat) : (s.raise r).nodeKindAt i = s.nodeKindAt i := rfl
@[simp] theorem raise_nodeAAt (r : Raise) (i : Nat) : (s.raise r).nodeAAt i = s.nodeAAt i := rfl
@[simp] theorem raise_nodeBAt (r : Raise) (i : Nat) : (s.raise r).nodeBAt i = s.nodeBAt i := rfl
@[simp] theorem raise_codeSymAt (r : Raise) (i : Nat) : (s.raise r).codeSymAt i = s.codeSymAt i := rfl
@[simp] theorem raise_codeLenAt (r : Raise) (i : Nat) : (s.raise r).codeLenAt i = s.codeLenAt i := rfl
@[simp] theorem raise_codeWordAt (r : Raise) (i k : Nat) : (s.raise r).codeWordAt i k = s.codeWordAt i k := rfl
@[simp] theorem raise_codeBitAt (r : Raise) (i j : Nat) : (s.raise r).codeBitAt i j = s.codeBitAt i j := rfl
@[simp] theorem raise_codeString (r : Raise) (i : Nat) : (s.raise r).codeString i = s.codeString i := rfl
@[simp] theorem raise_codeEntry (r : Raise) (i : Nat) : (s.raise r).codeEntry i = s.codeEntry i := rfl
@[simp] theorem raise_textAt (r : Raise) (i : Nat) : (s.raise r).textAt i = s.textAt i := rfl
@[simp] theorem raise_bitAt (r : Raise) (i : Nat) : (s.raise r).bitAt i = s.bitAt i := rfl
@[simp] theorem raise_byteAt (r : Raise) (i : Nat) : (s.raise r).byteAt i = s.byteAt i := rfl
@[simp] theorem raise_schAt (r : Raise) (i : Nat) : (s.raise r).schAt i = s.schAt i := rfl
@[simp] theorem raise_textOperand (r : Raise) : (s.raise r).textOperand = s.textOperand := rfl
@[simp] theorem raise_freqOperand (r : Raise) : (s.raise r).freqOperand = s.freqOperand := rfl
@[simp] theorem raise_tableOperand (r : Raise) : (s.raise r).tableOperand = s.tableOperand := rfl
@[simp] theorem raise_bitOperand (r : Raise) : (s.raise r).bitOperand = s.bitOperand := rfl
@[simp] theorem raise_byteOperand (r : Raise) : (s.raise r).byteOperand = s.byteOperand := rfl
@[simp] theorem raise_schOperand (r : Raise) : (s.raise r).schOperand = s.schOperand := rfl

/-! ### State.clearRegisters -/

@[simp] theorem clearRegisters_ie : s.clearRegisters.ie = false := rfl
@[simp] theorem clearRegisters_cmd : s.clearRegisters.cmd = 0 := rfl
@[simp] theorem clearRegisters_busy : s.clearRegisters.busy = false := rfl
@[simp] theorem clearRegisters_done : s.clearRegisters.done = false := rfl
@[simp] theorem clearRegisters_err : s.clearRegisters.err = .noError := rfl
@[simp] theorem clearRegisters_treeValid : s.clearRegisters.treeValid = false := rfl
@[simp] theorem clearRegisters_tableValid : s.clearRegisters.tableValid = false := rfl
@[simp] theorem clearRegisters_errInfo : s.clearRegisters.errInfo = 0 := rfl
@[simp] theorem clearRegisters_textLen : s.clearRegisters.textLen = 0 := rfl
@[simp] theorem clearRegisters_nFreq : s.clearRegisters.nFreq = 0 := rfl
@[simp] theorem clearRegisters_nNode : s.clearRegisters.nNode = 0 := rfl
@[simp] theorem clearRegisters_root : s.clearRegisters.root = 0 := rfl
@[simp] theorem clearRegisters_nCode : s.clearRegisters.nCode = 0 := rfl
@[simp] theorem clearRegisters_bitLen : s.clearRegisters.bitLen = 0 := rfl
@[simp] theorem clearRegisters_byteLen : s.clearRegisters.byteLen = 0 := rfl
@[simp] theorem clearRegisters_schLen : s.clearRegisters.schLen = 0 := rfl
@[simp] theorem clearRegisters_mem : s.clearRegisters.mem = s.mem := rfl
@[simp] theorem clearRegisters_epoch : s.clearRegisters.epoch = s.epoch := rfl
@[simp] theorem clearRegisters_inputs : s.clearRegisters.inputs = s.inputs := rfl
@[simp] theorem clearRegisters_responses : s.clearRegisters.responses = s.responses := rfl
@[simp] theorem clearRegisters_freqCountAt (i : Nat) : s.clearRegisters.freqCountAt i = s.freqCountAt i := rfl
@[simp] theorem clearRegisters_freqSymAt (i : Nat) : s.clearRegisters.freqSymAt i = s.freqSymAt i := rfl
@[simp] theorem clearRegisters_nodeKindAt (i : Nat) : s.clearRegisters.nodeKindAt i = s.nodeKindAt i := rfl
@[simp] theorem clearRegisters_nodeAAt (i : Nat) : s.clearRegisters.nodeAAt i = s.nodeAAt i := rfl
@[simp] theorem clearRegisters_nodeBAt (i : Nat) : s.clearRegisters.nodeBAt i = s.nodeBAt i := rfl
@[simp] theorem clearRegisters_codeSymAt (i : Nat) : s.clearRegisters.codeSymAt i = s.codeSymAt i := rfl
@[simp] theorem clearRegisters_codeLenAt (i : Nat) : s.clearRegisters.codeLenAt i = s.codeLenAt i := rfl
@[simp] theorem clearRegisters_codeWordAt (i k : Nat) : s.clearRegisters.codeWordAt i k = s.codeWordAt i k := rfl
@[simp] theorem clearRegisters_codeBitAt (i j : Nat) : s.clearRegisters.codeBitAt i j = s.codeBitAt i j := rfl
@[simp] theorem clearRegisters_codeString (i : Nat) : s.clearRegisters.codeString i = s.codeString i := rfl
@[simp] theorem clearRegisters_codeEntry (i : Nat) : s.clearRegisters.codeEntry i = s.codeEntry i := rfl
@[simp] theorem clearRegisters_textAt (i : Nat) : s.clearRegisters.textAt i = s.textAt i := rfl
@[simp] theorem clearRegisters_bitAt (i : Nat) : s.clearRegisters.bitAt i = s.bitAt i := rfl
@[simp] theorem clearRegisters_byteAt (i : Nat) : s.clearRegisters.byteAt i = s.byteAt i := rfl
@[simp] theorem clearRegisters_schAt (i : Nat) : s.clearRegisters.schAt i = s.schAt i := rfl

/-! ### State.softReset -/

@[simp] theorem softReset_ie : s.softReset.ie = false := rfl
@[simp] theorem softReset_cmd : s.softReset.cmd = 0 := rfl
@[simp] theorem softReset_busy : s.softReset.busy = false := rfl
@[simp] theorem softReset_done : s.softReset.done = false := rfl
@[simp] theorem softReset_err : s.softReset.err = .noError := rfl
@[simp] theorem softReset_treeValid : s.softReset.treeValid = false := rfl
@[simp] theorem softReset_tableValid : s.softReset.tableValid = false := rfl
@[simp] theorem softReset_errInfo : s.softReset.errInfo = 0 := rfl
@[simp] theorem softReset_textLen : s.softReset.textLen = 0 := rfl
@[simp] theorem softReset_nFreq : s.softReset.nFreq = 0 := rfl
@[simp] theorem softReset_nNode : s.softReset.nNode = 0 := rfl
@[simp] theorem softReset_root : s.softReset.root = 0 := rfl
@[simp] theorem softReset_nCode : s.softReset.nCode = 0 := rfl
@[simp] theorem softReset_bitLen : s.softReset.bitLen = 0 := rfl
@[simp] theorem softReset_byteLen : s.softReset.byteLen = 0 := rfl
@[simp] theorem softReset_schLen : s.softReset.schLen = 0 := rfl
@[simp] theorem softReset_mem : s.softReset.mem = s.mem := rfl
@[simp] theorem softReset_epoch : s.softReset.epoch = s.epoch := rfl
@[simp] theorem softReset_inputs : s.softReset.inputs = s.inputs := rfl
@[simp] theorem softReset_responses : s.softReset.responses = s.responses := rfl
@[simp] theorem softReset_freqCountAt (i : Nat) : s.softReset.freqCountAt i = s.freqCountAt i := rfl
@[simp] theorem softReset_freqSymAt (i : Nat) : s.softReset.freqSymAt i = s.freqSymAt i := rfl
@[simp] theorem softReset_nodeKindAt (i : Nat) : s.softReset.nodeKindAt i = s.nodeKindAt i := rfl
@[simp] theorem softReset_nodeAAt (i : Nat) : s.softReset.nodeAAt i = s.nodeAAt i := rfl
@[simp] theorem softReset_nodeBAt (i : Nat) : s.softReset.nodeBAt i = s.nodeBAt i := rfl
@[simp] theorem softReset_codeSymAt (i : Nat) : s.softReset.codeSymAt i = s.codeSymAt i := rfl
@[simp] theorem softReset_codeLenAt (i : Nat) : s.softReset.codeLenAt i = s.codeLenAt i := rfl
@[simp] theorem softReset_codeWordAt (i k : Nat) : s.softReset.codeWordAt i k = s.codeWordAt i k := rfl
@[simp] theorem softReset_codeBitAt (i j : Nat) : s.softReset.codeBitAt i j = s.codeBitAt i j := rfl
@[simp] theorem softReset_codeString (i : Nat) : s.softReset.codeString i = s.codeString i := rfl
@[simp] theorem softReset_codeEntry (i : Nat) : s.softReset.codeEntry i = s.codeEntry i := rfl
@[simp] theorem softReset_textAt (i : Nat) : s.softReset.textAt i = s.textAt i := rfl
@[simp] theorem softReset_bitAt (i : Nat) : s.softReset.bitAt i = s.bitAt i := rfl
@[simp] theorem softReset_byteAt (i : Nat) : s.softReset.byteAt i = s.byteAt i := rfl
@[simp] theorem softReset_schAt (i : Nat) : s.softReset.schAt i = s.schAt i := rfl

/-! ### State.hardReset -/

@[simp] theorem hardReset_ie : s.hardReset.ie = false := rfl
@[simp] theorem hardReset_cmd : s.hardReset.cmd = 0 := rfl
@[simp] theorem hardReset_busy : s.hardReset.busy = false := rfl
@[simp] theorem hardReset_done : s.hardReset.done = false := rfl
@[simp] theorem hardReset_err : s.hardReset.err = .noError := rfl
@[simp] theorem hardReset_treeValid : s.hardReset.treeValid = false := rfl
@[simp] theorem hardReset_tableValid : s.hardReset.tableValid = false := rfl
@[simp] theorem hardReset_errInfo : s.hardReset.errInfo = 0 := rfl
@[simp] theorem hardReset_textLen : s.hardReset.textLen = 0 := rfl
@[simp] theorem hardReset_nFreq : s.hardReset.nFreq = 0 := rfl
@[simp] theorem hardReset_nNode : s.hardReset.nNode = 0 := rfl
@[simp] theorem hardReset_root : s.hardReset.root = 0 := rfl
@[simp] theorem hardReset_nCode : s.hardReset.nCode = 0 := rfl
@[simp] theorem hardReset_bitLen : s.hardReset.bitLen = 0 := rfl
@[simp] theorem hardReset_byteLen : s.hardReset.byteLen = 0 := rfl
@[simp] theorem hardReset_schLen : s.hardReset.schLen = 0 := rfl
@[simp] theorem hardReset_mem : s.hardReset.mem = .unwritten := rfl
@[simp] theorem hardReset_epoch : s.hardReset.epoch = s.epoch + 1 := rfl
@[simp] theorem hardReset_inputs : s.hardReset.inputs = s.inputs := rfl
@[simp] theorem hardReset_responses : s.hardReset.responses = s.responses := rfl

/-! ### State.clearTableValid -/

@[simp] theorem clearTableValid_ie : s.clearTableValid.ie = s.ie := rfl
@[simp] theorem clearTableValid_cmd : s.clearTableValid.cmd = s.cmd := rfl
@[simp] theorem clearTableValid_busy : s.clearTableValid.busy = s.busy := rfl
@[simp] theorem clearTableValid_done : s.clearTableValid.done = s.done := rfl
@[simp] theorem clearTableValid_err : s.clearTableValid.err = s.err := rfl
@[simp] theorem clearTableValid_treeValid : s.clearTableValid.treeValid = s.treeValid := rfl
@[simp] theorem clearTableValid_tableValid : s.clearTableValid.tableValid = false := rfl
@[simp] theorem clearTableValid_errInfo : s.clearTableValid.errInfo = s.errInfo := rfl
@[simp] theorem clearTableValid_textLen : s.clearTableValid.textLen = s.textLen := rfl
@[simp] theorem clearTableValid_nFreq : s.clearTableValid.nFreq = s.nFreq := rfl
@[simp] theorem clearTableValid_nNode : s.clearTableValid.nNode = s.nNode := rfl
@[simp] theorem clearTableValid_root : s.clearTableValid.root = s.root := rfl
@[simp] theorem clearTableValid_nCode : s.clearTableValid.nCode = s.nCode := rfl
@[simp] theorem clearTableValid_bitLen : s.clearTableValid.bitLen = s.bitLen := rfl
@[simp] theorem clearTableValid_byteLen : s.clearTableValid.byteLen = s.byteLen := rfl
@[simp] theorem clearTableValid_schLen : s.clearTableValid.schLen = s.schLen := rfl
@[simp] theorem clearTableValid_mem : s.clearTableValid.mem = s.mem := rfl
@[simp] theorem clearTableValid_epoch : s.clearTableValid.epoch = s.epoch := rfl
@[simp] theorem clearTableValid_inputs : s.clearTableValid.inputs = s.inputs := rfl
@[simp] theorem clearTableValid_responses : s.clearTableValid.responses = s.responses := rfl
@[simp] theorem clearTableValid_freqCountAt (i : Nat) : s.clearTableValid.freqCountAt i = s.freqCountAt i := rfl
@[simp] theorem clearTableValid_freqSymAt (i : Nat) : s.clearTableValid.freqSymAt i = s.freqSymAt i := rfl
@[simp] theorem clearTableValid_nodeKindAt (i : Nat) : s.clearTableValid.nodeKindAt i = s.nodeKindAt i := rfl
@[simp] theorem clearTableValid_nodeAAt (i : Nat) : s.clearTableValid.nodeAAt i = s.nodeAAt i := rfl
@[simp] theorem clearTableValid_nodeBAt (i : Nat) : s.clearTableValid.nodeBAt i = s.nodeBAt i := rfl
@[simp] theorem clearTableValid_codeSymAt (i : Nat) : s.clearTableValid.codeSymAt i = s.codeSymAt i := rfl
@[simp] theorem clearTableValid_codeLenAt (i : Nat) : s.clearTableValid.codeLenAt i = s.codeLenAt i := rfl
@[simp] theorem clearTableValid_codeWordAt (i k : Nat) : s.clearTableValid.codeWordAt i k = s.codeWordAt i k := rfl
@[simp] theorem clearTableValid_codeBitAt (i j : Nat) : s.clearTableValid.codeBitAt i j = s.codeBitAt i j := rfl
@[simp] theorem clearTableValid_codeString (i : Nat) : s.clearTableValid.codeString i = s.codeString i := rfl
@[simp] theorem clearTableValid_codeEntry (i : Nat) : s.clearTableValid.codeEntry i = s.codeEntry i := rfl
@[simp] theorem clearTableValid_textAt (i : Nat) : s.clearTableValid.textAt i = s.textAt i := rfl
@[simp] theorem clearTableValid_bitAt (i : Nat) : s.clearTableValid.bitAt i = s.bitAt i := rfl
@[simp] theorem clearTableValid_byteAt (i : Nat) : s.clearTableValid.byteAt i = s.byteAt i := rfl
@[simp] theorem clearTableValid_schAt (i : Nat) : s.clearTableValid.schAt i = s.schAt i := rfl
@[simp] theorem clearTableValid_textOperand : s.clearTableValid.textOperand = s.textOperand := rfl
@[simp] theorem clearTableValid_freqOperand : s.clearTableValid.freqOperand = s.freqOperand := rfl
@[simp] theorem clearTableValid_tableOperand : s.clearTableValid.tableOperand = s.tableOperand := rfl
@[simp] theorem clearTableValid_bitOperand : s.clearTableValid.bitOperand = s.bitOperand := rfl
@[simp] theorem clearTableValid_byteOperand : s.clearTableValid.byteOperand = s.byteOperand := rfl
@[simp] theorem clearTableValid_schOperand : s.clearTableValid.schOperand = s.schOperand := rfl

/-! ### State.respond -/

@[simp] theorem respond_ie (r : Response) : (s.respond r).ie = s.ie := rfl
@[simp] theorem respond_cmd (r : Response) : (s.respond r).cmd = s.cmd := rfl
@[simp] theorem respond_busy (r : Response) : (s.respond r).busy = s.busy := rfl
@[simp] theorem respond_done (r : Response) : (s.respond r).done = s.done := rfl
@[simp] theorem respond_err (r : Response) : (s.respond r).err = s.err := rfl
@[simp] theorem respond_treeValid (r : Response) : (s.respond r).treeValid = s.treeValid := rfl
@[simp] theorem respond_tableValid (r : Response) : (s.respond r).tableValid = s.tableValid := rfl
@[simp] theorem respond_errInfo (r : Response) : (s.respond r).errInfo = s.errInfo := rfl
@[simp] theorem respond_textLen (r : Response) : (s.respond r).textLen = s.textLen := rfl
@[simp] theorem respond_nFreq (r : Response) : (s.respond r).nFreq = s.nFreq := rfl
@[simp] theorem respond_nNode (r : Response) : (s.respond r).nNode = s.nNode := rfl
@[simp] theorem respond_root (r : Response) : (s.respond r).root = s.root := rfl
@[simp] theorem respond_nCode (r : Response) : (s.respond r).nCode = s.nCode := rfl
@[simp] theorem respond_bitLen (r : Response) : (s.respond r).bitLen = s.bitLen := rfl
@[simp] theorem respond_byteLen (r : Response) : (s.respond r).byteLen = s.byteLen := rfl
@[simp] theorem respond_schLen (r : Response) : (s.respond r).schLen = s.schLen := rfl
@[simp] theorem respond_mem (r : Response) : (s.respond r).mem = s.mem := rfl
@[simp] theorem respond_epoch (r : Response) : (s.respond r).epoch = s.epoch := rfl
@[simp] theorem respond_inputs (r : Response) : (s.respond r).inputs = s.inputs := rfl
@[simp] theorem respond_responses (r : Response) : (s.respond r).responses = r :: s.responses := rfl
@[simp] theorem respond_freqCountAt (r : Response) (i : Nat) : (s.respond r).freqCountAt i = s.freqCountAt i := rfl
@[simp] theorem respond_freqSymAt (r : Response) (i : Nat) : (s.respond r).freqSymAt i = s.freqSymAt i := rfl
@[simp] theorem respond_nodeKindAt (r : Response) (i : Nat) : (s.respond r).nodeKindAt i = s.nodeKindAt i := rfl
@[simp] theorem respond_nodeAAt (r : Response) (i : Nat) : (s.respond r).nodeAAt i = s.nodeAAt i := rfl
@[simp] theorem respond_nodeBAt (r : Response) (i : Nat) : (s.respond r).nodeBAt i = s.nodeBAt i := rfl
@[simp] theorem respond_codeSymAt (r : Response) (i : Nat) : (s.respond r).codeSymAt i = s.codeSymAt i := rfl
@[simp] theorem respond_codeLenAt (r : Response) (i : Nat) : (s.respond r).codeLenAt i = s.codeLenAt i := rfl
@[simp] theorem respond_codeWordAt (r : Response) (i k : Nat) : (s.respond r).codeWordAt i k = s.codeWordAt i k := rfl
@[simp] theorem respond_codeBitAt (r : Response) (i j : Nat) : (s.respond r).codeBitAt i j = s.codeBitAt i j := rfl
@[simp] theorem respond_codeString (r : Response) (i : Nat) : (s.respond r).codeString i = s.codeString i := rfl
@[simp] theorem respond_codeEntry (r : Response) (i : Nat) : (s.respond r).codeEntry i = s.codeEntry i := rfl
@[simp] theorem respond_textAt (r : Response) (i : Nat) : (s.respond r).textAt i = s.textAt i := rfl
@[simp] theorem respond_bitAt (r : Response) (i : Nat) : (s.respond r).bitAt i = s.bitAt i := rfl
@[simp] theorem respond_byteAt (r : Response) (i : Nat) : (s.respond r).byteAt i = s.byteAt i := rfl
@[simp] theorem respond_schAt (r : Response) (i : Nat) : (s.respond r).schAt i = s.schAt i := rfl
@[simp] theorem respond_textOperand (r : Response) : (s.respond r).textOperand = s.textOperand := rfl
@[simp] theorem respond_freqOperand (r : Response) : (s.respond r).freqOperand = s.freqOperand := rfl
@[simp] theorem respond_tableOperand (r : Response) : (s.respond r).tableOperand = s.tableOperand := rfl
@[simp] theorem respond_bitOperand (r : Response) : (s.respond r).bitOperand = s.bitOperand := rfl
@[simp] theorem respond_byteOperand (r : Response) : (s.respond r).byteOperand = s.byteOperand := rfl
@[simp] theorem respond_schOperand (r : Response) : (s.respond r).schOperand = s.schOperand := rfl

/-! ### State.commitValid -/

@[simp] theorem commitValid_ie (u : Unit) : (s.commitValid u).ie = s.ie := rfl
@[simp] theorem commitValid_cmd (u : Unit) : (s.commitValid u).cmd = s.cmd := rfl
@[simp] theorem commitValid_busy (u : Unit) : (s.commitValid u).busy = s.busy := rfl
@[simp] theorem commitValid_done (u : Unit) : (s.commitValid u).done = s.done := rfl
@[simp] theorem commitValid_err (u : Unit) : (s.commitValid u).err = s.err := rfl
@[simp] theorem commitValid_treeValid (u : Unit) : (s.commitValid u).treeValid = s.treeValid := rfl
@[simp] theorem commitValid_tableValid (u : Unit) : (s.commitValid u).tableValid = true := rfl
@[simp] theorem commitValid_errInfo (u : Unit) : (s.commitValid u).errInfo = s.errInfo := rfl
@[simp] theorem commitValid_textLen (u : Unit) : (s.commitValid u).textLen = s.textLen := rfl
@[simp] theorem commitValid_nFreq (u : Unit) : (s.commitValid u).nFreq = s.nFreq := rfl
@[simp] theorem commitValid_nNode (u : Unit) : (s.commitValid u).nNode = s.nNode := rfl
@[simp] theorem commitValid_root (u : Unit) : (s.commitValid u).root = s.root := rfl
@[simp] theorem commitValid_nCode (u : Unit) : (s.commitValid u).nCode = s.nCode := rfl
@[simp] theorem commitValid_bitLen (u : Unit) : (s.commitValid u).bitLen = s.bitLen := rfl
@[simp] theorem commitValid_byteLen (u : Unit) : (s.commitValid u).byteLen = s.byteLen := rfl
@[simp] theorem commitValid_schLen (u : Unit) : (s.commitValid u).schLen = s.schLen := rfl
@[simp] theorem commitValid_mem (u : Unit) : (s.commitValid u).mem = s.mem := rfl
@[simp] theorem commitValid_epoch (u : Unit) : (s.commitValid u).epoch = s.epoch := rfl
@[simp] theorem commitValid_inputs (u : Unit) : (s.commitValid u).inputs = s.inputs := rfl
@[simp] theorem commitValid_responses (u : Unit) : (s.commitValid u).responses = s.responses := rfl
@[simp] theorem commitValid_freqCountAt (u : Unit) (i : Nat) : (s.commitValid u).freqCountAt i = s.freqCountAt i := rfl
@[simp] theorem commitValid_freqSymAt (u : Unit) (i : Nat) : (s.commitValid u).freqSymAt i = s.freqSymAt i := rfl
@[simp] theorem commitValid_nodeKindAt (u : Unit) (i : Nat) : (s.commitValid u).nodeKindAt i = s.nodeKindAt i := rfl
@[simp] theorem commitValid_nodeAAt (u : Unit) (i : Nat) : (s.commitValid u).nodeAAt i = s.nodeAAt i := rfl
@[simp] theorem commitValid_nodeBAt (u : Unit) (i : Nat) : (s.commitValid u).nodeBAt i = s.nodeBAt i := rfl
@[simp] theorem commitValid_codeSymAt (u : Unit) (i : Nat) : (s.commitValid u).codeSymAt i = s.codeSymAt i := rfl
@[simp] theorem commitValid_codeLenAt (u : Unit) (i : Nat) : (s.commitValid u).codeLenAt i = s.codeLenAt i := rfl
@[simp] theorem commitValid_codeWordAt (u : Unit) (i k : Nat) : (s.commitValid u).codeWordAt i k = s.codeWordAt i k := rfl
@[simp] theorem commitValid_codeBitAt (u : Unit) (i j : Nat) : (s.commitValid u).codeBitAt i j = s.codeBitAt i j := rfl
@[simp] theorem commitValid_codeString (u : Unit) (i : Nat) : (s.commitValid u).codeString i = s.codeString i := rfl
@[simp] theorem commitValid_codeEntry (u : Unit) (i : Nat) : (s.commitValid u).codeEntry i = s.codeEntry i := rfl
@[simp] theorem commitValid_textAt (u : Unit) (i : Nat) : (s.commitValid u).textAt i = s.textAt i := rfl
@[simp] theorem commitValid_bitAt (u : Unit) (i : Nat) : (s.commitValid u).bitAt i = s.bitAt i := rfl
@[simp] theorem commitValid_byteAt (u : Unit) (i : Nat) : (s.commitValid u).byteAt i = s.byteAt i := rfl
@[simp] theorem commitValid_schAt (u : Unit) (i : Nat) : (s.commitValid u).schAt i = s.schAt i := rfl
@[simp] theorem commitValid_textOperand (u : Unit) : (s.commitValid u).textOperand = s.textOperand := rfl
@[simp] theorem commitValid_freqOperand (u : Unit) : (s.commitValid u).freqOperand = s.freqOperand := rfl
@[simp] theorem commitValid_tableOperand (u : Unit) : (s.commitValid u).tableOperand = s.tableOperand := rfl
@[simp] theorem commitValid_bitOperand (u : Unit) : (s.commitValid u).bitOperand = s.bitOperand := rfl
@[simp] theorem commitValid_byteOperand (u : Unit) : (s.commitValid u).byteOperand = s.byteOperand := rfl
@[simp] theorem commitValid_schOperand (u : Unit) : (s.commitValid u).schOperand = s.schOperand := rfl

/-! ### State.commitFreq -/

@[simp] theorem commitFreq_ie (l : List (Nat × Word)) : (s.commitFreq l).ie = s.ie := rfl
@[simp] theorem commitFreq_cmd (l : List (Nat × Word)) : (s.commitFreq l).cmd = s.cmd := rfl
@[simp] theorem commitFreq_busy (l : List (Nat × Word)) : (s.commitFreq l).busy = s.busy := rfl
@[simp] theorem commitFreq_done (l : List (Nat × Word)) : (s.commitFreq l).done = s.done := rfl
@[simp] theorem commitFreq_err (l : List (Nat × Word)) : (s.commitFreq l).err = s.err := rfl
@[simp] theorem commitFreq_treeValid (l : List (Nat × Word)) : (s.commitFreq l).treeValid = s.treeValid := rfl
@[simp] theorem commitFreq_tableValid (l : List (Nat × Word)) : (s.commitFreq l).tableValid = s.tableValid := rfl
@[simp] theorem commitFreq_errInfo (l : List (Nat × Word)) : (s.commitFreq l).errInfo = s.errInfo := rfl
@[simp] theorem commitFreq_textLen (l : List (Nat × Word)) : (s.commitFreq l).textLen = s.textLen := rfl
@[simp] theorem commitFreq_nFreq (l : List (Nat × Word)) : (s.commitFreq l).nFreq = word l.length := rfl
@[simp] theorem commitFreq_nNode (l : List (Nat × Word)) : (s.commitFreq l).nNode = s.nNode := rfl
@[simp] theorem commitFreq_root (l : List (Nat × Word)) : (s.commitFreq l).root = s.root := rfl
@[simp] theorem commitFreq_nCode (l : List (Nat × Word)) : (s.commitFreq l).nCode = s.nCode := rfl
@[simp] theorem commitFreq_bitLen (l : List (Nat × Word)) : (s.commitFreq l).bitLen = s.bitLen := rfl
@[simp] theorem commitFreq_byteLen (l : List (Nat × Word)) : (s.commitFreq l).byteLen = s.byteLen := rfl
@[simp] theorem commitFreq_schLen (l : List (Nat × Word)) : (s.commitFreq l).schLen = s.schLen := rfl
@[simp] theorem commitFreq_mem_freqCount (l : List (Nat × Word)) :
    (s.commitFreq l).mem.freqCount = Memory.store 0 (l.map fun e => word e.1) s.mem.freqCount := rfl
@[simp] theorem commitFreq_mem_freqSym (l : List (Nat × Word)) :
    (s.commitFreq l).mem.freqSym = Memory.store 0 (l.map fun e => e.2) s.mem.freqSym := rfl
@[simp] theorem commitFreq_mem_nodeKind (l : List (Nat × Word)) :
    (s.commitFreq l).mem.nodeKind = s.mem.nodeKind := rfl
@[simp] theorem commitFreq_mem_nodeA (l : List (Nat × Word)) :
    (s.commitFreq l).mem.nodeA = s.mem.nodeA := rfl
@[simp] theorem commitFreq_mem_nodeB (l : List (Nat × Word)) :
    (s.commitFreq l).mem.nodeB = s.mem.nodeB := rfl
@[simp] theorem commitFreq_mem_codeSym (l : List (Nat × Word)) :
    (s.commitFreq l).mem.codeSym = s.mem.codeSym := rfl
@[simp] theorem commitFreq_mem_codeLen (l : List (Nat × Word)) :
    (s.commitFreq l).mem.codeLen = s.mem.codeLen := rfl
@[simp] theorem commitFreq_mem_codeBits (l : List (Nat × Word)) :
    (s.commitFreq l).mem.codeBits = s.mem.codeBits := rfl
@[simp] theorem commitFreq_mem_text (l : List (Nat × Word)) :
    (s.commitFreq l).mem.text = s.mem.text := rfl
@[simp] theorem commitFreq_mem_bit (l : List (Nat × Word)) :
    (s.commitFreq l).mem.bit = s.mem.bit := rfl
@[simp] theorem commitFreq_mem_byte (l : List (Nat × Word)) :
    (s.commitFreq l).mem.byte = s.mem.byte := rfl
@[simp] theorem commitFreq_mem_sch (l : List (Nat × Word)) :
    (s.commitFreq l).mem.sch = s.mem.sch := rfl
@[simp] theorem commitFreq_epoch (l : List (Nat × Word)) : (s.commitFreq l).epoch = s.epoch := rfl
@[simp] theorem commitFreq_inputs (l : List (Nat × Word)) : (s.commitFreq l).inputs = s.inputs := rfl
@[simp] theorem commitFreq_responses (l : List (Nat × Word)) : (s.commitFreq l).responses = s.responses := rfl
@[simp] theorem commitFreq_nodeKindAt (l : List (Nat × Word)) (i : Nat) : (s.commitFreq l).nodeKindAt i = s.nodeKindAt i := rfl
@[simp] theorem commitFreq_nodeAAt (l : List (Nat × Word)) (i : Nat) : (s.commitFreq l).nodeAAt i = s.nodeAAt i := rfl
@[simp] theorem commitFreq_nodeBAt (l : List (Nat × Word)) (i : Nat) : (s.commitFreq l).nodeBAt i = s.nodeBAt i := rfl
@[simp] theorem commitFreq_codeSymAt (l : List (Nat × Word)) (i : Nat) : (s.commitFreq l).codeSymAt i = s.codeSymAt i := rfl
@[simp] theorem commitFreq_codeLenAt (l : List (Nat × Word)) (i : Nat) : (s.commitFreq l).codeLenAt i = s.codeLenAt i := rfl
@[simp] theorem commitFreq_codeWordAt (l : List (Nat × Word)) (i k : Nat) : (s.commitFreq l).codeWordAt i k = s.codeWordAt i k := rfl
@[simp] theorem commitFreq_codeBitAt (l : List (Nat × Word)) (i j : Nat) : (s.commitFreq l).codeBitAt i j = s.codeBitAt i j := rfl
@[simp] theorem commitFreq_codeString (l : List (Nat × Word)) (i : Nat) : (s.commitFreq l).codeString i = s.codeString i := rfl
@[simp] theorem commitFreq_codeEntry (l : List (Nat × Word)) (i : Nat) : (s.commitFreq l).codeEntry i = s.codeEntry i := rfl
@[simp] theorem commitFreq_textAt (l : List (Nat × Word)) (i : Nat) : (s.commitFreq l).textAt i = s.textAt i := rfl
@[simp] theorem commitFreq_bitAt (l : List (Nat × Word)) (i : Nat) : (s.commitFreq l).bitAt i = s.bitAt i := rfl
@[simp] theorem commitFreq_byteAt (l : List (Nat × Word)) (i : Nat) : (s.commitFreq l).byteAt i = s.byteAt i := rfl
@[simp] theorem commitFreq_schAt (l : List (Nat × Word)) (i : Nat) : (s.commitFreq l).schAt i = s.schAt i := rfl
@[simp] theorem commitFreq_textOperand (l : List (Nat × Word)) : (s.commitFreq l).textOperand = s.textOperand := rfl
@[simp] theorem commitFreq_tableOperand (l : List (Nat × Word)) : (s.commitFreq l).tableOperand = s.tableOperand := rfl
@[simp] theorem commitFreq_bitOperand (l : List (Nat × Word)) : (s.commitFreq l).bitOperand = s.bitOperand := rfl
@[simp] theorem commitFreq_byteOperand (l : List (Nat × Word)) : (s.commitFreq l).byteOperand = s.byteOperand := rfl
@[simp] theorem commitFreq_schOperand (l : List (Nat × Word)) : (s.commitFreq l).schOperand = s.schOperand := rfl

/-! ### State.commitTree -/

@[simp] theorem commitTree_ie (r : List TreeNode × Nat) : (s.commitTree r).ie = s.ie := rfl
@[simp] theorem commitTree_cmd (r : List TreeNode × Nat) : (s.commitTree r).cmd = s.cmd := rfl
@[simp] theorem commitTree_busy (r : List TreeNode × Nat) : (s.commitTree r).busy = s.busy := rfl
@[simp] theorem commitTree_done (r : List TreeNode × Nat) : (s.commitTree r).done = s.done := rfl
@[simp] theorem commitTree_err (r : List TreeNode × Nat) : (s.commitTree r).err = s.err := rfl
@[simp] theorem commitTree_treeValid (r : List TreeNode × Nat) : (s.commitTree r).treeValid = true := rfl
@[simp] theorem commitTree_tableValid (r : List TreeNode × Nat) : (s.commitTree r).tableValid = s.tableValid := rfl
@[simp] theorem commitTree_errInfo (r : List TreeNode × Nat) : (s.commitTree r).errInfo = s.errInfo := rfl
@[simp] theorem commitTree_textLen (r : List TreeNode × Nat) : (s.commitTree r).textLen = s.textLen := rfl
@[simp] theorem commitTree_nFreq (r : List TreeNode × Nat) : (s.commitTree r).nFreq = s.nFreq := rfl
@[simp] theorem commitTree_nNode (r : List TreeNode × Nat) : (s.commitTree r).nNode = word r.1.length := rfl
@[simp] theorem commitTree_root (r : List TreeNode × Nat) : (s.commitTree r).root = word r.2 := rfl
@[simp] theorem commitTree_nCode (r : List TreeNode × Nat) : (s.commitTree r).nCode = s.nCode := rfl
@[simp] theorem commitTree_bitLen (r : List TreeNode × Nat) : (s.commitTree r).bitLen = s.bitLen := rfl
@[simp] theorem commitTree_byteLen (r : List TreeNode × Nat) : (s.commitTree r).byteLen = s.byteLen := rfl
@[simp] theorem commitTree_schLen (r : List TreeNode × Nat) : (s.commitTree r).schLen = s.schLen := rfl
@[simp] theorem commitTree_mem_freqCount (r : List TreeNode × Nat) :
    (s.commitTree r).mem.freqCount = s.mem.freqCount := rfl
@[simp] theorem commitTree_mem_freqSym (r : List TreeNode × Nat) :
    (s.commitTree r).mem.freqSym = s.mem.freqSym := rfl
@[simp] theorem commitTree_mem_nodeKind (r : List TreeNode × Nat) :
    (s.commitTree r).mem.nodeKind = Memory.store 0 (r.1.map TreeNode.kind) s.mem.nodeKind := rfl
@[simp] theorem commitTree_mem_nodeA (r : List TreeNode × Nat) :
    (s.commitTree r).mem.nodeA = Memory.store 0 (r.1.map TreeNode.a) s.mem.nodeA := rfl
@[simp] theorem commitTree_mem_nodeB (r : List TreeNode × Nat) :
    (s.commitTree r).mem.nodeB = Memory.store 0 (r.1.map TreeNode.b) s.mem.nodeB := rfl
@[simp] theorem commitTree_mem_codeSym (r : List TreeNode × Nat) :
    (s.commitTree r).mem.codeSym = s.mem.codeSym := rfl
@[simp] theorem commitTree_mem_codeLen (r : List TreeNode × Nat) :
    (s.commitTree r).mem.codeLen = s.mem.codeLen := rfl
@[simp] theorem commitTree_mem_codeBits (r : List TreeNode × Nat) :
    (s.commitTree r).mem.codeBits = s.mem.codeBits := rfl
@[simp] theorem commitTree_mem_text (r : List TreeNode × Nat) :
    (s.commitTree r).mem.text = s.mem.text := rfl
@[simp] theorem commitTree_mem_bit (r : List TreeNode × Nat) :
    (s.commitTree r).mem.bit = s.mem.bit := rfl
@[simp] theorem commitTree_mem_byte (r : List TreeNode × Nat) :
    (s.commitTree r).mem.byte = s.mem.byte := rfl
@[simp] theorem commitTree_mem_sch (r : List TreeNode × Nat) :
    (s.commitTree r).mem.sch = s.mem.sch := rfl
@[simp] theorem commitTree_epoch (r : List TreeNode × Nat) : (s.commitTree r).epoch = s.epoch := rfl
@[simp] theorem commitTree_inputs (r : List TreeNode × Nat) : (s.commitTree r).inputs = s.inputs := rfl
@[simp] theorem commitTree_responses (r : List TreeNode × Nat) : (s.commitTree r).responses = s.responses := rfl
@[simp] theorem commitTree_freqCountAt (r : List TreeNode × Nat) (i : Nat) : (s.commitTree r).freqCountAt i = s.freqCountAt i := rfl
@[simp] theorem commitTree_freqSymAt (r : List TreeNode × Nat) (i : Nat) : (s.commitTree r).freqSymAt i = s.freqSymAt i := rfl
@[simp] theorem commitTree_codeSymAt (r : List TreeNode × Nat) (i : Nat) : (s.commitTree r).codeSymAt i = s.codeSymAt i := rfl
@[simp] theorem commitTree_codeLenAt (r : List TreeNode × Nat) (i : Nat) : (s.commitTree r).codeLenAt i = s.codeLenAt i := rfl
@[simp] theorem commitTree_codeWordAt (r : List TreeNode × Nat) (i k : Nat) : (s.commitTree r).codeWordAt i k = s.codeWordAt i k := rfl
@[simp] theorem commitTree_codeBitAt (r : List TreeNode × Nat) (i j : Nat) : (s.commitTree r).codeBitAt i j = s.codeBitAt i j := rfl
@[simp] theorem commitTree_codeString (r : List TreeNode × Nat) (i : Nat) : (s.commitTree r).codeString i = s.codeString i := rfl
@[simp] theorem commitTree_codeEntry (r : List TreeNode × Nat) (i : Nat) : (s.commitTree r).codeEntry i = s.codeEntry i := rfl
@[simp] theorem commitTree_textAt (r : List TreeNode × Nat) (i : Nat) : (s.commitTree r).textAt i = s.textAt i := rfl
@[simp] theorem commitTree_bitAt (r : List TreeNode × Nat) (i : Nat) : (s.commitTree r).bitAt i = s.bitAt i := rfl
@[simp] theorem commitTree_byteAt (r : List TreeNode × Nat) (i : Nat) : (s.commitTree r).byteAt i = s.byteAt i := rfl
@[simp] theorem commitTree_schAt (r : List TreeNode × Nat) (i : Nat) : (s.commitTree r).schAt i = s.schAt i := rfl
@[simp] theorem commitTree_textOperand (r : List TreeNode × Nat) : (s.commitTree r).textOperand = s.textOperand := rfl
@[simp] theorem commitTree_freqOperand (r : List TreeNode × Nat) : (s.commitTree r).freqOperand = s.freqOperand := rfl
@[simp] theorem commitTree_tableOperand (r : List TreeNode × Nat) : (s.commitTree r).tableOperand = s.tableOperand := rfl
@[simp] theorem commitTree_bitOperand (r : List TreeNode × Nat) : (s.commitTree r).bitOperand = s.bitOperand := rfl
@[simp] theorem commitTree_byteOperand (r : List TreeNode × Nat) : (s.commitTree r).byteOperand = s.byteOperand := rfl
@[simp] theorem commitTree_schOperand (r : List TreeNode × Nat) : (s.commitTree r).schOperand = s.schOperand := rfl

/-! ### State.commitTable -/

@[simp] theorem commitTable_ie (t : List (Word × List Bool)) : (s.commitTable t).ie = s.ie := rfl
@[simp] theorem commitTable_cmd (t : List (Word × List Bool)) : (s.commitTable t).cmd = s.cmd := rfl
@[simp] theorem commitTable_busy (t : List (Word × List Bool)) : (s.commitTable t).busy = s.busy := rfl
@[simp] theorem commitTable_done (t : List (Word × List Bool)) : (s.commitTable t).done = s.done := rfl
@[simp] theorem commitTable_err (t : List (Word × List Bool)) : (s.commitTable t).err = s.err := rfl
@[simp] theorem commitTable_treeValid (t : List (Word × List Bool)) : (s.commitTable t).treeValid = s.treeValid := rfl
@[simp] theorem commitTable_tableValid (t : List (Word × List Bool)) : (s.commitTable t).tableValid = true := rfl
@[simp] theorem commitTable_errInfo (t : List (Word × List Bool)) : (s.commitTable t).errInfo = s.errInfo := rfl
@[simp] theorem commitTable_textLen (t : List (Word × List Bool)) : (s.commitTable t).textLen = s.textLen := rfl
@[simp] theorem commitTable_nFreq (t : List (Word × List Bool)) : (s.commitTable t).nFreq = s.nFreq := rfl
@[simp] theorem commitTable_nNode (t : List (Word × List Bool)) : (s.commitTable t).nNode = s.nNode := rfl
@[simp] theorem commitTable_root (t : List (Word × List Bool)) : (s.commitTable t).root = s.root := rfl
@[simp] theorem commitTable_nCode (t : List (Word × List Bool)) : (s.commitTable t).nCode = word t.length := rfl
@[simp] theorem commitTable_bitLen (t : List (Word × List Bool)) : (s.commitTable t).bitLen = s.bitLen := rfl
@[simp] theorem commitTable_byteLen (t : List (Word × List Bool)) : (s.commitTable t).byteLen = s.byteLen := rfl
@[simp] theorem commitTable_schLen (t : List (Word × List Bool)) : (s.commitTable t).schLen = s.schLen := rfl
@[simp] theorem commitTable_mem_freqCount (t : List (Word × List Bool)) :
    (s.commitTable t).mem.freqCount = s.mem.freqCount := rfl
@[simp] theorem commitTable_mem_freqSym (t : List (Word × List Bool)) :
    (s.commitTable t).mem.freqSym = s.mem.freqSym := rfl
@[simp] theorem commitTable_mem_nodeKind (t : List (Word × List Bool)) :
    (s.commitTable t).mem.nodeKind = s.mem.nodeKind := rfl
@[simp] theorem commitTable_mem_nodeA (t : List (Word × List Bool)) :
    (s.commitTable t).mem.nodeA = s.mem.nodeA := rfl
@[simp] theorem commitTable_mem_nodeB (t : List (Word × List Bool)) :
    (s.commitTable t).mem.nodeB = s.mem.nodeB := rfl
@[simp] theorem commitTable_mem_codeSym (t : List (Word × List Bool)) :
    (s.commitTable t).mem.codeSym = Memory.store 0 (t.map fun e => e.1) s.mem.codeSym := rfl
@[simp] theorem commitTable_mem_codeLen (t : List (Word × List Bool)) :
    (s.commitTable t).mem.codeLen = Memory.store 0 (t.map fun e => word e.2.length) s.mem.codeLen := rfl
@[simp] theorem commitTable_mem_codeBits (t : List (Word × List Bool)) :
    (s.commitTable t).mem.codeBits = Memory.store 0 (t.flatMap fun e => slotWords e.2) s.mem.codeBits := rfl
@[simp] theorem commitTable_mem_text (t : List (Word × List Bool)) :
    (s.commitTable t).mem.text = s.mem.text := rfl
@[simp] theorem commitTable_mem_bit (t : List (Word × List Bool)) :
    (s.commitTable t).mem.bit = s.mem.bit := rfl
@[simp] theorem commitTable_mem_byte (t : List (Word × List Bool)) :
    (s.commitTable t).mem.byte = s.mem.byte := rfl
@[simp] theorem commitTable_mem_sch (t : List (Word × List Bool)) :
    (s.commitTable t).mem.sch = s.mem.sch := rfl
@[simp] theorem commitTable_epoch (t : List (Word × List Bool)) : (s.commitTable t).epoch = s.epoch := rfl
@[simp] theorem commitTable_inputs (t : List (Word × List Bool)) : (s.commitTable t).inputs = s.inputs := rfl
@[simp] theorem commitTable_responses (t : List (Word × List Bool)) : (s.commitTable t).responses = s.responses := rfl
@[simp] theorem commitTable_freqCountAt (t : List (Word × List Bool)) (i : Nat) : (s.commitTable t).freqCountAt i = s.freqCountAt i := rfl
@[simp] theorem commitTable_freqSymAt (t : List (Word × List Bool)) (i : Nat) : (s.commitTable t).freqSymAt i = s.freqSymAt i := rfl
@[simp] theorem commitTable_nodeKindAt (t : List (Word × List Bool)) (i : Nat) : (s.commitTable t).nodeKindAt i = s.nodeKindAt i := rfl
@[simp] theorem commitTable_nodeAAt (t : List (Word × List Bool)) (i : Nat) : (s.commitTable t).nodeAAt i = s.nodeAAt i := rfl
@[simp] theorem commitTable_nodeBAt (t : List (Word × List Bool)) (i : Nat) : (s.commitTable t).nodeBAt i = s.nodeBAt i := rfl
@[simp] theorem commitTable_textAt (t : List (Word × List Bool)) (i : Nat) : (s.commitTable t).textAt i = s.textAt i := rfl
@[simp] theorem commitTable_bitAt (t : List (Word × List Bool)) (i : Nat) : (s.commitTable t).bitAt i = s.bitAt i := rfl
@[simp] theorem commitTable_byteAt (t : List (Word × List Bool)) (i : Nat) : (s.commitTable t).byteAt i = s.byteAt i := rfl
@[simp] theorem commitTable_schAt (t : List (Word × List Bool)) (i : Nat) : (s.commitTable t).schAt i = s.schAt i := rfl
@[simp] theorem commitTable_textOperand (t : List (Word × List Bool)) : (s.commitTable t).textOperand = s.textOperand := rfl
@[simp] theorem commitTable_freqOperand (t : List (Word × List Bool)) : (s.commitTable t).freqOperand = s.freqOperand := rfl
@[simp] theorem commitTable_bitOperand (t : List (Word × List Bool)) : (s.commitTable t).bitOperand = s.bitOperand := rfl
@[simp] theorem commitTable_byteOperand (t : List (Word × List Bool)) : (s.commitTable t).byteOperand = s.byteOperand := rfl
@[simp] theorem commitTable_schOperand (t : List (Word × List Bool)) : (s.commitTable t).schOperand = s.schOperand := rfl

/-! ### State.commitBits -/

@[simp] theorem commitBits_ie (b : List Bool) : (s.commitBits b).ie = s.ie := rfl
@[simp] theorem commitBits_cmd (b : List Bool) : (s.commitBits b).cmd = s.cmd := rfl
@[simp] theorem commitBits_busy (b : List Bool) : (s.commitBits b).busy = s.busy := rfl
@[simp] theorem commitBits_done (b : List Bool) : (s.commitBits b).done = s.done := rfl
@[simp] theorem commitBits_err (b : List Bool) : (s.commitBits b).err = s.err := rfl
@[simp] theorem commitBits_treeValid (b : List Bool) : (s.commitBits b).treeValid = s.treeValid := rfl
@[simp] theorem commitBits_tableValid (b : List Bool) : (s.commitBits b).tableValid = s.tableValid := rfl
@[simp] theorem commitBits_errInfo (b : List Bool) : (s.commitBits b).errInfo = s.errInfo := rfl
@[simp] theorem commitBits_textLen (b : List Bool) : (s.commitBits b).textLen = s.textLen := rfl
@[simp] theorem commitBits_nFreq (b : List Bool) : (s.commitBits b).nFreq = s.nFreq := rfl
@[simp] theorem commitBits_nNode (b : List Bool) : (s.commitBits b).nNode = s.nNode := rfl
@[simp] theorem commitBits_root (b : List Bool) : (s.commitBits b).root = s.root := rfl
@[simp] theorem commitBits_nCode (b : List Bool) : (s.commitBits b).nCode = s.nCode := rfl
@[simp] theorem commitBits_bitLen (b : List Bool) : (s.commitBits b).bitLen = word b.length := rfl
@[simp] theorem commitBits_byteLen (b : List Bool) : (s.commitBits b).byteLen = s.byteLen := rfl
@[simp] theorem commitBits_schLen (b : List Bool) : (s.commitBits b).schLen = s.schLen := rfl
@[simp] theorem commitBits_mem_freqCount (b : List Bool) :
    (s.commitBits b).mem.freqCount = s.mem.freqCount := rfl
@[simp] theorem commitBits_mem_freqSym (b : List Bool) :
    (s.commitBits b).mem.freqSym = s.mem.freqSym := rfl
@[simp] theorem commitBits_mem_nodeKind (b : List Bool) :
    (s.commitBits b).mem.nodeKind = s.mem.nodeKind := rfl
@[simp] theorem commitBits_mem_nodeA (b : List Bool) :
    (s.commitBits b).mem.nodeA = s.mem.nodeA := rfl
@[simp] theorem commitBits_mem_nodeB (b : List Bool) :
    (s.commitBits b).mem.nodeB = s.mem.nodeB := rfl
@[simp] theorem commitBits_mem_codeSym (b : List Bool) :
    (s.commitBits b).mem.codeSym = s.mem.codeSym := rfl
@[simp] theorem commitBits_mem_codeLen (b : List Bool) :
    (s.commitBits b).mem.codeLen = s.mem.codeLen := rfl
@[simp] theorem commitBits_mem_codeBits (b : List Bool) :
    (s.commitBits b).mem.codeBits = s.mem.codeBits := rfl
@[simp] theorem commitBits_mem_text (b : List Bool) :
    (s.commitBits b).mem.text = s.mem.text := rfl
@[simp] theorem commitBits_mem_bit (b : List Bool) :
    (s.commitBits b).mem.bit = Memory.store 0 b s.mem.bit := rfl
@[simp] theorem commitBits_mem_byte (b : List Bool) :
    (s.commitBits b).mem.byte = s.mem.byte := rfl
@[simp] theorem commitBits_mem_sch (b : List Bool) :
    (s.commitBits b).mem.sch = s.mem.sch := rfl
@[simp] theorem commitBits_epoch (b : List Bool) : (s.commitBits b).epoch = s.epoch := rfl
@[simp] theorem commitBits_inputs (b : List Bool) : (s.commitBits b).inputs = s.inputs := rfl
@[simp] theorem commitBits_responses (b : List Bool) : (s.commitBits b).responses = s.responses := rfl
@[simp] theorem commitBits_freqCountAt (b : List Bool) (i : Nat) : (s.commitBits b).freqCountAt i = s.freqCountAt i := rfl
@[simp] theorem commitBits_freqSymAt (b : List Bool) (i : Nat) : (s.commitBits b).freqSymAt i = s.freqSymAt i := rfl
@[simp] theorem commitBits_nodeKindAt (b : List Bool) (i : Nat) : (s.commitBits b).nodeKindAt i = s.nodeKindAt i := rfl
@[simp] theorem commitBits_nodeAAt (b : List Bool) (i : Nat) : (s.commitBits b).nodeAAt i = s.nodeAAt i := rfl
@[simp] theorem commitBits_nodeBAt (b : List Bool) (i : Nat) : (s.commitBits b).nodeBAt i = s.nodeBAt i := rfl
@[simp] theorem commitBits_codeSymAt (b : List Bool) (i : Nat) : (s.commitBits b).codeSymAt i = s.codeSymAt i := rfl
@[simp] theorem commitBits_codeLenAt (b : List Bool) (i : Nat) : (s.commitBits b).codeLenAt i = s.codeLenAt i := rfl
@[simp] theorem commitBits_codeWordAt (b : List Bool) (i k : Nat) : (s.commitBits b).codeWordAt i k = s.codeWordAt i k := rfl
@[simp] theorem commitBits_codeBitAt (b : List Bool) (i j : Nat) : (s.commitBits b).codeBitAt i j = s.codeBitAt i j := rfl
@[simp] theorem commitBits_codeString (b : List Bool) (i : Nat) : (s.commitBits b).codeString i = s.codeString i := rfl
@[simp] theorem commitBits_codeEntry (b : List Bool) (i : Nat) : (s.commitBits b).codeEntry i = s.codeEntry i := rfl
@[simp] theorem commitBits_textAt (b : List Bool) (i : Nat) : (s.commitBits b).textAt i = s.textAt i := rfl
@[simp] theorem commitBits_byteAt (b : List Bool) (i : Nat) : (s.commitBits b).byteAt i = s.byteAt i := rfl
@[simp] theorem commitBits_schAt (b : List Bool) (i : Nat) : (s.commitBits b).schAt i = s.schAt i := rfl
@[simp] theorem commitBits_textOperand (b : List Bool) : (s.commitBits b).textOperand = s.textOperand := rfl
@[simp] theorem commitBits_freqOperand (b : List Bool) : (s.commitBits b).freqOperand = s.freqOperand := rfl
@[simp] theorem commitBits_tableOperand (b : List Bool) : (s.commitBits b).tableOperand = s.tableOperand := rfl
@[simp] theorem commitBits_byteOperand (b : List Bool) : (s.commitBits b).byteOperand = s.byteOperand := rfl
@[simp] theorem commitBits_schOperand (b : List Bool) : (s.commitBits b).schOperand = s.schOperand := rfl

/-! ### State.commitText -/

@[simp] theorem commitText_ie (t : List Word) : (s.commitText t).ie = s.ie := rfl
@[simp] theorem commitText_cmd (t : List Word) : (s.commitText t).cmd = s.cmd := rfl
@[simp] theorem commitText_busy (t : List Word) : (s.commitText t).busy = s.busy := rfl
@[simp] theorem commitText_done (t : List Word) : (s.commitText t).done = s.done := rfl
@[simp] theorem commitText_err (t : List Word) : (s.commitText t).err = s.err := rfl
@[simp] theorem commitText_treeValid (t : List Word) : (s.commitText t).treeValid = s.treeValid := rfl
@[simp] theorem commitText_tableValid (t : List Word) : (s.commitText t).tableValid = s.tableValid := rfl
@[simp] theorem commitText_errInfo (t : List Word) : (s.commitText t).errInfo = s.errInfo := rfl
@[simp] theorem commitText_textLen (t : List Word) : (s.commitText t).textLen = word t.length := rfl
@[simp] theorem commitText_nFreq (t : List Word) : (s.commitText t).nFreq = s.nFreq := rfl
@[simp] theorem commitText_nNode (t : List Word) : (s.commitText t).nNode = s.nNode := rfl
@[simp] theorem commitText_root (t : List Word) : (s.commitText t).root = s.root := rfl
@[simp] theorem commitText_nCode (t : List Word) : (s.commitText t).nCode = s.nCode := rfl
@[simp] theorem commitText_bitLen (t : List Word) : (s.commitText t).bitLen = s.bitLen := rfl
@[simp] theorem commitText_byteLen (t : List Word) : (s.commitText t).byteLen = s.byteLen := rfl
@[simp] theorem commitText_schLen (t : List Word) : (s.commitText t).schLen = s.schLen := rfl
@[simp] theorem commitText_mem_freqCount (t : List Word) :
    (s.commitText t).mem.freqCount = s.mem.freqCount := rfl
@[simp] theorem commitText_mem_freqSym (t : List Word) :
    (s.commitText t).mem.freqSym = s.mem.freqSym := rfl
@[simp] theorem commitText_mem_nodeKind (t : List Word) :
    (s.commitText t).mem.nodeKind = s.mem.nodeKind := rfl
@[simp] theorem commitText_mem_nodeA (t : List Word) :
    (s.commitText t).mem.nodeA = s.mem.nodeA := rfl
@[simp] theorem commitText_mem_nodeB (t : List Word) :
    (s.commitText t).mem.nodeB = s.mem.nodeB := rfl
@[simp] theorem commitText_mem_codeSym (t : List Word) :
    (s.commitText t).mem.codeSym = s.mem.codeSym := rfl
@[simp] theorem commitText_mem_codeLen (t : List Word) :
    (s.commitText t).mem.codeLen = s.mem.codeLen := rfl
@[simp] theorem commitText_mem_codeBits (t : List Word) :
    (s.commitText t).mem.codeBits = s.mem.codeBits := rfl
@[simp] theorem commitText_mem_text (t : List Word) :
    (s.commitText t).mem.text = Memory.store 0 t s.mem.text := rfl
@[simp] theorem commitText_mem_bit (t : List Word) :
    (s.commitText t).mem.bit = s.mem.bit := rfl
@[simp] theorem commitText_mem_byte (t : List Word) :
    (s.commitText t).mem.byte = s.mem.byte := rfl
@[simp] theorem commitText_mem_sch (t : List Word) :
    (s.commitText t).mem.sch = s.mem.sch := rfl
@[simp] theorem commitText_epoch (t : List Word) : (s.commitText t).epoch = s.epoch := rfl
@[simp] theorem commitText_inputs (t : List Word) : (s.commitText t).inputs = s.inputs := rfl
@[simp] theorem commitText_responses (t : List Word) : (s.commitText t).responses = s.responses := rfl
@[simp] theorem commitText_freqCountAt (t : List Word) (i : Nat) : (s.commitText t).freqCountAt i = s.freqCountAt i := rfl
@[simp] theorem commitText_freqSymAt (t : List Word) (i : Nat) : (s.commitText t).freqSymAt i = s.freqSymAt i := rfl
@[simp] theorem commitText_nodeKindAt (t : List Word) (i : Nat) : (s.commitText t).nodeKindAt i = s.nodeKindAt i := rfl
@[simp] theorem commitText_nodeAAt (t : List Word) (i : Nat) : (s.commitText t).nodeAAt i = s.nodeAAt i := rfl
@[simp] theorem commitText_nodeBAt (t : List Word) (i : Nat) : (s.commitText t).nodeBAt i = s.nodeBAt i := rfl
@[simp] theorem commitText_codeSymAt (t : List Word) (i : Nat) : (s.commitText t).codeSymAt i = s.codeSymAt i := rfl
@[simp] theorem commitText_codeLenAt (t : List Word) (i : Nat) : (s.commitText t).codeLenAt i = s.codeLenAt i := rfl
@[simp] theorem commitText_codeWordAt (t : List Word) (i k : Nat) : (s.commitText t).codeWordAt i k = s.codeWordAt i k := rfl
@[simp] theorem commitText_codeBitAt (t : List Word) (i j : Nat) : (s.commitText t).codeBitAt i j = s.codeBitAt i j := rfl
@[simp] theorem commitText_codeString (t : List Word) (i : Nat) : (s.commitText t).codeString i = s.codeString i := rfl
@[simp] theorem commitText_codeEntry (t : List Word) (i : Nat) : (s.commitText t).codeEntry i = s.codeEntry i := rfl
@[simp] theorem commitText_bitAt (t : List Word) (i : Nat) : (s.commitText t).bitAt i = s.bitAt i := rfl
@[simp] theorem commitText_byteAt (t : List Word) (i : Nat) : (s.commitText t).byteAt i = s.byteAt i := rfl
@[simp] theorem commitText_schAt (t : List Word) (i : Nat) : (s.commitText t).schAt i = s.schAt i := rfl
@[simp] theorem commitText_freqOperand (t : List Word) : (s.commitText t).freqOperand = s.freqOperand := rfl
@[simp] theorem commitText_tableOperand (t : List Word) : (s.commitText t).tableOperand = s.tableOperand := rfl
@[simp] theorem commitText_bitOperand (t : List Word) : (s.commitText t).bitOperand = s.bitOperand := rfl
@[simp] theorem commitText_byteOperand (t : List Word) : (s.commitText t).byteOperand = s.byteOperand := rfl
@[simp] theorem commitText_schOperand (t : List Word) : (s.commitText t).schOperand = s.schOperand := rfl

/-! ### State.commitScheme -/

@[simp] theorem commitScheme_ie (c : List Byte) : (s.commitScheme c).ie = s.ie := rfl
@[simp] theorem commitScheme_cmd (c : List Byte) : (s.commitScheme c).cmd = s.cmd := rfl
@[simp] theorem commitScheme_busy (c : List Byte) : (s.commitScheme c).busy = s.busy := rfl
@[simp] theorem commitScheme_done (c : List Byte) : (s.commitScheme c).done = s.done := rfl
@[simp] theorem commitScheme_err (c : List Byte) : (s.commitScheme c).err = s.err := rfl
@[simp] theorem commitScheme_treeValid (c : List Byte) : (s.commitScheme c).treeValid = s.treeValid := rfl
@[simp] theorem commitScheme_tableValid (c : List Byte) : (s.commitScheme c).tableValid = s.tableValid := rfl
@[simp] theorem commitScheme_errInfo (c : List Byte) : (s.commitScheme c).errInfo = s.errInfo := rfl
@[simp] theorem commitScheme_textLen (c : List Byte) : (s.commitScheme c).textLen = s.textLen := rfl
@[simp] theorem commitScheme_nFreq (c : List Byte) : (s.commitScheme c).nFreq = s.nFreq := rfl
@[simp] theorem commitScheme_nNode (c : List Byte) : (s.commitScheme c).nNode = s.nNode := rfl
@[simp] theorem commitScheme_root (c : List Byte) : (s.commitScheme c).root = s.root := rfl
@[simp] theorem commitScheme_nCode (c : List Byte) : (s.commitScheme c).nCode = s.nCode := rfl
@[simp] theorem commitScheme_bitLen (c : List Byte) : (s.commitScheme c).bitLen = s.bitLen := rfl
@[simp] theorem commitScheme_byteLen (c : List Byte) : (s.commitScheme c).byteLen = s.byteLen := rfl
@[simp] theorem commitScheme_schLen (c : List Byte) : (s.commitScheme c).schLen = word c.length := rfl
@[simp] theorem commitScheme_mem_freqCount (c : List Byte) :
    (s.commitScheme c).mem.freqCount = s.mem.freqCount := rfl
@[simp] theorem commitScheme_mem_freqSym (c : List Byte) :
    (s.commitScheme c).mem.freqSym = s.mem.freqSym := rfl
@[simp] theorem commitScheme_mem_nodeKind (c : List Byte) :
    (s.commitScheme c).mem.nodeKind = s.mem.nodeKind := rfl
@[simp] theorem commitScheme_mem_nodeA (c : List Byte) :
    (s.commitScheme c).mem.nodeA = s.mem.nodeA := rfl
@[simp] theorem commitScheme_mem_nodeB (c : List Byte) :
    (s.commitScheme c).mem.nodeB = s.mem.nodeB := rfl
@[simp] theorem commitScheme_mem_codeSym (c : List Byte) :
    (s.commitScheme c).mem.codeSym = s.mem.codeSym := rfl
@[simp] theorem commitScheme_mem_codeLen (c : List Byte) :
    (s.commitScheme c).mem.codeLen = s.mem.codeLen := rfl
@[simp] theorem commitScheme_mem_codeBits (c : List Byte) :
    (s.commitScheme c).mem.codeBits = s.mem.codeBits := rfl
@[simp] theorem commitScheme_mem_text (c : List Byte) :
    (s.commitScheme c).mem.text = s.mem.text := rfl
@[simp] theorem commitScheme_mem_bit (c : List Byte) :
    (s.commitScheme c).mem.bit = s.mem.bit := rfl
@[simp] theorem commitScheme_mem_byte (c : List Byte) :
    (s.commitScheme c).mem.byte = s.mem.byte := rfl
@[simp] theorem commitScheme_mem_sch (c : List Byte) :
    (s.commitScheme c).mem.sch = Memory.store 0 c s.mem.sch := rfl
@[simp] theorem commitScheme_epoch (c : List Byte) : (s.commitScheme c).epoch = s.epoch := rfl
@[simp] theorem commitScheme_inputs (c : List Byte) : (s.commitScheme c).inputs = s.inputs := rfl
@[simp] theorem commitScheme_responses (c : List Byte) : (s.commitScheme c).responses = s.responses := rfl
@[simp] theorem commitScheme_freqCountAt (c : List Byte) (i : Nat) : (s.commitScheme c).freqCountAt i = s.freqCountAt i := rfl
@[simp] theorem commitScheme_freqSymAt (c : List Byte) (i : Nat) : (s.commitScheme c).freqSymAt i = s.freqSymAt i := rfl
@[simp] theorem commitScheme_nodeKindAt (c : List Byte) (i : Nat) : (s.commitScheme c).nodeKindAt i = s.nodeKindAt i := rfl
@[simp] theorem commitScheme_nodeAAt (c : List Byte) (i : Nat) : (s.commitScheme c).nodeAAt i = s.nodeAAt i := rfl
@[simp] theorem commitScheme_nodeBAt (c : List Byte) (i : Nat) : (s.commitScheme c).nodeBAt i = s.nodeBAt i := rfl
@[simp] theorem commitScheme_codeSymAt (c : List Byte) (i : Nat) : (s.commitScheme c).codeSymAt i = s.codeSymAt i := rfl
@[simp] theorem commitScheme_codeLenAt (c : List Byte) (i : Nat) : (s.commitScheme c).codeLenAt i = s.codeLenAt i := rfl
@[simp] theorem commitScheme_codeWordAt (c : List Byte) (i k : Nat) : (s.commitScheme c).codeWordAt i k = s.codeWordAt i k := rfl
@[simp] theorem commitScheme_codeBitAt (c : List Byte) (i j : Nat) : (s.commitScheme c).codeBitAt i j = s.codeBitAt i j := rfl
@[simp] theorem commitScheme_codeString (c : List Byte) (i : Nat) : (s.commitScheme c).codeString i = s.codeString i := rfl
@[simp] theorem commitScheme_codeEntry (c : List Byte) (i : Nat) : (s.commitScheme c).codeEntry i = s.codeEntry i := rfl
@[simp] theorem commitScheme_textAt (c : List Byte) (i : Nat) : (s.commitScheme c).textAt i = s.textAt i := rfl
@[simp] theorem commitScheme_bitAt (c : List Byte) (i : Nat) : (s.commitScheme c).bitAt i = s.bitAt i := rfl
@[simp] theorem commitScheme_byteAt (c : List Byte) (i : Nat) : (s.commitScheme c).byteAt i = s.byteAt i := rfl
@[simp] theorem commitScheme_textOperand (c : List Byte) : (s.commitScheme c).textOperand = s.textOperand := rfl
@[simp] theorem commitScheme_freqOperand (c : List Byte) : (s.commitScheme c).freqOperand = s.freqOperand := rfl
@[simp] theorem commitScheme_tableOperand (c : List Byte) : (s.commitScheme c).tableOperand = s.tableOperand := rfl
@[simp] theorem commitScheme_bitOperand (c : List Byte) : (s.commitScheme c).bitOperand = s.bitOperand := rfl
@[simp] theorem commitScheme_byteOperand (c : List Byte) : (s.commitScheme c).byteOperand = s.byteOperand := rfl

/-! ### State.commitBytes -/

@[simp] theorem commitBytes_ie (y : List Byte) : (s.commitBytes y).ie = s.ie := rfl
@[simp] theorem commitBytes_cmd (y : List Byte) : (s.commitBytes y).cmd = s.cmd := rfl
@[simp] theorem commitBytes_busy (y : List Byte) : (s.commitBytes y).busy = s.busy := rfl
@[simp] theorem commitBytes_done (y : List Byte) : (s.commitBytes y).done = s.done := rfl
@[simp] theorem commitBytes_err (y : List Byte) : (s.commitBytes y).err = s.err := rfl
@[simp] theorem commitBytes_treeValid (y : List Byte) : (s.commitBytes y).treeValid = s.treeValid := rfl
@[simp] theorem commitBytes_tableValid (y : List Byte) : (s.commitBytes y).tableValid = s.tableValid := rfl
@[simp] theorem commitBytes_errInfo (y : List Byte) : (s.commitBytes y).errInfo = s.errInfo := rfl
@[simp] theorem commitBytes_textLen (y : List Byte) : (s.commitBytes y).textLen = s.textLen := rfl
@[simp] theorem commitBytes_nFreq (y : List Byte) : (s.commitBytes y).nFreq = s.nFreq := rfl
@[simp] theorem commitBytes_nNode (y : List Byte) : (s.commitBytes y).nNode = s.nNode := rfl
@[simp] theorem commitBytes_root (y : List Byte) : (s.commitBytes y).root = s.root := rfl
@[simp] theorem commitBytes_nCode (y : List Byte) : (s.commitBytes y).nCode = s.nCode := rfl
@[simp] theorem commitBytes_bitLen (y : List Byte) : (s.commitBytes y).bitLen = s.bitLen := rfl
@[simp] theorem commitBytes_byteLen (y : List Byte) : (s.commitBytes y).byteLen = word y.length := rfl
@[simp] theorem commitBytes_schLen (y : List Byte) : (s.commitBytes y).schLen = s.schLen := rfl
@[simp] theorem commitBytes_mem_freqCount (y : List Byte) :
    (s.commitBytes y).mem.freqCount = s.mem.freqCount := rfl
@[simp] theorem commitBytes_mem_freqSym (y : List Byte) :
    (s.commitBytes y).mem.freqSym = s.mem.freqSym := rfl
@[simp] theorem commitBytes_mem_nodeKind (y : List Byte) :
    (s.commitBytes y).mem.nodeKind = s.mem.nodeKind := rfl
@[simp] theorem commitBytes_mem_nodeA (y : List Byte) :
    (s.commitBytes y).mem.nodeA = s.mem.nodeA := rfl
@[simp] theorem commitBytes_mem_nodeB (y : List Byte) :
    (s.commitBytes y).mem.nodeB = s.mem.nodeB := rfl
@[simp] theorem commitBytes_mem_codeSym (y : List Byte) :
    (s.commitBytes y).mem.codeSym = s.mem.codeSym := rfl
@[simp] theorem commitBytes_mem_codeLen (y : List Byte) :
    (s.commitBytes y).mem.codeLen = s.mem.codeLen := rfl
@[simp] theorem commitBytes_mem_codeBits (y : List Byte) :
    (s.commitBytes y).mem.codeBits = s.mem.codeBits := rfl
@[simp] theorem commitBytes_mem_text (y : List Byte) :
    (s.commitBytes y).mem.text = s.mem.text := rfl
@[simp] theorem commitBytes_mem_bit (y : List Byte) :
    (s.commitBytes y).mem.bit = s.mem.bit := rfl
@[simp] theorem commitBytes_mem_byte (y : List Byte) :
    (s.commitBytes y).mem.byte = Memory.store 0 y s.mem.byte := rfl
@[simp] theorem commitBytes_mem_sch (y : List Byte) :
    (s.commitBytes y).mem.sch = s.mem.sch := rfl
@[simp] theorem commitBytes_epoch (y : List Byte) : (s.commitBytes y).epoch = s.epoch := rfl
@[simp] theorem commitBytes_inputs (y : List Byte) : (s.commitBytes y).inputs = s.inputs := rfl
@[simp] theorem commitBytes_responses (y : List Byte) : (s.commitBytes y).responses = s.responses := rfl
@[simp] theorem commitBytes_freqCountAt (y : List Byte) (i : Nat) : (s.commitBytes y).freqCountAt i = s.freqCountAt i := rfl
@[simp] theorem commitBytes_freqSymAt (y : List Byte) (i : Nat) : (s.commitBytes y).freqSymAt i = s.freqSymAt i := rfl
@[simp] theorem commitBytes_nodeKindAt (y : List Byte) (i : Nat) : (s.commitBytes y).nodeKindAt i = s.nodeKindAt i := rfl
@[simp] theorem commitBytes_nodeAAt (y : List Byte) (i : Nat) : (s.commitBytes y).nodeAAt i = s.nodeAAt i := rfl
@[simp] theorem commitBytes_nodeBAt (y : List Byte) (i : Nat) : (s.commitBytes y).nodeBAt i = s.nodeBAt i := rfl
@[simp] theorem commitBytes_codeSymAt (y : List Byte) (i : Nat) : (s.commitBytes y).codeSymAt i = s.codeSymAt i := rfl
@[simp] theorem commitBytes_codeLenAt (y : List Byte) (i : Nat) : (s.commitBytes y).codeLenAt i = s.codeLenAt i := rfl
@[simp] theorem commitBytes_codeWordAt (y : List Byte) (i k : Nat) : (s.commitBytes y).codeWordAt i k = s.codeWordAt i k := rfl
@[simp] theorem commitBytes_codeBitAt (y : List Byte) (i j : Nat) : (s.commitBytes y).codeBitAt i j = s.codeBitAt i j := rfl
@[simp] theorem commitBytes_codeString (y : List Byte) (i : Nat) : (s.commitBytes y).codeString i = s.codeString i := rfl
@[simp] theorem commitBytes_codeEntry (y : List Byte) (i : Nat) : (s.commitBytes y).codeEntry i = s.codeEntry i := rfl
@[simp] theorem commitBytes_textAt (y : List Byte) (i : Nat) : (s.commitBytes y).textAt i = s.textAt i := rfl
@[simp] theorem commitBytes_bitAt (y : List Byte) (i : Nat) : (s.commitBytes y).bitAt i = s.bitAt i := rfl
@[simp] theorem commitBytes_schAt (y : List Byte) (i : Nat) : (s.commitBytes y).schAt i = s.schAt i := rfl
@[simp] theorem commitBytes_textOperand (y : List Byte) : (s.commitBytes y).textOperand = s.textOperand := rfl
@[simp] theorem commitBytes_freqOperand (y : List Byte) : (s.commitBytes y).freqOperand = s.freqOperand := rfl
@[simp] theorem commitBytes_tableOperand (y : List Byte) : (s.commitBytes y).tableOperand = s.tableOperand := rfl
@[simp] theorem commitBytes_bitOperand (y : List Byte) : (s.commitBytes y).bitOperand = s.bitOperand := rfl
@[simp] theorem commitBytes_schOperand (y : List Byte) : (s.commitBytes y).schOperand = s.schOperand := rfl

end Sys2Proof.Laws
end

