-- ==== Sys2Proof/Laws/Operands.lean ====
section
/-! SUPPORT. The whole operands as lists, and what the element accessors give after a commit. -/

namespace Sys2Proof.Laws

open Sys2Proof.Machine

/-! ### Operands as lists -/

section FirstOf

variable {α β : Type}

@[simp] theorem firstOf_length (n : Nat) (f : Nat → α) : (firstOf n f).length = n := by simp [firstOf]

@[simp] theorem firstOf_getElem? (n : Nat) (f : Nat → α) (i : Nat) :
    (firstOf n f)[i]? = if i < n then some (f i) else none := by
  by_cases h : i < n <;> simp [firstOf, h]

@[simp] theorem firstOf_getElem (n : Nat) (f : Nat → α) (i : Nat) (h : i < (firstOf n f).length) :
    (firstOf n f)[i] = f i := by simp [firstOf]

theorem mem_firstOf {n : Nat} {f : Nat → α} {a : α} : a ∈ firstOf n f ↔ ∃ i, i < n ∧ f i = a := by
  simp [firstOf]

theorem firstOf_map (n : Nat) (f : Nat → α) (g : α → β) : (firstOf n f).map g = firstOf n fun i => g (f i) := by
  simp [firstOf, Function.comp_def]

theorem firstOf_succ (n : Nat) (f : Nat → α) : firstOf (n + 1) f = firstOf n f ++ [f n] := by
  simp [firstOf, List.range_succ]

theorem firstOf_take (k n : Nat) (f : Nat → α) : (firstOf n f).take k = firstOf (min k n) f := by
  apply List.ext_getElem?
  intro i
  by_cases hk : i < k <;> by_cases hn : i < n <;> simp [hk, hn]

/-- Operands that agree element by element are equal. -/
theorem firstOf_congr {n : Nat} {f g : Nat → α} (h : ∀ i, i < n → f i = g i) : firstOf n f = firstOf n g :=
  List.map_congr_left fun i hi => h i (List.mem_range.mp hi)

/-- A list is the operand its elements give. -/
theorem eq_firstOf {l : List α} {f : Nat → α} (h : ∀ i (hi : i < l.length), f i = l[i]) : firstOf l.length f = l :=
  List.ext_getElem (by simp) fun i h1 h2 => by simp [h i h2]

end FirstOf

theorem word_toNat {n : Nat} (h : n < 2 ^ 32) : (word n).toNat = n := by
  rw [word, BitVec.toNat_ofNat, Nat.mod_eq_of_lt h]

/-! ### Elements after a commit -/

variable (s : State)

theorem commitFreq_freqCountAt (l : List (Nat × Word)) (i : Nat) :
    (s.commitFreq l).freqCountAt i = if h : i < l.length then word (l[i]'h).1 else s.freqCountAt i := by
  by_cases h : i < l.length <;> simp [State.freqCountAt, read_store, h]

theorem commitFreq_freqSymAt (l : List (Nat × Word)) (i : Nat) :
    (s.commitFreq l).freqSymAt i = if h : i < l.length then (l[i]'h).2 else s.freqSymAt i := by
  by_cases h : i < l.length <;> simp [State.freqSymAt, read_store, h]

theorem commitTree_nodeKindAt (r : List TreeNode × Nat) (i : Nat) :
    (s.commitTree r).nodeKindAt i = if h : i < r.1.length then (r.1[i]'h).kind else s.nodeKindAt i := by
  by_cases h : i < r.1.length <;> simp [State.nodeKindAt, read_store, h]

theorem commitTree_nodeAAt (r : List TreeNode × Nat) (i : Nat) :
    (s.commitTree r).nodeAAt i = if h : i < r.1.length then (r.1[i]'h).a else s.nodeAAt i := by
  by_cases h : i < r.1.length <;> simp [State.nodeAAt, read_store, h]

theorem commitTree_nodeBAt (r : List TreeNode × Nat) (i : Nat) :
    (s.commitTree r).nodeBAt i = if h : i < r.1.length then (r.1[i]'h).b else s.nodeBAt i := by
  by_cases h : i < r.1.length <;> simp [State.nodeBAt, read_store, h]

theorem commitTable_codeSymAt (t : List (Word × List Bool)) (i : Nat) :
    (s.commitTable t).codeSymAt i = if h : i < t.length then (t[i]'h).1 else s.codeSymAt i := by
  by_cases h : i < t.length <;> simp [State.codeSymAt, read_store, h]

theorem commitTable_codeLenAt (t : List (Word × List Bool)) (i : Nat) :
    (s.commitTable t).codeLenAt i = if h : i < t.length then word (t[i]'h).2.length else s.codeLenAt i := by
  by_cases h : i < t.length <;> simp [State.codeLenAt, read_store, h]

theorem commitBits_bitAt (b : List Bool) (i : Nat) :
    (s.commitBits b).bitAt i = if h : i < b.length then b[i] else s.bitAt i := by
  by_cases h : i < b.length <;> simp [State.bitAt, read_store, h]

theorem commitText_textAt (t : List Word) (i : Nat) :
    (s.commitText t).textAt i = if h : i < t.length then t[i] else s.textAt i := by
  by_cases h : i < t.length <;> simp [State.textAt, read_store, h]

theorem commitScheme_schAt (cs : List Byte) (i : Nat) :
    (s.commitScheme cs).schAt i = if h : i < cs.length then cs[i] else s.schAt i := by
  by_cases h : i < cs.length <;> simp [State.schAt, read_store, h]

theorem commitBytes_byteAt (y : List Byte) (i : Nat) :
    (s.commitBytes y).byteAt i = if h : i < y.length then y[i] else s.byteAt i := by
  by_cases h : i < y.length <;> simp [State.byteAt, read_store, h]

/-! ### Whole operands after a commit -/

theorem commitBits_bitOperand {b : List Bool} (h : b.length < 2 ^ 32) : (s.commitBits b).bitOperand = b := by
  rw [State.bitOperand, commitBits_bitLen, word_toNat h]
  exact eq_firstOf fun i hi => by simp [commitBits_bitAt, hi]

theorem commitText_textOperand {t : List Word} (h : t.length < 2 ^ 32) : (s.commitText t).textOperand = t := by
  rw [State.textOperand, commitText_textLen, word_toNat h]
  exact eq_firstOf fun i hi => by simp [commitText_textAt, hi]

theorem commitScheme_schOperand {cs : List Byte} (h : cs.length < 2 ^ 32) : (s.commitScheme cs).schOperand = cs := by
  rw [State.schOperand, commitScheme_schLen, word_toNat h]
  exact eq_firstOf fun i hi => by simp [commitScheme_schAt, hi]

theorem commitBytes_byteOperand {y : List Byte} (h : y.length < 2 ^ 32) : (s.commitBytes y).byteOperand = y := by
  rw [State.byteOperand, commitBytes_byteLen, word_toNat h]
  exact eq_firstOf fun i hi => by simp [commitBytes_byteAt, hi]

theorem commitFreq_freqOperand {l : List (Nat × Word)} (h : l.length < 2 ^ 32) :
    (s.commitFreq l).freqOperand = l.map fun e => (word e.1, e.2) := by
  rw [State.freqOperand, commitFreq_nFreq, word_toNat h]
  have := eq_firstOf (l := l.map fun e => (word e.1, e.2))
    (f := fun i => ((s.commitFreq l).freqCountAt i, (s.commitFreq l).freqSymAt i)) fun i hi => by
      have hi' : i < l.length := by simpa using hi
      simp [commitFreq_freqCountAt, commitFreq_freqSymAt, hi']
  simpa using this

end Sys2Proof.Laws
end

