-- ==== Sys2Proof/Laws/Bits.lean ====
section
/-! SUPPORT. Bit-strings in words and bytes, and the code table after a commit of it. -/

namespace Sys2Proof.Laws

open Sys2Proof.Machine

/-! ### Slots of a word -/

theorem slotsValue_lt (bs : List Bool) : slotsValue bs < 2 ^ bs.length := by
  induction bs with
  | nil => simp [slotsValue]
  | cons b bs ih =>
    have : b.toNat ≤ 1 := Bool.toNat_le b
    simp only [slotsValue, List.length_cons, Nat.pow_succ]
    omega

theorem slotsValue_testBit (bs : List Bool) (j : Nat) : (slotsValue bs).testBit j = bs.getD j false := by
  induction bs generalizing j with
  | nil => simp [slotsValue]
  | cons b bs ih =>
    cases j with
    | zero =>
      have : (b.toNat + 2 * slotsValue bs) % 2 = b.toNat := by
        have : b.toNat ≤ 1 := Bool.toNat_le b
        omega
      cases b <;> simp [slotsValue, Nat.testBit_zero] at this ⊢
    | succ j =>
      have : (b.toNat + 2 * slotsValue bs) / 2 = slotsValue bs := by
        have : b.toNat ≤ 1 := Bool.toNat_le b
        omega
      simp [slotsValue, Nat.testBit_succ, this, ih]

/-- The bits of a host word of slots (20_memory.md R44). -/
@[simp] theorem wordOfSlots_getLsbD (f : Nat → Bool) (j : Nat) :
    (wordOfSlots f).getLsbD j = (decide (j < 32) && f j) := by
  rw [wordOfSlots, BitVec.getLsbD_ofNat, slotsValue_testBit]
  by_cases h : j < 32 <;> simp [h]

@[simp] theorem slotWords_length (b : List Bool) : (slotWords b).length = 8 := by simp [slotWords]

theorem slotWords_getElem (b : List Bool) (k : Nat) (h : k < (slotWords b).length) :
    (slotWords b)[k] = wordOfSlots fun j => b.getD (32 * k + j) false := by simp [slotWords]

/-- Indexing a concatenation of lists of one length. -/
theorem flatMap_getElem? {α β : Type} (n : Nat) (f : α → List β) (hf : ∀ a, (f a).length = n) (l : List α)
    (i k : Nat) (hk : k < n) : (l.flatMap f)[n * i + k]? = (l[i]?).bind fun a => (f a)[k]? := by
  induction l generalizing i with
  | nil => simp
  | cons a l ih =>
    rw [List.flatMap_cons]
    cases i with
    | zero => rw [List.getElem?_append_left (by rw [hf]; omega)]; simp
    | succ i =>
      rw [List.getElem?_append_right (by rw [hf, Nat.mul_succ]; omega), hf, List.getElem?_cons_succ, ← ih]
      congr 1
      rw [Nat.mul_succ]; omega

/-! ### The code table after a commit -/

variable (s : State)

theorem flatMap_slotWords_length (t : List (Word × List Bool)) :
    (t.flatMap fun e => slotWords e.2).length = 8 * t.length := by
  induction t with
  | nil => rfl
  | cons e t ih => simp only [List.flatMap_cons, List.length_append, slotWords_length, ih, List.length_cons]; omega

theorem commitTable_codeWordAt (t : List (Word × List Bool)) (i : Nat) {k : Nat} (hk : k < 8) :
    (s.commitTable t).codeWordAt i k =
      if h : i < t.length then wordOfSlots fun j => (t[i]'h).2.getD (32 * k + j) false else s.codeWordAt i k := by
  unfold State.codeWordAt
  rw [commitTable_mem_codeBits, commitTable_epoch, read_store, flatMap_slotWords_length]
  by_cases h : i < t.length
  · rw [if_pos ⟨Nat.zero_le _, by show 8 * i + k < 0 + 8 * t.length; omega⟩, dif_pos h, Nat.sub_zero]
    have := flatMap_getElem? 8 (fun e : Word × List Bool => slotWords e.2) (fun e => slotWords_length e.2) t i k hk
    rw [this, List.getElem?_eq_getElem h]
    simp [slotWords_getElem, hk]
  · rw [if_neg (by show ¬(0 ≤ 8 * i + k ∧ 8 * i + k < 0 + 8 * t.length); omega), dif_neg h]

theorem commitTable_codeBitAt (t : List (Word × List Bool)) (i : Nat) {j : Nat} (hj : j < 256) :
    (s.commitTable t).codeBitAt i j =
      if h : i < t.length then (t[i]'h).2.getD j false else s.codeBitAt i j := by
  unfold State.codeBitAt
  rw [commitTable_codeWordAt s t i (show j / 32 < 8 by omega)]
  by_cases h : i < t.length
  · have : 32 * (j / 32) + j % 32 = j := by omega
    rw [dif_pos h, dif_pos h, wordOfSlots_getLsbD, this]
    simp [Nat.mod_lt]
  · simp [h]

theorem commitTable_codeString {t : List (Word × List Bool)} {i : Nat} (h : i < t.length)
    (hl : t[i].2.length ≤ 256) : (s.commitTable t).codeString i = t[i].2 := by
  rw [State.codeString, commitTable_codeLenAt, dif_pos h, word_toNat (by omega)]
  exact eq_firstOf fun j hj => by
    rw [commitTable_codeBitAt s t i (show j < 256 by omega), dif_pos h]
    simp [hj]

theorem commitTable_tableOperand {t : List (Word × List Bool)} (h : t.length < 2 ^ 32)
    (hl : ∀ e ∈ t, e.2.length ≤ 256) : (s.commitTable t).tableOperand = t := by
  rw [State.tableOperand, commitTable_nCode, word_toNat h]
  exact eq_firstOf fun i hi => by
    rw [State.codeEntry, commitTable_codeString s hi (hl _ (List.getElem_mem hi)), commitTable_codeSymAt, dif_pos hi]

/-! ### Numerals of bytes -/

theorem numeral_lt (bs : List Bool) : numeral bs < 2 ^ bs.length := by
  induction bs with
  | nil => simp [numeral]
  | cons b bs ih => cases b <;> simp [numeral, Nat.pow_succ] <;> omega

theorem byteOfGroup_toNat {bs : List Bool} (h : bs.length = 8) : (byteOfGroup bs).toNat = numeral bs := by
  have := numeral_lt bs
  rw [h] at this
  rw [byteOfGroup, BitVec.toNat_ofNat, Nat.mod_eq_of_lt this]

@[simp] theorem bitsOfByte_length (v : Byte) : (bitsOfByte v).length = 8 := by simp [bitsOfByte]

/-- The byte of eight bits expands to those bits (44_bitpack.md R124, R125). -/
theorem bitsOfByte_byteOfGroup {bs : List Bool} (h : bs.length = 8) : bitsOfByte (byteOfGroup bs) = bs := by
  match bs, h with
  | [a, b, c, d, e, f, g, x], _ => revert a b c d e f g x; decide

/-- The bits of a byte make that byte (44_bitpack.md R124, R125). -/
theorem byteOfGroup_bitsOfByte (v : Byte) : byteOfGroup (bitsOfByte v) = v := by
  revert v; decide +kernel

end Sys2Proof.Laws
end

