-- ==== Sys2Proof/Laws/Commands.lean ====
section
/-! SUPPORT. What a command can do: how its completion ends, which errors its semantics can report, how large its
output can be. One lemma per shared operation and per outcome; later proofs cite these and unfold none of them. -/

namespace Sys2Proof.Laws

open Sys2Proof.Machine

/-! ### Completion -/

/-- All that a completion can be (30_encoding.md R66). -/
theorem completeWith_next {α : Type} {s t : State} {o : Except Raise α} {c : α → State → State} :
    completeWith s o c = .next t ↔
      (∃ a, o = .ok a ∧ t = (c a s).finish) ∨ ∃ r, o = .error r ∧ t = s.raise r := by
  cases o <;> simp [completeWith, eq_comm]

@[simp] theorem completeWith_ok {α : Type} (s : State) (a : α) (c : α → State → State) :
    completeWith s (.ok a) c = .next (c a s).finish := rfl

@[simp] theorem completeWith_error {α : Type} (s : State) (r : Raise) (c : α → State → State) :
    completeWith s (.error r) c = .next (s.raise r) := rfl

theorem checkLength_ok {len : Word} {limit : Nat} (h : len.toNat ≤ limit) : checkLength len limit = .ok () := by
  rw [checkLength, if_neg (by omega)]

theorem checkLength_error {len : Word} {limit : Nat} (h : limit < len.toNat) :
    checkLength len limit = .error ⟨.capacity, len⟩ := by rw [checkLength, if_pos h]

theorem checkLength_cases (len : Word) (limit : Nat) :
    (len.toNat ≤ limit ∧ checkLength len limit = .ok ()) ∨
    (limit < len.toNat ∧ checkLength len limit = .error ⟨.capacity, len⟩) := by
  rcases Nat.lt_or_ge limit len.toNat with h | h
  · exact .inr ⟨h, checkLength_error h⟩
  · exact .inl ⟨h, checkLength_ok h⟩

/-! ### FREQ -/

theorem bumpCount_length {sym : Word} {l l' : List (Nat × Word)} (h : bumpCount sym l = some l') :
    l'.length = l.length := by
  induction l generalizing l' with
  | nil => simp [bumpCount] at h
  | cons e l ih =>
    obtain ⟨c, t⟩ := e
    by_cases ht : t = sym
    · simp only [bumpCount, ht, if_true, Option.some.injEq] at h
      subst h; rfl
    · simp only [bumpCount, ht, if_false, Option.map_eq_some_iff] at h
      obtain ⟨l₁, h₁, rfl⟩ := h
      simp [ih h₁]

/-- Where no entry has the symbol there is nothing to bump (40_freq.md R73). -/
theorem bumpCount_none {sym : Word} {l : List (Nat × Word)} :
    bumpCount sym l = none ↔ sym ∉ l.map Prod.snd := by
  induction l with
  | nil => simp [bumpCount]
  | cons e l ih =>
    obtain ⟨c, t⟩ := e
    by_cases ht : t = sym
    · simp [bumpCount, ht]
    · have : sym ≠ t := fun h => ht h.symm
      simp only [bumpCount, ht, if_false, Option.map_eq_none_iff, ih, List.map_cons, List.mem_cons, this, false_or]

theorem countFrom_length {i : Nat} {text : List Word} {l l' : List (Nat × Word)} (hl : l.length ≤ 256)
    (h : countFrom i text l = .ok l') : l'.length ≤ 256 := by
  induction text generalizing i l with
  | nil => cases h; exact hl
  | cons sym text ih =>
    rw [countFrom] at h
    split at h
    · next l₁ h₁ => exact ih (by rw [bumpCount_length h₁]; exact hl) h
    · split at h
      · cases h
      · next hne =>
        refine ih ?_ h
        have : l.length ≠ 256 := hne
        simp only [List.length_append, List.length_cons, List.length_nil]
        omega

theorem countFrom_error {i : Nat} {text : List Word} {l : List (Nat × Word)} {r : Raise}
    (h : countFrom i text l = .error r) : r.kind = .capacity := by
  induction text generalizing i l with
  | nil => cases h
  | cons sym text ih =>
    rw [countFrom] at h
    split at h
    · exact ih h
    · split at h
      · cases h; rfl
      · exact ih h

theorem freqOutcome_ok {s : State} {l : List (Nat × Word)} (h : freqOutcome s = .ok l) :
    s.textLen.toNat ≤ 4096 ∧ l.length ≤ 256 ∧ countFrom 0 s.textOperand [] = .ok l := by
  obtain ⟨hle, hc⟩ | ⟨-, hc⟩ := checkLength_cases s.textLen Config.textMax <;> rw [freqOutcome, hc] at h
  · exact ⟨hle, countFrom_length (by simp) h, h⟩
  · cases h

theorem freqOutcome_error {s : State} {r : Raise} (h : freqOutcome s = .error r) : r.kind = .capacity := by
  obtain ⟨-, hc⟩ | ⟨-, hc⟩ := checkLength_cases s.textLen Config.textMax <;> rw [freqOutcome, hc] at h
  · exact countFrom_error h
  · cases h; rfl

/-! ### BUILD -/

theorem checkFreqFrom_error {i total : Nat} {seen : List Word} {f : List (Word × Word)} {r : Raise}
    (h : checkFreqFrom i total seen f = .error r) : r.kind = .badOperand ∨ r.kind = .capacity := by
  induction f generalizing i total seen with
  | nil => cases h
  | cons e f ih =>
    obtain ⟨count, sym⟩ := e
    rw [checkFreqFrom] at h
    split at h
    · cases h; exact .inl rfl
    · split at h
      · cases h; exact .inl rfl
      · split at h
        · cases h; exact .inr rfl
        · exact ih h

/-- Check 3 of R78 passes exactly on positive counts, new and pairwise different symbols, a sum in range. -/
theorem checkFreqFrom_ok {i total : Nat} {seen : List Word} {f : List (Word × Word)} :
    checkFreqFrom i total seen f = .ok () ↔
      (∀ e ∈ f, e.1 ≠ 0) ∧ (∀ e ∈ f, e.2 ∉ seen) ∧ (f.map Prod.snd).Nodup ∧
      (f = [] ∨ total + (f.map fun e => e.1.toNat).sum ≤ 4294967295) := by
  induction f generalizing i total seen with
  | nil => simp [checkFreqFrom]
  | cons e f ih =>
    obtain ⟨count, sym⟩ := e
    simp only [checkFreqFrom]
    by_cases h0 : count = 0
    · simp [h0]
    · by_cases hs : sym ∈ seen
      · simp [hs]
      · by_cases hw : 4294967295 < total + count.toNat
        · simp only [h0, hs, hw, if_true, if_false, reduceCtorEq, false_iff]
          rintro ⟨-, -, -, h | h⟩
          · simp at h
          · simp only [List.map_cons, List.sum_cons] at h; omega
        · simp only [h0, hs, hw, if_false, ih]
          constructor
          · rintro ⟨ha, hb, hc, hd⟩
            refine ⟨?_, ?_, ?_, .inr ?_⟩
            · intro e he
              rcases List.mem_cons.mp he with rfl | he
              · exact h0
              · exact ha e he
            · intro e he
              rcases List.mem_cons.mp he with rfl | he
              · exact hs
              · exact fun hm => hb e he (List.mem_append_left _ hm)
            · refine List.nodup_cons.mpr ⟨fun hm => ?_, hc⟩
              obtain ⟨e, he, heq⟩ := List.mem_map.mp hm
              exact hb e he (by rw [heq]; simp)
            · rcases hd with rfl | hd
              · simp; omega
              · simp only [List.map_cons, List.sum_cons]; omega
          · rintro ⟨ha, hb, hc, hd⟩
            rw [List.map_cons, List.nodup_cons] at hc
            refine ⟨fun e he => ha e (List.mem_cons_of_mem _ he), fun e he hm => ?_, hc.2, .inr ?_⟩
            · rcases List.mem_append.mp hm with hm | hm
              · exact hb e (List.mem_cons_of_mem _ he) hm
              · exact hc.1 (List.mem_map.mpr ⟨e, he, List.mem_singleton.mp hm⟩)
            · rcases hd with hd | hd
              · simp at hd
              · simp only [List.map_cons, List.sum_cons] at hd; omega

theorem checkFreqs_error {s : State} {r : Raise} (h : checkFreqs s = .error r) :
    r.kind = .emptyInput ∨ r.kind = .badOperand ∨ r.kind = .capacity := by
  unfold checkFreqs at h
  split at h
  · cases h; exact .inl rfl
  · obtain ⟨-, hc⟩ | ⟨-, hc⟩ := checkLength_cases s.nFreq Config.nMax <;> rw [hc] at h
    · exact .inr (checkFreqFrom_error h)
    · cases h; exact .inr (.inr rfl)

/-- The lists BUILD accepts (41_tree_build.md R78). -/
theorem checkFreqs_ok {s : State} :
    checkFreqs s = .ok () ↔
      1 ≤ s.nFreq.toNat ∧ s.nFreq.toNat ≤ 256 ∧ (∀ e ∈ s.freqOperand, e.1 ≠ 0) ∧
      (s.freqOperand.map Prod.snd).Nodup ∧ (s.freqOperand.map fun e => e.1.toNat).sum ≤ 4294967295 := by
  unfold checkFreqs
  by_cases h0 : s.nFreq = 0
  · simp [h0]
  · have h1 : 1 ≤ s.nFreq.toNat := by
      rcases Nat.eq_zero_or_pos s.nFreq.toNat with h | h
      · exact absurd (BitVec.eq_of_toNat_eq (by simpa using h)) h0
      · exact h
    rw [if_neg h0]
    obtain ⟨hle, hc⟩ | ⟨hlt, hc⟩ := checkLength_cases s.nFreq Config.nMax <;> rw [hc]
    · have hne : s.freqOperand ≠ [] := fun h => by
        have := congrArg List.length h
        rw [State.freqOperand, firstOf_length, List.length_nil] at this
        omega
      have hle' : s.nFreq.toNat ≤ 256 := hle
      simp [checkFreqFrom_ok, h1, hle', hne]
    · have : ¬ s.nFreq.toNat ≤ 256 := by have : (256 : Nat) < s.nFreq.toNat := hlt; omega
      simp [this]

theorem buildOutcome_cases (s : State) :
    (checkFreqs s = .ok () ∧ buildOutcome s = .ok (buildTree s.freqOperand)) ∨
    ∃ r, checkFreqs s = .error r ∧ buildOutcome s = .error r := by
  rw [buildOutcome]
  split
  · next r h => exact .inr ⟨r, h, rfl⟩
  · next h => exact .inl ⟨h, rfl⟩

/-! ### DERIVE and INVERT -/

/-- All that DERIVE can do (42_code_table.md R96). -/
theorem execDerive_cases (s : State) :
    (s.treeValid = false ∧ execDerive s = .next (s.raise ⟨.notReady, 0⟩)) ∨
    (s.treeValid = true ∧ ∃ t, s.leafRows = some t ∧ t.length ≤ 256 ∧ (∀ e ∈ t, e.2.length ≤ 255) ∧
      execDerive s = .next (s.commitTable t).finish) ∨
    (s.treeValid = true ∧ (∀ t, s.leafRows = some t → rowsFit t = false) ∧
      execDerive s = .fault .treeNotWellFormed) := by
  unfold execDerive
  by_cases hv : s.treeValid = true
  · rw [if_pos hv]
    cases hr : s.leafRows with
    | none => exact .inr (.inr ⟨hv, by simp, rfl⟩)
    | some t =>
      by_cases hf : rowsFit t = true
      · have hf' := hf
        simp only [rowsFit, Bool.and_eq_true, decide_eq_true_eq, List.all_eq_true] at hf'
        exact .inr (.inl ⟨hv, t, rfl, hf'.1, hf'.2, by simp [hf]⟩)
      · refine .inr (.inr ⟨hv, ?_, by simp [hf]⟩)
        intro t' ht'
        cases ht'
        simpa using hf
  · exact .inl ⟨by simpa using hv, by simp [hv]⟩

theorem checkRow_error {s : State} {i : Nat} {seen : List (Word × List Bool)} {r : Raise}
    (h : checkRow s i seen = .error r) : r.kind = .malformedScheme ∨ r.kind = .capacity := by
  unfold checkRow at h
  split at h
  · cases h; exact .inl rfl
  · split at h
    · cases h; exact .inr rfl
    · split at h
      · cases h; exact .inl rfl
      · split at h
        · cases h; exact .inl rfl
        · cases h

theorem checkRow_ok {s : State} {i : Nat} {seen : List (Word × List Bool)} {row : Word × List Bool} :
    checkRow s i seen = .ok row ↔
      row = s.codeEntry i ∧ 1 ≤ (s.codeLenAt i).toNat ∧ (s.codeLenAt i).toNat ≤ 255 ∧
      s.codeSymAt i ∉ seen.map Prod.fst ∧ s.codeString i ∉ seen.map Prod.snd := by
  have h0 : s.codeLenAt i = 0 ↔ (s.codeLenAt i).toNat = 0 :=
    ⟨fun h => by simp [h], fun h => BitVec.eq_of_toNat_eq (by simpa using h)⟩
  unfold checkRow
  split
  · next h => rw [h0] at h; simp; omega
  · next h =>
    rw [h0] at h
    split
    · next h1 => have : (255 : Nat) < (s.codeLenAt i).toNat := h1; simp; omega
    · next h1 =>
      have h2 : (s.codeLenAt i).toNat ≤ 255 := Nat.le_of_not_lt h1
      have h3 : 1 ≤ (s.codeLenAt i).toNat := by omega
      split
      · next h4 => simp only [reduceCtorEq, false_iff]; rintro ⟨-, -, -, h5, -⟩; exact h5 h4
      · next h4 =>
        split
        · next h5 => simp only [reduceCtorEq, false_iff]; rintro ⟨-, -, -, -, h6⟩; exact h6 h5
        · next h5 => simp only [Except.ok.injEq]; exact ⟨fun h => ⟨h.symm, h3, h2, h4, h5⟩, fun h => h.1.symm⟩

theorem checkRowsFrom_error {s : State} {n i : Nat} {seen : List (Word × List Bool)} {r : Raise}
    (h : checkRowsFrom s n i seen = .error r) : r.kind = .malformedScheme ∨ r.kind = .capacity := by
  induction n generalizing i seen with
  | zero => cases h
  | succ n ih =>
    rw [checkRowsFrom] at h
    split at h
    · next r' h' => cases h; exact checkRow_error h'
    · exact ih h

theorem invertOutcome_error {s : State} {r : Raise} (h : invertOutcome s = .error r) :
    r.kind = .malformedScheme ∨ r.kind = .capacity := by
  obtain ⟨-, hc⟩ | ⟨-, hc⟩ := checkLength_cases s.nCode Config.nMax <;> rw [invertOutcome, hc] at h
  · exact checkRowsFrom_error h
  · cases h; exact .inr rfl

/-! ### ENCODE and DECODE -/

theorem needTable_cases (s : State) :
    (s.tableValid = true ∧ needTable s = .ok ()) ∨
    (s.tableValid = false ∧ needTable s = .error ⟨.notReady, 0⟩) := by
  cases h : s.tableValid <;> simp [needTable, h]

/-- The symbol's first row decides (42_code_table.md R103). -/
theorem lookupSym_cons (e : Word × List Bool) (t : List (Word × List Bool)) (sym : Word) :
    lookupSym (e :: t) sym = if e.1 = sym then some e.2 else lookupSym t sym := by
  by_cases h : e.1 = sym <;> simp [lookupSym, h]

/-- The bit-string's first row decides (42_code_table.md R104). -/
theorem lookupCode_cons (e : Word × List Bool) (t : List (Word × List Bool)) (b : List Bool) :
    lookupCode (e :: t) b = if e.2 = b then some e.1 else lookupCode t b := by
  by_cases h : e.2 = b <;> simp [lookupCode, h]

theorem encodeFrom_length {t : List (Word × List Bool)} {i n : Nat} {text : List Word} {out : List Bool}
    (hn : n ≤ 65536) (h : encodeFrom t i n text = .ok out) : n + out.length ≤ 65536 := by
  induction text generalizing i n out with
  | nil => cases h; simpa using hn
  | cons sym text ih =>
    rw [encodeFrom] at h
    split at h
    · cases h
    · next b hb =>
      split at h
      · cases h
      · next hle =>
        have hle' : n + b.length ≤ 65536 := Nat.le_of_not_lt hle
        split at h
        · cases h
        · next out' h' =>
          cases h
          have := ih hle' h'
          rw [List.length_append]
          omega

theorem encodeFrom_error {t : List (Word × List Bool)} {i n : Nat} {text : List Word} {r : Raise}
    (h : encodeFrom t i n text = .error r) : r.kind = .unknownSymbol ∨ r.kind = .capacity := by
  induction text generalizing i n r with
  | nil => cases h
  | cons sym text ih =>
    rw [encodeFrom] at h
    split at h
    · cases h; exact .inl rfl
    · split at h
      · cases h; exact .inr rfl
      · split at h
        · next r' h' => cases h; exact ih h'
        · cases h

theorem encodeOutcome_ok {s : State} {b : List Bool} (h : encodeOutcome s = .ok b) :
    s.tableValid = true ∧ s.textLen.toNat ≤ 4096 ∧ b.length ≤ 65536 ∧
    encodeFrom s.tableOperand 0 0 s.textOperand = .ok b := by
  obtain ⟨hv, hn⟩ | ⟨-, hn⟩ := needTable_cases s <;> rw [encodeOutcome, hn] at h
  · obtain ⟨hle, hc⟩ | ⟨-, hc⟩ := checkLength_cases s.textLen Config.textMax <;> rw [hc] at h
    · exact ⟨hv, hle, by simpa using encodeFrom_length (Nat.zero_le _) h, h⟩
    · cases h
  · cases h

theorem encodeOutcome_error {s : State} {r : Raise} (h : encodeOutcome s = .error r) :
    r.kind = .notReady ∨ r.kind = .unknownSymbol ∨ r.kind = .capacity := by
  obtain ⟨-, hn⟩ | ⟨-, hn⟩ := needTable_cases s <;> rw [encodeOutcome, hn] at h
  · obtain ⟨-, hc⟩ | ⟨-, hc⟩ := checkLength_cases s.textLen Config.textMax <;> rw [hc] at h
    · exact .inr (encodeFrom_error h)
    · cases h; exact .inr (.inr rfl)
  · cases h; exact .inl rfl

/-- A match takes at least one bit and no more than there are, or than a code can have. -/
theorem firstMatch_length {t : List (Word × List Bool)} {rest : List Bool} {len : Nat} {sym : Word}
    (h : firstMatch t rest = some (len, sym)) :
    1 ≤ len ∧ len ≤ rest.length ∧ len ≤ 255 ∧ lookupCode t (rest.take len) = some sym := by
  obtain ⟨k, hk, hm⟩ := List.exists_of_findSome?_eq_some h
  simp only [Option.map_eq_some_iff, Prod.mk.injEq] at hm
  obtain ⟨sym', hs, rfl, rfl⟩ := hm
  have hk' : k < min rest.length 255 := List.mem_range.mp hk
  exact ⟨by omega, by omega, by omega, hs⟩

theorem decodeFrom_length {t : List (Word × List Bool)} {fuel pos n : Nat} {rest : List Bool} {out : List Word}
    (hn : n ≤ 4096) (h : decodeFrom t fuel pos n rest = .ok out) : n + out.length ≤ 4096 := by
  induction fuel generalizing pos n rest out with
  | zero => rw [decodeFrom] at h; cases h; simpa using hn
  | succ fuel ih =>
    cases rest with
    | nil => rw [decodeFrom] at h; cases h; simpa using hn
    | cons b rest =>
      rw [decodeFrom] at h
      split at h
      · cases h
      · split at h
        · cases h
        · next hne =>
          have hne' : n ≠ 4096 := hne
          split at h
          · cases h
          · next out' h' =>
            cases h
            have := ih (by omega) h'
            rw [List.length_cons]
            omega

theorem decodeFrom_error {t : List (Word × List Bool)} {fuel pos n : Nat} {rest : List Bool} {r : Raise}
    (h : decodeFrom t fuel pos n rest = .error r) : r.kind = .undecodableSequence ∨ r.kind = .capacity := by
  induction fuel generalizing pos n rest r with
  | zero => rw [decodeFrom] at h; cases h
  | succ fuel ih =>
    cases rest with
    | nil => rw [decodeFrom] at h; cases h
    | cons b rest =>
      rw [decodeFrom] at h
      split at h
      · cases h; exact .inl rfl
      · split at h
        · cases h; exact .inr rfl
        · split at h
          · next r' h' => cases h; exact ih h'
          · cases h

theorem decodeOutcome_ok {s : State} {out : List Word} (h : decodeOutcome s = .ok out) :
    s.tableValid = true ∧ s.bitLen.toNat ≤ 65536 ∧ out.length ≤ 4096 ∧
    decodeFrom s.tableOperand s.bitLen.toNat 0 0 s.bitOperand = .ok out := by
  obtain ⟨hv, hn⟩ | ⟨-, hn⟩ := needTable_cases s <;> rw [decodeOutcome, hn] at h
  · obtain ⟨hle, hc⟩ | ⟨-, hc⟩ := checkLength_cases s.bitLen Config.bitsMax <;> rw [hc] at h
    · exact ⟨hv, hle, by simpa using decodeFrom_length (Nat.zero_le _) h, h⟩
    · cases h
  · cases h

theorem decodeOutcome_error {s : State} {r : Raise} (h : decodeOutcome s = .error r) :
    r.kind = .notReady ∨ r.kind = .undecodableSequence ∨ r.kind = .capacity := by
  obtain ⟨-, hn⟩ | ⟨-, hn⟩ := needTable_cases s <;> rw [decodeOutcome, hn] at h
  · obtain ⟨-, hc⟩ | ⟨-, hc⟩ := checkLength_cases s.bitLen Config.bitsMax <;> rw [hc] at h
    · exact .inr (decodeFrom_error h)
    · cases h; exact .inr (.inr rfl)
  · cases h; exact .inl rfl

/-! ### SER and PARSE -/

theorem renderFrom_length {i n : Nat} {t : List (Word × List Bool)} {out : List Byte}
    (hn : n ≤ 65536) (h : renderFrom i n t = .ok out) : n + out.length ≤ 65536 := by
  induction t generalizing i n out with
  | nil => cases h; simpa using hn
  | cons e t ih =>
    rw [renderFrom] at h
    split at h
    · cases h
    · next hle =>
      have hle' : n + (entryText i e).length ≤ 65536 := Nat.le_of_not_lt hle
      split at h
      · cases h
      · next out' h' =>
        cases h
        have := ih hle' h'
        rw [List.length_append]
        omega

theorem renderFrom_error {i n : Nat} {t : List (Word × List Bool)} {r : Raise}
    (h : renderFrom i n t = .error r) : r.kind = .capacity := by
  induction t generalizing i n r with
  | nil => cases h
  | cons e t ih =>
    rw [renderFrom] at h
    split at h
    · cases h; rfl
    · split at h
      · next r' h' => cases h; exact ih h'
      · cases h

theorem serOutcome_ok {s : State} {out : List Byte} (h : serOutcome s = .ok out) :
    s.tableValid = true ∧ s.nCode ≠ 0 ∧ out.length ≤ 65536 ∧ renderFrom 0 0 s.tableOperand = .ok out := by
  obtain ⟨hv, hn⟩ | ⟨-, hn⟩ := needTable_cases s <;> rw [serOutcome, hn] at h
  · simp only at h
    split at h
    · cases h
    · next hne => exact ⟨hv, hne, by simpa using renderFrom_length (Nat.zero_le _) h, h⟩
  · cases h

theorem serOutcome_error {s : State} {r : Raise} (h : serOutcome s = .error r) :
    r.kind = .notReady ∨ r.kind = .badOperand ∨ r.kind = .capacity := by
  obtain ⟨-, hn⟩ | ⟨-, hn⟩ := needTable_cases s <;> rw [serOutcome, hn] at h
  · simp only at h
    split at h
    · cases h; exact .inr (.inl rfl)
    · exact .inr (.inr (renderFrom_error h))
  · cases h; exact .inl rfl

theorem charsBits_length {cs : List Byte} {b : List Bool} (h : charsBits cs = some b) : b.length = cs.length := by
  induction cs generalizing b with
  | nil => cases h; rfl
  | cons c cs ih =>
    rw [charsBits] at h
    split at h
    · cases h
    · next bs hbs =>
      have := ih hbs
      split at h
      · cases h; simp [this]
      · split at h
        · cases h; simp [this]
        · cases h

theorem parseEntry_ok {entry : List Byte} {row : Word × List Bool} (h : parseEntry entry = .ok row) :
    1 ≤ row.2.length ∧ row.2.length ≤ 255 := by
  unfold parseEntry at h
  split at h
  · cases h
  · next key value _ =>
    split at h
    · cases h
    · split at h
      · cases h
      · next b hb =>
        split at h
        · cases h
        · next hle =>
          cases h
          refine ⟨?_, Nat.le_of_not_lt hle⟩
          unfold parseBits at hb
          split at hb
          · cases hb
          · next hne =>
            have := charsBits_length hb
            have : value.length ≠ 0 := fun h0 => hne (List.length_eq_zero_iff.mp h0)
            show 1 ≤ b.length
            omega

theorem parseEntry_error {entry : List Byte} {k : ErrKind} (h : parseEntry entry = .error k) :
    k = .malformedScheme ∨ k = .capacity := by
  unfold parseEntry at h
  split at h
  · cases h; exact .inl rfl
  · split at h
    · cases h; exact .inl rfl
    · split at h
      · cases h; exact .inl rfl
      · split at h
        · cases h; exact .inr rfl
        · cases h

/-- What a table PARSE accepts is (43_transcode.md R120; 10_state.md R27). -/
theorem parseFrom_ok {entries : List (Nat × List Byte)} {rows out : List (Word × List Bool)}
    (hlen : rows.length ≤ 256) (hrow : ∀ e ∈ rows, 1 ≤ e.2.length ∧ e.2.length ≤ 255)
    (hsym : (rows.map Prod.fst).Nodup) (hcode : (rows.map Prod.snd).Nodup)
    (h : parseFrom entries rows = .ok out) :
    out.length ≤ 256 ∧ (∀ e ∈ out, 1 ≤ e.2.length ∧ e.2.length ≤ 255) ∧
    (out.map Prod.fst).Nodup ∧ (out.map Prod.snd).Nodup := by
  induction entries generalizing rows with
  | nil => cases h; exact ⟨hlen, hrow, hsym, hcode⟩
  | cons entry entries ih =>
    obtain ⟨pos, entry⟩ := entry
    rw [parseFrom] at h
    split at h
    · cases h
    · next hne =>
      have hne' : rows.length ≠ 256 := hne
      split at h
      · cases h
      · next sym b hp =>
        split at h
        · cases h
        · next hns =>
          split at h
          · cases h
          · next hnb =>
            refine ih ?_ ?_ ?_ ?_ h
            · simp only [List.length_append, List.length_cons, List.length_nil]; omega
            · intro e he
              rcases List.mem_append.mp he with he | he
              · exact hrow e he
              · rw [List.mem_singleton.mp he]; exact parseEntry_ok hp
            · rw [List.map_append, List.map_singleton]
              exact List.nodup_append.mpr ⟨hsym, by simp, by
                rintro a ha c hc rfl
                rw [List.mem_singleton.mp hc] at ha
                exact hns ha⟩
            · rw [List.map_append, List.map_singleton]
              exact List.nodup_append.mpr ⟨hcode, by simp, by
                rintro a ha c hc rfl
                rw [List.mem_singleton.mp hc] at ha
                exact hnb ha⟩

theorem parseFrom_error {entries : List (Nat × List Byte)} {rows : List (Word × List Bool)} {r : Raise}
    (h : parseFrom entries rows = .error r) : r.kind = .malformedScheme ∨ r.kind = .capacity := by
  induction entries generalizing rows with
  | nil => cases h
  | cons entry entries ih =>
    obtain ⟨pos, entry⟩ := entry
    rw [parseFrom] at h
    split at h
    · cases h; exact .inr rfl
    · split at h
      · next k hk => cases h; exact parseEntry_error hk
      · split at h
        · cases h; exact .inl rfl
        · split at h
          · cases h; exact .inl rfl
          · exact ih h

theorem parseOutcome_ok {s : State} {out : List (Word × List Bool)} (h : parseOutcome s = .ok out) :
    s.schLen.toNat ≤ 65536 ∧ out.length ≤ 256 ∧ (∀ e ∈ out, 1 ≤ e.2.length ∧ e.2.length ≤ 255) ∧
    (out.map Prod.fst).Nodup ∧ (out.map Prod.snd).Nodup ∧
    parseFrom (splitAt dash 0 s.schOperand) [] = .ok out := by
  obtain ⟨hle, hc⟩ | ⟨-, hc⟩ := checkLength_cases s.schLen Config.schMax <;> rw [parseOutcome, hc] at h
  · have := parseFrom_ok (by simp) (by simp) (by simp) (by simp) h
    exact ⟨hle, this.1, this.2.1, this.2.2.1, this.2.2.2, h⟩
  · cases h

theorem parseOutcome_error {s : State} {r : Raise} (h : parseOutcome s = .error r) :
    r.kind = .malformedScheme ∨ r.kind = .capacity := by
  obtain ⟨-, hc⟩ | ⟨-, hc⟩ := checkLength_cases s.schLen Config.schMax <;> rw [parseOutcome, hc] at h
  · exact parseFrom_error h
  · cases h; exact .inr rfl

/-! ### PACK and UNPACK -/

theorem groupBytes_length (n : Nat) (bits : List Bool) : (groupBytes n bits).length = n := by
  induction n generalizing bits with
  | zero => rfl
  | succ n ih => simp [groupBytes, ih]

theorem sentinelForm_length (b : List Bool) : (sentinelForm b).length = 8 * (b.length / 8 + 1) := by
  simp only [sentinelForm, List.length_append, List.length_cons, List.length_nil, List.length_replicate]
  omega

theorem packBytes_length (b : List Bool) : (packBytes b).length = b.length / 8 + 1 := groupBytes_length _ _

/-- Byte `k` is the group of bits `8k .. 8k+7` (44_bitpack.md R124). -/
theorem groupBytes_getElem (n : Nat) (bits : List Bool) (k : Nat) (h : k < (groupBytes n bits).length) :
    (groupBytes n bits)[k] = byteOfGroup ((bits.drop (8 * k)).take 8) := by
  induction n generalizing bits k with
  | zero => simp [groupBytes] at h
  | succ n ih =>
    cases k with
    | zero => simp [groupBytes]
    | succ k =>
      have h' : k < (groupBytes n (bits.drop 8)).length := by simpa [groupBytes] using h
      have := ih (bits.drop 8) k h'
      rw [List.drop_drop] at this
      simp only [groupBytes, List.getElem_cons_succ]
      rw [this]
      congr 3
      omega

/-- Expanding the packed bytes gives the packed bits back. -/
theorem groupBytes_expand (n : Nat) (bits : List Bool) (h : bits.length = 8 * n) :
    (groupBytes n bits).flatMap bitsOfByte = bits := by
  induction n generalizing bits with
  | zero => rw [List.length_eq_zero_iff.mp (by omega : bits.length = 0)]; rfl
  | succ n ih =>
    rw [groupBytes, List.flatMap_cons, ih _ (by rw [List.length_drop]; omega),
      bitsOfByte_byteOfGroup (by rw [List.length_take]; omega), List.take_append_drop]

theorem packOutcome_ok {s : State} {y : List Byte} (h : packOutcome s = .ok y) :
    s.bitLen.toNat ≤ 65535 ∧ y = packBytes s.bitOperand ∧ y.length = s.bitLen.toNat / 8 + 1 := by
  obtain ⟨-, hc⟩ | ⟨-, hc⟩ := checkLength_cases s.bitLen Config.bitsMax <;> rw [packOutcome, hc] at h
  · simp only at h
    split at h
    · cases h
    · next hle =>
      have hle' : s.bitLen.toNat / 8 + 1 ≤ 8192 := Nat.le_of_not_lt hle
      cases h
      exact ⟨by omega, rfl, by rw [packBytes_length, State.bitOperand, firstOf_length]⟩
  · cases h

theorem packOutcome_error {s : State} {r : Raise} (h : packOutcome s = .error r) :
    r = ⟨.capacity, s.bitLen⟩ ∧ 65535 < s.bitLen.toNat := by
  obtain ⟨-, hc⟩ | ⟨hlt, hc⟩ := checkLength_cases s.bitLen Config.bitsMax <;> rw [packOutcome, hc] at h
  · simp only at h
    split at h
    · next hlt =>
      have hlt' : 8192 < s.bitLen.toNat / 8 + 1 := hlt
      cases h
      exact ⟨rfl, by omega⟩
    · cases h
  · have hlt' : 65536 < s.bitLen.toNat := hlt
    cases h
    exact ⟨rfl, by omega⟩

theorem lastOne_none {bits : List Bool} : lastOne bits = none ↔ ∀ x ∈ bits, x = false := by
  induction bits with
  | nil => simp [lastOne]
  | cons b bits ih =>
    rw [lastOne]
    cases h : lastOne bits with
    | none =>
      have : ∀ x ∈ bits, x = false := ih.mp h
      cases b with
      | true => simp
      | false => simpa using this
    | some q =>
      have : ¬ ∀ x ∈ bits, x = false := by rw [← ih, h]; simp
      simp only [reduceCtorEq, false_iff]
      exact fun h' => this fun x hx => h' x (List.mem_cons_of_mem _ hx)

theorem lastOne_some {bits : List Bool} {p : Nat} (h : lastOne bits = some p) :
    ∃ hp : p < bits.length, bits[p] = true ∧ ∀ q (hq : q < bits.length), p < q → bits[q] = false := by
  induction bits generalizing p with
  | nil => cases h
  | cons b bits ih =>
    rw [lastOne] at h
    cases hl : lastOne bits with
    | some q =>
      rw [hl] at h
      cases h
      obtain ⟨hq, h1, h2⟩ := ih hl
      refine ⟨by simpa using hq, by simpa using h1, ?_⟩
      intro j hj hlt
      cases j with
      | zero => omega
      | succ j => exact h2 j (by simpa using hj) (by omega)
    | none =>
      rw [hl] at h
      cases b with
      | false => cases h
      | true =>
        cases h
        refine ⟨by simp, rfl, ?_⟩
        intro j hj hlt
        cases j with
        | zero => omega
        | succ j => exact lastOne_none.mp hl _ (List.getElem_mem _)

theorem unpackOutcome_ok {s : State} {b : List Bool} (h : unpackOutcome s = .ok b) :
    s.byteLen.toNat ≤ 8192 ∧ unpackBits s.byteOperand = some b ∧ b.length < 8 * s.byteLen.toNat := by
  obtain ⟨hle, hc⟩ | ⟨-, hc⟩ := checkLength_cases s.byteLen Config.bytesMax <;> rw [unpackOutcome, hc] at h
  · simp only at h
    split at h
    · cases h
    · next b' hb =>
      cases h
      refine ⟨hle, hb, ?_⟩
      simp only [unpackBits, Option.map_eq_some_iff] at hb
      obtain ⟨p, hp, rfl⟩ := hb
      obtain ⟨hlt, -⟩ := lastOne_some hp
      have hlen : (s.byteOperand.flatMap bitsOfByte).length = 8 * s.byteLen.toNat := by
        have : ∀ y : List Byte, (y.flatMap bitsOfByte).length = 8 * y.length := by
          intro y
          induction y with
          | nil => rfl
          | cons v y ih => rw [List.flatMap_cons, List.length_append, bitsOfByte_length, ih, List.length_cons]; omega
        rw [this, State.byteOperand, firstOf_length]
      rw [List.length_take]
      omega
  · cases h

theorem unpackOutcome_error {s : State} {r : Raise} (h : unpackOutcome s = .error r) :
    r.kind = .noSentinelFound ∨ r.kind = .capacity := by
  obtain ⟨-, hc⟩ | ⟨-, hc⟩ := checkLength_cases s.byteLen Config.bytesMax <;> rw [unpackOutcome, hc] at h
  · simp only at h
    split at h
    · cases h; exact .inl rfl
    · cases h
  · cases h; exact .inr rfl

end Sys2Proof.Laws
end

