-- ==== Sys2Proof/Laws/PerInstr.lean ====
section
/-! SUPPORT. Statements made per command: its word decodes to it, and its format passes the checks. -/

namespace Sys2Proof.Laws

/-- The word of the command is well formed and decodes to the command (30_encoding.md R60, R62). -/
def DecodeEncode.Statement (i : Instr) : Prop := i.wellFormed = true ∧ Sys2Proof.decode (Sys2Proof.encode i) = .ok i

theorem DecodeEncode.freq : DecodeEncode.Statement .freq := ⟨by decide, rfl⟩
theorem DecodeEncode.build : DecodeEncode.Statement .build := ⟨by decide, rfl⟩
theorem DecodeEncode.derive : DecodeEncode.Statement .derive := ⟨by decide, rfl⟩
theorem DecodeEncode.invert : DecodeEncode.Statement .invert := ⟨by decide, rfl⟩
theorem DecodeEncode.encode : DecodeEncode.Statement .encode := ⟨by decide, rfl⟩
theorem DecodeEncode.decode : DecodeEncode.Statement .decode := ⟨by decide, rfl⟩
theorem DecodeEncode.ser : DecodeEncode.Statement .ser := ⟨by decide, rfl⟩
theorem DecodeEncode.parse : DecodeEncode.Statement .parse := ⟨by decide, rfl⟩
theorem DecodeEncode.pack : DecodeEncode.Statement .pack := ⟨by decide, rfl⟩
theorem DecodeEncode.unpack : DecodeEncode.Statement .unpack := ⟨by decide, rfl⟩

end Sys2Proof.Laws
end

