-- ==== Sys2Proof/Laws/Step.lean ====
section
/-! SUPPORT. What a host transaction and a step can do, said once; that every write keeps the memories' canonical form. -/

namespace Sys2Proof.Laws

open Sys2Proof.Machine

/-! ### Host transactions -/

/-- A read changes nothing (20_memory.md R55). -/
@[simp] theorem transact_read_state (s : State) (a : Addr) : (s.transact (.read a)).1 = s := by
  simp only [State.transact]
  split <;> rfl

/-- All that a read can answer (20_memory.md R42). -/
theorem transact_read_cases (s : State) (a : Addr) :
    (locate a = none ∧ s.transact (.read a) = (s, .refused)) ∨
    ∃ l, locate a = some l ∧ s.transact (.read a) = (s, { rdata := s.readLocation l, err := false }) := by
  simp only [State.transact]
  cases h : locate a with
  | none => exact .inl ⟨rfl, rfl⟩
  | some l => exact .inr ⟨l, rfl, rfl⟩

/-- All that a write can do (20_memory.md R42): it is refused, or it writes one location that may be written. -/
theorem transact_write_cases (s : State) (a : Addr) (v : Word) :
    ((locate a = none ∨ ∃ l, locate a = some l ∧ l.readOnly = true) ∧
      s.transact (.write a v) = (s, .refused)) ∨
    ∃ l, locate a = some l ∧ l.readOnly = false ∧ s.transact (.write a v) = (s.writeLocation v l, .written) := by
  simp only [State.transact]
  cases h : locate a with
  | none => exact .inl ⟨.inl rfl, rfl⟩
  | some l =>
    cases hr : l.readOnly with
    | true => exact .inl ⟨.inr ⟨l, rfl, hr⟩, by simp [hr]⟩
    | false => exact .inr ⟨l, rfl, hr, by simp [hr]⟩

/-- All that a write to CTRL can do (10_state.md R19). -/
theorem writeCtrl_cases (s : State) (w : Word) :
    (w.getLsbD 1 = false ∧ s.writeCtrl w = { s with ie := w.getLsbD 0 }) ∨
    (w.getLsbD 1 = true ∧ s.writeCtrl w = s.softReset) := by
  unfold State.writeCtrl
  cases h : w.getLsbD 1 with
  | false => exact .inl ⟨rfl, by simp⟩
  | true => exact .inr ⟨rfl, by simp; rfl⟩

/-- All that a write to STATUS can do (10_state.md R21). -/
theorem writeStatus_cases (s : State) (w : Word) :
    (w.getLsbD 1 = false ∧ s.writeStatus w = s) ∨ (w.getLsbD 1 = true ∧ s.writeStatus w = { s with done := false }) := by
  unfold State.writeStatus
  cases h : w.getLsbD 1 <;> simp

/-- A write keeps the model's own fields. -/
theorem writeLocation_own (s : State) (v : Word) (l : Location) :
    (s.writeLocation v l).inputs = s.inputs ∧ (s.writeLocation v l).responses = s.responses ∧
    (s.writeLocation v l).epoch = s.epoch := by
  cases l
  case ctrl =>
    rcases writeCtrl_cases s v with ⟨-, h⟩ | ⟨-, h⟩ <;> rw [State.writeLocation, h] <;> exact ⟨rfl, rfl, rfl⟩
  case status =>
    rcases writeStatus_cases s v with ⟨-, h⟩ | ⟨-, h⟩ <;> rw [State.writeLocation, h] <;> exact ⟨rfl, rfl, rfl⟩
  all_goals exact ⟨rfl, rfl, rfl⟩

/-- No host write reaches NODE memory (20_memory.md R53). -/
theorem writeLocation_node (s : State) (v : Word) (l : Location) :
    (s.writeLocation v l).mem.nodeKind = s.mem.nodeKind ∧ (s.writeLocation v l).mem.nodeA = s.mem.nodeA ∧
    (s.writeLocation v l).mem.nodeB = s.mem.nodeB := by
  cases l
  case ctrl =>
    rcases writeCtrl_cases s v with ⟨-, h⟩ | ⟨-, h⟩ <;> rw [State.writeLocation, h] <;> exact ⟨rfl, rfl, rfl⟩
  case status =>
    rcases writeStatus_cases s v with ⟨-, h⟩ | ⟨-, h⟩ <;> rw [State.writeLocation, h] <;> exact ⟨rfl, rfl, rfl⟩
  all_goals exact ⟨rfl, rfl, rfl⟩

/-- A mapped address names an element that exists (20_memory.md R43). -/
theorem locate_exists {a : Addr} {l : Location} (h : locate a = some l) : l.exists = true := by
  have hlt : a.toNat < 131072 := a.isLt
  unfold locate at h
  split at h
  · next h4 =>
    unfold mapAddress at h
    (repeat' split at h) <;> first | (simp only [Option.some.injEq] at h; subst h) | skip
    · next hr =>
      unfold registerAt at h
      split at h <;> first | (simp only [Option.some.injEq] at h; subst h; rfl) | simp at h
    · unfold freqLocation
      split <;> simp only [Location.exists, decide_eq_true_eq, Config.nMax] <;> omega
    · simp at h
    · unfold nodeLocation
      (repeat' split) <;> simp only [Location.exists, decide_eq_true_eq, Config.nodeMax] <;> omega
    · simp at h
    · unfold codeLocation
      (repeat' split) <;> simp only [Location.exists, decide_eq_true_eq, Config.nMax, Config.codeWords] <;> omega
    · simp only [Location.exists, decide_eq_true_eq, Config.textMax]; omega
    · simp only [Location.exists, decide_eq_true_eq, Config.bitsMax]; omega
    · simp only [Location.exists, decide_eq_true_eq, Config.bytesMax]; omega
    · simp only [Location.exists, decide_eq_true_eq, Config.schMax]; omega
  · simp at h

/-! ### The canonical form of the memories -/

/-- A host write keeps it. -/
theorem writeLocation_wf {s : State} {l : Location} (v : Word) (hl : l.exists = true) (h : s.mem.wf) :
    (s.writeLocation v l).mem.wf := by
  obtain ⟨h1, h2, h3, h4, h5, h6, h7, h8, h9, h10, h11, h12⟩ := h
  cases l <;> simp only [Location.exists, decide_eq_true_eq] at hl
  case ctrl =>
    rcases writeCtrl_cases s v with ⟨-, hw⟩ | ⟨-, hw⟩ <;> simp only [State.writeLocation, hw] <;>
      exact ⟨h1, h2, h3, h4, h5, h6, h7, h8, h9, h10, h11, h12⟩
  case status =>
    rcases writeStatus_cases s v with ⟨-, hw⟩ | ⟨-, hw⟩ <;> simp only [State.writeLocation, hw] <;>
      exact ⟨h1, h2, h3, h4, h5, h6, h7, h8, h9, h10, h11, h12⟩
  case freqCount i => exact ⟨wf_set h1 hl, h2, h3, h4, h5, h6, h7, h8, h9, h10, h11, h12⟩
  case freqSym i => exact ⟨h1, wf_set h2 hl, h3, h4, h5, h6, h7, h8, h9, h10, h11, h12⟩
  case codeSym i => exact ⟨h1, h2, h3, h4, h5, wf_set h6 hl, h7, h8, h9, h10, h11, h12⟩
  case codeLen i => exact ⟨h1, h2, h3, h4, h5, h6, wf_set h7 hl, h8, h9, h10, h11, h12⟩
  case codeBits i k =>
    exact ⟨h1, h2, h3, h4, h5, h6, h7, wf_set h8 (by simp only [Config.nMax, Config.codeWords] at *; omega), h9, h10, h11, h12⟩
  case text i => exact ⟨h1, h2, h3, h4, h5, h6, h7, h8, wf_set h9 hl, h10, h11, h12⟩
  case bitWord k =>
    exact ⟨h1, h2, h3, h4, h5, h6, h7, h8, h9, wf_store h10 (by
      simp only [slotsOfWord, List.length_map, List.length_range, Config.bitsMax] at *; omega), h11, h12⟩
  case byteWord k =>
    exact ⟨h1, h2, h3, h4, h5, h6, h7, h8, h9, h10, wf_store h11 (by
      simp only [bytesOfWord, List.length_map, List.length_range, Config.bytesMax] at *; omega), h12⟩
  case schWord k =>
    exact ⟨h1, h2, h3, h4, h5, h6, h7, h8, h9, h10, h11, wf_store h12 (by
      simp only [bytesOfWord, List.length_map, List.length_range, Config.schMax] at *; omega)⟩
  all_goals exact ⟨h1, h2, h3, h4, h5, h6, h7, h8, h9, h10, h11, h12⟩

theorem commitFreq_wf {s : State} {l : List (Nat × Word)} (hl : l.length ≤ 256) (h : s.mem.wf) :
    (s.commitFreq l).mem.wf := by
  obtain ⟨h1, h2, h⟩ := h
  exact ⟨wf_store h1 (by simpa using hl), wf_store h2 (by simpa using hl), h⟩

theorem commitTree_wf {s : State} {r : List TreeNode × Nat} (hl : r.1.length ≤ 511) (h : s.mem.wf) :
    (s.commitTree r).mem.wf := by
  obtain ⟨h1, h2, h3, h4, h5, h⟩ := h
  exact ⟨h1, h2, wf_store h3 (by simpa using hl), wf_store h4 (by simpa using hl), wf_store h5 (by simpa using hl), h⟩

theorem commitTable_wf {s : State} {t : List (Word × List Bool)} (hl : t.length ≤ 256) (h : s.mem.wf) :
    (s.commitTable t).mem.wf := by
  obtain ⟨h1, h2, h3, h4, h5, h6, h7, h8, h⟩ := h
  refine ⟨h1, h2, h3, h4, h5, wf_store h6 (by simpa using hl), wf_store h7 (by simpa using hl), wf_store h8 ?_, h⟩
  rw [flatMap_slotWords_length]
  simp only [Config.nMax, Config.codeWords]
  omega

theorem commitBits_wf {s : State} {b : List Bool} (hl : b.length ≤ 65536) (h : s.mem.wf) : (s.commitBits b).mem.wf := by
  obtain ⟨h1, h2, h3, h4, h5, h6, h7, h8, h9, h10, h⟩ := h
  exact ⟨h1, h2, h3, h4, h5, h6, h7, h8, h9, wf_store h10 (by simpa using hl), h⟩

theorem commitText_wf {s : State} {t : List Word} (hl : t.length ≤ 4096) (h : s.mem.wf) : (s.commitText t).mem.wf := by
  obtain ⟨h1, h2, h3, h4, h5, h6, h7, h8, h9, h⟩ := h
  exact ⟨h1, h2, h3, h4, h5, h6, h7, h8, wf_store h9 (by simpa using hl), h⟩

theorem commitBytes_wf {s : State} {y : List Byte} (hl : y.length ≤ 8192) (h : s.mem.wf) : (s.commitBytes y).mem.wf := by
  obtain ⟨h1, h2, h3, h4, h5, h6, h7, h8, h9, h10, h11, h⟩ := h
  exact ⟨h1, h2, h3, h4, h5, h6, h7, h8, h9, h10, wf_store h11 (by simpa using hl), h⟩

theorem commitScheme_wf {s : State} {c : List Byte} (hl : c.length ≤ 65536) (h : s.mem.wf) :
    (s.commitScheme c).mem.wf := by
  obtain ⟨h1, h2, h3, h4, h5, h6, h7, h8, h9, h10, h11, h12⟩ := h
  exact ⟨h1, h2, h3, h4, h5, h6, h7, h8, h9, h10, h11, wf_store h12 (by simpa using hl)⟩

theorem reset_wf : State.reset.mem.wf := wf_unwritten

/-! ### Steps -/

/-- All that a step can be (20_memory.md R41, R57; 30_encoding.md R66; 70_reset_and_hazards.md R152): a request is
performed; the block is reset; or the engine takes its turn, at most its mark being used up. -/
theorem step_cases (s : State) :
    (∃ r rest, s.inputs = .request r :: rest ∧ s.accepts r = true ∧
      step s = .next (({ s with inputs := rest } : State).perform r)) ∨
    (∃ rest, (s.inputs = .hardReset :: rest ∨ ∃ r, s.accepts r = false ∧ s.inputs = .request r :: .hardReset :: rest) ∧
      step s = .next ({ s with inputs := rest } : State).hardReset) ∨
    (∃ inputs, (∀ rest, s.inputs ≠ .hardReset :: rest) ∧
      (∀ r rest, s.inputs = .request r :: rest → s.accepts r = false ∧ ∀ rest', rest ≠ .hardReset :: rest') ∧
      step s = engineTurn { s with inputs := inputs }) := by
  unfold step agentStep
  cases hi : s.inputs with
  | nil =>
    refine .inr (.inr ⟨s.inputs, by simp, by simp, ?_⟩)
    rfl
  | cons x rest =>
    cases x with
    | engine => exact .inr (.inr ⟨rest, by simp, by simp, rfl⟩)
    | hardReset => exact .inr (.inl ⟨rest, .inl rfl, rfl⟩)
    | request r =>
      cases ha : s.accepts r with
      | true => exact .inl ⟨r, rest, rfl, ha, by simp [ha]⟩
      | false =>
        have hne : ∀ l : List Input, (∀ rest', rest ≠ .hardReset :: rest') →
            ∀ r' rest', Input.request r :: rest = .request r' :: rest' →
              s.accepts r' = false ∧ ∀ rest'', rest' ≠ .hardReset :: rest'' := by
          intro _ hn r' rest' h
          cases h
          exact ⟨ha, hn⟩
        cases rest with
        | nil => exact .inr (.inr ⟨s.inputs, by simp, hne [] (by simp), by simp [ha]⟩)
        | cons y rest =>
          cases y with
          | hardReset => exact .inr (.inl ⟨rest, .inr ⟨r, ha, rfl⟩, by simp [ha]⟩)
          | engine => exact .inr (.inr ⟨.request r :: rest, by simp, hne [] (by simp), by simp [ha]⟩)
          | request q => exact .inr (.inr ⟨s.inputs, by simp, hne [] (by simp), by simp [ha]⟩)

/-- All that the engine's turn can be: nothing while BUSY = 0, else one command, or BadCommand (30_encoding.md R64,
R66). -/
theorem engineTurn_cases (s : State) :
    (s.busy = false ∧ engineTurn s = .next s) ∨
    (s.busy = true ∧ ∃ i, decode s.cmd = .ok i ∧ engineTurn s = exec i s) ∨
    (s.busy = true ∧ (∃ e, decode s.cmd = .error e) ∧ engineTurn s = .next (s.raise ⟨.badCommand, 0⟩)) := by
  unfold engineTurn complete
  cases hb : s.busy with
  | false => exact .inl ⟨rfl, by simp⟩
  | true =>
    cases hd : decode s.cmd with
    | ok i => exact .inr (.inl ⟨rfl, i, rfl, by simp⟩)
    | error e => exact .inr (.inr ⟨rfl, ⟨e, rfl⟩, by simp⟩)

/-- A command that ends in a next state ends in one of two ways: some commit, then `finish`, or `raise`
(30_encoding.md R66; 60_exceptions.md R131). -/
theorem exec_next {i : Instr} {s t : State} (h : exec i s = .next t) :
    (∃ r : Raise, r.kind ≠ .noError ∧ t = s.raise r) ∨
    (match i with
      | .freq => ∃ l, freqOutcome s = .ok l ∧ t = (s.commitFreq l).finish
      | .build => checkFreqs s = .ok () ∧ t = (s.commitTree (buildTree s.freqOperand)).finish
      | .derive => s.treeValid = true ∧ ∃ l, s.leafRows = some l ∧ l.length ≤ 256 ∧ (∀ e ∈ l, e.2.length ≤ 255) ∧
          t = (s.commitTable l).finish
      | .invert => invertOutcome s = .ok () ∧ t = (s.commitValid ()).finish
      | .encode => ∃ b, encodeOutcome s = .ok b ∧ t = (s.commitBits b).finish
      | .decode => ∃ l, decodeOutcome s = .ok l ∧ t = (s.commitText l).finish
      | .ser => ∃ c, serOutcome s = .ok c ∧ t = (s.commitScheme c).finish
      | .parse => ∃ l, parseOutcome s = .ok l ∧ t = (s.commitTable l).finish
      | .pack => ∃ y, packOutcome s = .ok y ∧ t = (s.commitBytes y).finish
      | .unpack => ∃ b, unpackOutcome s = .ok b ∧ t = (s.commitBits b).finish) := by
  have ne : ∀ {k k' : ErrKind}, k = k' → k' ≠ .noError → k ≠ .noError := fun h h' => h ▸ h'
  cases i
  case freq =>
    rcases completeWith_next.mp h with ⟨a, ha, rfl⟩ | ⟨r, hr, rfl⟩
    · exact .inr ⟨a, ha, rfl⟩
    · exact .inl ⟨r, ne (freqOutcome_error hr) (by decide), rfl⟩
  case build =>
    rcases completeWith_next.mp h with ⟨a, ha, rfl⟩ | ⟨r, hr, rfl⟩
    · rcases buildOutcome_cases s with ⟨hc, hb⟩ | ⟨r, -, hb⟩ <;> rw [hb] at ha <;> cases ha
      exact .inr ⟨hc, rfl⟩
    · rcases buildOutcome_cases s with ⟨hc, hb⟩ | ⟨r', hc, hb⟩ <;> rw [hb] at hr <;> cases hr
      refine .inl ⟨r, ?_, rfl⟩
      rcases checkFreqs_error hc with h | h | h <;> rw [h] <;> decide
  case derive =>
    rcases execDerive_cases s with ⟨-, hd⟩ | ⟨hv, l, hl, h1, h2, hd⟩ | ⟨-, -, hd⟩ <;>
      rw [show exec .derive s = execDerive s from rfl, hd] at h <;> cases h
    · exact .inl ⟨_, by decide, rfl⟩
    · exact .inr ⟨hv, l, hl, h1, h2, rfl⟩
  case invert =>
    rcases completeWith_next.mp h with ⟨a, ha, rfl⟩ | ⟨r, hr, rfl⟩
    · exact .inr ⟨ha, rfl⟩
    · refine .inl ⟨r, ?_, rfl⟩
      rcases invertOutcome_error hr with h | h <;> rw [h] <;> decide
  case encode =>
    rcases completeWith_next.mp h with ⟨a, ha, rfl⟩ | ⟨r, hr, rfl⟩
    · exact .inr ⟨a, ha, rfl⟩
    · refine .inl ⟨r, ?_, rfl⟩
      rcases encodeOutcome_error hr with h | h | h <;> rw [h] <;> decide
  case decode =>
    rcases completeWith_next.mp h with ⟨a, ha, rfl⟩ | ⟨r, hr, rfl⟩
    · exact .inr ⟨a, ha, rfl⟩
    · refine .inl ⟨r, ?_, rfl⟩
      rcases decodeOutcome_error hr with h | h | h <;> rw [h] <;> decide
  case ser =>
    rcases completeWith_next.mp h with ⟨a, ha, rfl⟩ | ⟨r, hr, rfl⟩
    · exact .inr ⟨a, ha, rfl⟩
    · refine .inl ⟨r, ?_, rfl⟩
      rcases serOutcome_error hr with h | h | h <;> rw [h] <;> decide
  case parse =>
    rcases completeWith_next.mp h with ⟨a, ha, rfl⟩ | ⟨r, hr, rfl⟩
    · exact .inr ⟨a, ha, rfl⟩
    · refine .inl ⟨r, ?_, rfl⟩
      rcases parseOutcome_error hr with h | h <;> rw [h] <;> decide
  case pack =>
    rcases completeWith_next.mp h with ⟨a, ha, rfl⟩ | ⟨r, hr, rfl⟩
    · exact .inr ⟨a, ha, rfl⟩
    · refine .inl ⟨r, ?_, rfl⟩
      rw [(packOutcome_error hr).1]
      exact fun h => ErrKind.noConfusion h
  case unpack =>
    rcases completeWith_next.mp h with ⟨a, ha, rfl⟩ | ⟨r, hr, rfl⟩
    · exact .inr ⟨a, ha, rfl⟩
    · refine .inl ⟨r, ?_, rfl⟩
      rcases unpackOutcome_error hr with h | h <;> rw [h] <;> decide

/-! ### The inputs do not matter to a command -/

/-- The same outcome with other inputs. -/
def withInputs (l : List Input) : Host.Outcome State Fault Refusal → Host.Outcome State Fault Refusal
  | .next t => .next { t with inputs := l }
  | .fault f => .fault f
  | .refused r => .refused r

theorem completeWith_inputs {α : Type} (s : State) (o : Except Raise α) (c : α → State → State) (l : List Input)
    (h : ∀ a, c a { s with inputs := l } = { c a s with inputs := l }) :
    completeWith { s with inputs := l } o c = withInputs l (completeWith s o c) := by
  cases o with
  | ok a => simp only [completeWith, h]; rfl
  | error r => rfl

theorem walk_inputs (s : State) (l : List Input) (fuel v : Nat) (path : List Bool) :
    State.walk { s with inputs := l } fuel v path = s.walk fuel v path := by
  induction fuel generalizing v path with
  | zero => rfl
  | succ fuel ih => simp only [State.walk, ih]; rfl

theorem leafRows_inputs (s : State) (l : List Input) : State.leafRows { s with inputs := l } = s.leafRows := by
  simp only [State.leafRows, walk_inputs]; rfl

theorem checkRowsFrom_inputs (s : State) (l : List Input) (n i : Nat) (seen : List (Word × List Bool)) :
    checkRowsFrom { s with inputs := l } n i seen = checkRowsFrom s n i seen := by
  induction n generalizing i seen with
  | zero => rfl
  | succ n ih => simp only [checkRowsFrom, ih]; rfl

/-- A command reads and writes no input (30_encoding.md R63). -/
theorem exec_inputs (i : Instr) (s : State) (l : List Input) :
    exec i { s with inputs := l } = withInputs l (exec i s) := by
  cases i
  case freq => exact completeWith_inputs s _ _ l fun _ => rfl
  case build => exact completeWith_inputs s _ _ l fun _ => rfl
  case derive =>
    show execDerive _ = withInputs l (execDerive s)
    simp only [execDerive, leafRows_inputs]
    split
    · split
      · split
        · exact completeWith_inputs s _ _ l fun _ => rfl
        · rfl
      · rfl
    · exact completeWith_inputs s _ _ l fun _ => rfl
  case invert =>
    have : invertOutcome { s with inputs := l } = invertOutcome s := by
      simp only [invertOutcome, checkRowsFrom_inputs]
    show completeWith _ _ _ = _
    rw [this]
    exact completeWith_inputs s _ _ l fun _ => rfl
  case encode => exact completeWith_inputs s _ _ l fun _ => rfl
  case decode => exact completeWith_inputs s _ _ l fun _ => rfl
  case ser => exact completeWith_inputs s _ _ l fun _ => rfl
  case parse => exact completeWith_inputs s _ _ l fun _ => rfl
  case pack => exact completeWith_inputs s _ _ l fun _ => rfl
  case unpack => exact completeWith_inputs s _ _ l fun _ => rfl

/-- Neither does the engine's turn. -/
theorem engineTurn_inputs (s : State) (l : List Input) :
    engineTurn { s with inputs := l } = withInputs l (engineTurn s) := by
  rcases engineTurn_cases s with ⟨hb, h⟩ | ⟨hb, i, hd, h⟩ | ⟨hb, ⟨e, hd⟩, h⟩ <;> rw [h]
  · exact if_neg (by show ¬ s.busy = true; rw [hb]; simp)
  · rw [← exec_inputs]
    refine (if_pos (show s.busy = true from hb)).trans ?_
    show (match decode s.cmd with | .ok i => _ | .error _ => _) = _
    rw [hd]
  · refine (if_pos (show s.busy = true from hb)).trans ?_
    show (match decode s.cmd with | .ok i => _ | .error _ => _) = _
    rw [hd]
    rfl

end Sys2Proof.Laws
end

