-- ==== Sys2Proof/Laws/Tree.lean ====
section
/-! SUPPORT. The two scans of BUILD and its rounds: what they select, how many items and nodes they leave. -/

namespace Sys2Proof.Laws

open Sys2Proof.Machine

/-- One position of the scan (41_tree_build.md R80, R81). -/
theorem leastFrom_cons (ex : Option Nat) (p : Nat) (best : Option (Nat × Item)) (x : Item) (xs : List Item) :
    leastFrom ex p best (x :: xs) =
      leastFrom ex (p + 1)
        (if ex = some p then best
         else match best with
          | none => some (p, x)
          | some (q, y) => if x.weight < y.weight then some (p, x) else some (q, y)) xs := by
  cases best <;> rfl

/-- The scan finds nothing exactly when there is no candidate (41_tree_build.md R80, R81). -/
theorem leastFrom_none {ex : Option Nat} {p : Nat} {best : Option (Nat × Item)} {w : List Item} :
    leastFrom ex p best w = none ↔ best = none ∧ ∀ k, k < w.length → ex = some (p + k) := by
  induction w generalizing p best with
  | nil => simp [leastFrom]
  | cons x w ih =>
    rw [leastFrom_cons, ih]
    constructor
    · rintro ⟨h1, h2⟩
      split at h1
      · next hx =>
        refine ⟨h1, fun k hk => ?_⟩
        cases k with
        | zero => exact hx
        | succ k => rw [h2 k (by simpa using hk)]; congr 1; omega
      · split at h1
        · simp at h1
        · split at h1 <;> simp at h1
    · rintro ⟨rfl, h2⟩
      refine ⟨by rw [if_pos (by simpa using h2 0 (by simp))], fun k hk => ?_⟩
      rw [h2 (k + 1) (by simpa using hk)]
      congr 1; omega

/-- What the scan finds: the candidate it began with, if nothing is lighter, or the first of the lightest
(41_tree_build.md R80, R81). -/
theorem leastFrom_some {ex : Option Nat} {p q : Nat} {best : Option (Nat × Item)} {w : List Item} {x : Item}
    (h : leastFrom ex p best w = some (q, x)) :
    (best = some (q, x) ∧ ∀ j (hj : j < w.length), ex ≠ some (p + j) → x.weight ≤ w[j].weight) ∨
    (∃ k, ∃ hk : k < w.length, q = p + k ∧ w[k] = x ∧ ex ≠ some (p + k) ∧
      (∀ j (hj : j < w.length), ex ≠ some (p + j) → x.weight ≤ w[j].weight) ∧
      (∀ j (hj : j < w.length), j < k → ex ≠ some (p + j) → x.weight < w[j].weight) ∧
      ∀ b, best = some b → x.weight < b.2.weight) := by
  induction w generalizing p best with
  | nil => exact .inl ⟨h, by simp⟩
  | cons y w ih =>
    rw [leastFrom_cons] at h
    have shift : ∀ j, p + 1 + j = p + (j + 1) := by intro j; omega
    rcases ih h with ⟨hb, hle⟩ | ⟨k, hk, rfl, hx, hex, hle, hlt, hbest⟩
    · split at hb
      · next hy =>
        refine .inl ⟨hb, fun j hj hj' => ?_⟩
        cases j with
        | zero => exact absurd hy hj'
        | succ j => exact hle j (by simpa using hj) (by rwa [shift])
      · next hy =>
        split at hb
        · cases hb
          refine .inr ⟨0, by simp, rfl, rfl, hy, fun j hj hj' => ?_, by simp, by simp⟩
          cases j with
          | zero => exact Nat.le_refl _
          | succ j => exact hle j (by simpa using hj) (by rwa [shift])
        · next q' y' =>
          split at hb
          · next hlt =>
            cases hb
            refine .inr ⟨0, by simp, rfl, rfl, hy, fun j hj hj' => ?_, by simp, by simpa using hlt⟩
            cases j with
            | zero => exact Nat.le_refl _
            | succ j => exact hle j (by simpa using hj) (by rwa [shift])
          · next hge =>
            cases hb
            refine .inl ⟨rfl, fun j hj hj' => ?_⟩
            cases j with
            | zero => exact Nat.le_of_not_lt hge
            | succ j => exact hle j (by simpa using hj) (by rwa [shift])
    · have hy : ex ≠ some p → x.weight < y.weight ∧ ∀ b, best = some b → x.weight < b.2.weight := by
        intro hy
        rw [if_neg hy] at hbest
        cases best with
        | none => exact ⟨hbest _ rfl, by simp⟩
        | some b =>
          obtain ⟨q', y'⟩ := b
          by_cases hlt' : y.weight < y'.weight
          · simp only [hlt', if_true, Option.some.injEq, forall_eq'] at hbest
            exact ⟨hbest, by simpa using Nat.lt_trans hbest hlt'⟩
          · simp only [hlt', if_false, Option.some.injEq, forall_eq'] at hbest
            exact ⟨by omega, by simpa using hbest⟩
      refine .inr ⟨k + 1, by simpa using hk, (shift k), by simpa using hx, by rwa [← shift], ?_, ?_, ?_⟩
      · intro j hj hj'
        cases j with
        | zero => exact Nat.le_of_lt (hy hj').1
        | succ j => exact hle j (by simpa using hj) (by rwa [shift])
      · intro j hj hjk hj'
        cases j with
        | zero => exact (hy hj').1
        | succ j => exact hlt j (by simpa using hj) (by omega) (by rwa [shift])
      · intro b hb
        by_cases he : ex = some p
        · rw [if_pos he] at hbest; exact hbest b hb
        · exact (hy he).2 b hb

/-- What `lowest` is (41_tree_build.md R80). -/
theorem lowest_some {w : List Item} {p : Nat} {x : Item} (h : lowest w = some (p, x)) :
    ∃ hp : p < w.length, w[p] = x ∧ (∀ j (hj : j < w.length), x.weight ≤ w[j].weight) ∧
      ∀ j (hj : j < w.length), j < p → x.weight < w[j].weight := by
  rcases leastFrom_some h with ⟨h, -⟩ | ⟨k, hk, rfl, hx, -, hle, hlt, -⟩
  · cases h
  · simp only [Nat.zero_add]
    exact ⟨hk, hx, fun j hj => hle j hj (by simp), fun j hj hjk => hlt j hj hjk (by simp)⟩

/-- What `secondLowest` is (41_tree_build.md R81). -/
theorem secondLowest_some {w : List Item} {lo p : Nat} {x : Item} (h : secondLowest w lo = some (p, x)) :
    ∃ hp : p < w.length, w[p] = x ∧ p ≠ lo ∧ (∀ j (hj : j < w.length), j ≠ lo → x.weight ≤ w[j].weight) ∧
      ∀ j (hj : j < w.length), j < p → j ≠ lo → x.weight < w[j].weight := by
  rcases leastFrom_some h with ⟨h, -⟩ | ⟨k, hk, rfl, hx, hne, hle, hlt, -⟩
  · cases h
  · simp only [Nat.zero_add] at *
    exact ⟨hk, hx, fun h => hne (by rw [h]), fun j hj hjl => hle j hj (by simpa using fun h : lo = j => hjl h.symm),
      fun j hj hjk hjl => hlt j hj hjk (by simpa using fun h : lo = j => hjl h.symm)⟩

theorem lowest_ne_none {w : List Item} (h : w ≠ []) : ∃ p x, lowest w = some (p, x) := by
  cases hl : lowest w with
  | some r => exact ⟨r.1, r.2, rfl⟩
  | none =>
    have := (leastFrom_none.mp hl).2 0 (List.length_pos_iff.mpr h)
    simp at this

theorem secondLowest_ne_none {w : List Item} (lo : Nat) (h : 2 ≤ w.length) :
    ∃ p x, secondLowest w lo = some (p, x) := by
  cases hl : secondLowest w lo with
  | some r => exact ⟨r.1, r.2, rfl⟩
  | none =>
    have h0 := (leastFrom_none.mp hl).2 0 (by omega)
    have h1 := (leastFrom_none.mp hl).2 1 (by omega)
    simp only [Option.some.injEq] at h0 h1
    omega

/-- All that a round does to two or more items (41_tree_build.md R82). -/
theorem mergeRound_cases {w : List Item} (t : List TreeNode) (h : 2 ≤ w.length) :
    ∃ lo hi x y, lowest w = some (lo, x) ∧ secondLowest w lo = some (hi, y) ∧
      mergeRound w t = ((w.set lo ⟨x.weight + y.weight, t.length⟩).eraseIdx hi, t ++ [.branch x.node y.node]) := by
  obtain ⟨lo, x, hl⟩ := lowest_ne_none (w := w) (fun h' => by simp [h'] at h)
  obtain ⟨hi, y, hs⟩ := secondLowest_ne_none lo h
  exact ⟨lo, hi, x, y, hl, hs, by simp [mergeRound, hl, hs]⟩

theorem mergeRound_length {w : List Item} (t : List TreeNode) (h : 2 ≤ w.length) :
    (mergeRound w t).1.length = w.length - 1 ∧ (mergeRound w t).2.length = t.length + 1 := by
  obtain ⟨lo, hi, x, y, -, hs, hm⟩ := mergeRound_cases t h
  obtain ⟨hp, -⟩ := secondLowest_some hs
  rw [hm]
  simp [List.length_eraseIdx, hp]

/-- Each round takes one item away and adds one node (41_tree_build.md R83). -/
theorem mergeRounds_length {k : Nat} {w : List Item} {t : List TreeNode} (h : k < w.length) :
    (mergeRounds k w t).1.length = w.length - k ∧ (mergeRounds k w t).2.length = t.length + k := by
  induction k generalizing w t with
  | zero => simp [mergeRounds]
  | succ k ih =>
    obtain ⟨h1, h2⟩ := mergeRound_length t (w := w) (by omega)
    obtain ⟨h3, h4⟩ := ih (w := (mergeRound w t).1) (t := (mergeRound w t).2) (by omega)
    rw [mergeRounds, h3, h4]
    omega

/-- `N` entries give `2N - 1` nodes (41_tree_build.md R83). -/
theorem buildTree_length {f : List (Word × Word)} (h : 1 ≤ f.length) : (buildTree f).1.length = 2 * f.length - 1 := by
  have := (mergeRounds_length (k := f.length - 1) (w := seedItems f) (t := seedNodes f)
    (by simp [seedItems]; omega)).2
  have hn : (seedNodes f).length = f.length := by simp [seedNodes]
  show (mergeRounds (f.length - 1) (seedItems f) (seedNodes f)).2.length = _
  omega

end Sys2Proof.Laws
end

