-- ==== Sys2Proof/Machine/HostNotation.lean ====
section
/-! DEFINITION. The host's notation (30_encoding.md R70, R71): program lines, pseudo-instructions and their
expansions, and the encode and decode sequences (43_transcode.md R106, R107), which are the host's. -/

namespace Sys2Proof.Machine

/-- A line of a host program (R70). -/
inductive Line where
  /-- `WR a, v` -/
  | wr (a : Addr) (v : Word)
  /-- `RD a` -/
  | rd (a : Addr)
  /-- `RD a [hi:lo] == v`; `RD a == v` is the case hi = 31, lo = 0. -/
  | rdEq (a : Addr) (hi lo : Nat) (v : Nat)
  /-- `WR! a, v` -/
  | wrRefused (a : Addr) (v : Word)
  /-- `RD! a` -/
  | rdRefused (a : Addr)
  deriving DecidableEq, Repr

/-- The transaction of a line (R70). -/
def Line.request : Line → Request
  | .wr a v => .write a v
  | .rd a => .read a
  | .rdEq a _ _ _ => .read a
  | .wrRefused a v => .write a v
  | .rdRefused a => .read a

/-- The encoding of a line: write flag, address, data (R70); a read has no data. -/
def Line.encoding (l : Line) : Bool × Addr × Word :=
  match l.request with
  | .write a v => (true, a, v)
  | .read a => (false, a, 0)

/-- Whether a response is the one the program expects (R70). -/
def Line.met (l : Line) (r : Response) : Bool :=
  match l with
  | .wr _ _ => !r.err
  | .rd _ => !r.err
  | .rdEq _ hi lo v => !r.err && r.rdata.toNat / 2 ^ lo % 2 ^ (hi - lo + 1) == v
  | .wrRefused _ _ => r.err
  | .rdRefused _ => r.err

/-- What a host does: a line, or WAIT (R71) with the error kind it expects of the last STATUS read, if any. -/
inductive HostOp where
  | line (l : Line)
  | wait (expect : Option ErrKind)
  deriving DecidableEq, Repr

/-- `RUN` (R71). -/
def run (i : Instr) : List HostOp := [.line (.wr Location.cmd.addr (encode i))]

/-- `EXEC` (R71): RUN, then WAIT. -/
def execute (i : Instr) : List HostOp := run i ++ [.wait none]

/-- `EXEC -> OK` (R71). -/
def executeOk (i : Instr) : List HostOp := run i ++ [.wait (some .noError)]

/-- `EXEC -> K(info)` (R71). -/
def executeErr (i : Instr) (k : ErrKind) (info : Word) : List HostOp :=
  run i ++ [.wait (some k), .line (.rdEq Location.errInfo.addr 31 0 info.toNat)]

/-- `ACK` (R71). -/
def ack : List HostOp := [.line (.wr Location.status.addr 2)]

/-- One write line per value, at the location of its index. -/
def loadEach {α : Type} (vs : List α) (f : α → Nat → List (Location × Word)) : List HostOp :=
  vs.zipIdx.flatMap fun e => (f e.1 e.2).map fun w => .line (.wr w.1.addr w.2)

/-- The write of a length register. -/
def loadLength (l : Location) (n : Nat) : List HostOp := [.line (.wr l.addr (word n))]

/-- `LDTEXT` (R71). -/
def ldText (t : List Word) : List HostOp :=
  loadEach t (fun v i => [(.text i, v)]) ++ loadLength .textLen t.length

/-- `LDFREQ` (R71). -/
def ldFreq (l : List (Word × Word)) : List HostOp :=
  loadEach l (fun e i => [(.freqCount i, e.1), (.freqSym i, e.2)]) ++ loadLength .nFreq l.length

/-- `LDCODE` (R71). -/
def ldCode (t : List (Word × List Bool)) : List HostOp :=
  loadEach t (fun e i => (.codeSym i, e.1) :: (.codeLen i, word e.2.length) ::
    (slotWords e.2).zipIdx.map fun w => (.codeBits i w.2, w.1)) ++ loadLength .nCode t.length

/-- `LDBITS` (R71). -/
def ldBits (b : List Bool) : List HostOp :=
  loadEach (firstOf ((b.length + 31) / 32) fun k => wordOfSlots fun j => b.getD (32 * k + j) false)
    (fun w k => [(.bitWord k, w)]) ++ loadLength .bitLen b.length

/-- The whole words of a byte list, 0 in the places past its end. -/
def byteWords (y : List Byte) : List Word :=
  firstOf ((y.length + 3) / 4) fun k => wordOfBytes fun m => y.getD (4 * k + m) 0

/-- `LDBYTES` (R71). -/
def ldBytes (y : List Byte) : List HostOp :=
  loadEach (byteWords y) (fun w k => [(.byteWord k, w)]) ++ loadLength .byteLen y.length

/-- `LDSCH` (R71). -/
def ldSch (y : List Byte) : List HostOp :=
  loadEach (byteWords y) (fun w k => [(.schWord k, w)]) ++ loadLength .schLen y.length

/-- The source's encode path for a text (43_transcode.md R106), each command expected to succeed. -/
def encodeSequence (t : List Word) : List HostOp :=
  ldText t ++ executeOk .freq ++ executeOk .build ++ executeOk .derive ++ executeOk .encode

/-- The source's decode path (43_transcode.md R107). -/
def decodeSequence (scheme bytes : List Byte) : List HostOp :=
  ldSch scheme ++ executeOk .parse ++ ldBytes bytes ++ executeOk .unpack ++ executeOk .decode

/-- The inputs of one host operation; a WAIT reads STATUS `busyReads` times before the completion (R71; any
number is legal, log 1). -/
def HostOp.inputs (busyReads : Nat) : HostOp → List Input
  | .line l => [.request l.request]
  | .wait _ => List.replicate busyReads (.request (.read statusAddr)) ++ [.engine, .request (.read statusAddr)]

/-- Whether the newest response is the one the operation expects. -/
def HostOp.met (op : HostOp) (s : State) : Bool :=
  match s.responses with
  | [] => false
  | r :: _ =>
    match op with
    | .line l => l.met r
    | .wait none => true
    | .wait (some k) => r.rdata.getLsbD 1 && r.rdata.extractLsb' 4 4 == k.code

/-- That many steps, as far as the machine goes. -/
def stepMany : Nat → State → Option State
  | 0, s => some s
  | n + 1, s =>
    match step s with
    | .next t => stepMany n t
    | _ => none

/-- A host program run on a block that waits with nothing on its port: the state after it, if every expectation
is met. -/
def runProgram (busyReads : Nat) : List HostOp → State → Option State
  | [], s => some s
  | op :: rest, s =>
    match stepMany (op.inputs busyReads).length { s with inputs := op.inputs busyReads } with
    | none => none
    | some t => if op.met t then runProgram busyReads rest t else none

end Sys2Proof.Machine
end

