-- ==== Sys2Proof/Tests/Slice0.lean ====
section
/-! SUPPORT. The model's own tests: checks that refuse ill-formed terms, words written out from the encoding, one or two
steps per command with the results of 95_test_vectors.md, and for every statement that has hypotheses a state and
operands that meet them. -/

namespace Sys2Proof.Tests

set_option Elab.async false

open Sys2Proof Sys2Proof.Machine Sys2Proof.Safety Sys2Proof.Laws

/-! ### Helpers -/

/-- The outcome is a next state with the property. -/
def nextWith (o : Host.Outcome State Fault Refusal) (p : State → Bool) : Bool :=
  match o with
  | .next t => p t
  | .fault _ => false
  | .refused _ => false

theorem nextWith_exists {o : Host.Outcome State Fault Refusal} {p : State → Bool} (h : nextWith o p = true) :
    ∃ t, o = .next t ∧ p t = true := by
  cases o with
  | next t => exact ⟨t, rfl, h⟩
  | fault r => exact absurd h (by simp [nextWith])
  | refused r => exact absurd h (by simp [nextWith])

/-- The bit-string of `k` digits, most significant first. -/
def bits (k v : Nat) : List Bool := (List.range k).map fun j => v.testBit (k - 1 - j)

/-- After reset, with a text loaded. -/
def textState (t : List Word) : State := State.reset.commitText t
/-- After reset, with a frequency list loaded. -/
def freqState (f : List (Nat × Word)) : State := State.reset.commitFreq f
/-- After reset, with a table loaded and validated. -/
def tableState (t : List (Word × List Bool)) : State := State.reset.commitTable t
/-- After reset, with a bit-string loaded. -/
def bitState (b : List Bool) : State := State.reset.commitBits b
/-- After reset, with bytes loaded. -/
def byteState (y : List Byte) : State := State.reset.commitBytes y
/-- After reset, with a scheme text loaded. -/
def schState (y : List Byte) : State := State.reset.commitScheme y
/-- After reset, with a tree in NODE memory. -/
def treeState (r : List TreeNode × Nat) : State := State.reset.commitTree r

/-- The tree of 95_test_vectors.md S1: leaves 'a', 'b', 'c', 'd', branches (0,1), (4,2), (3,5). -/
def treeS1 : List TreeNode × Nat :=
  ([.leaf 97, .leaf 98, .leaf 99, .leaf 100, .branch 0 1, .branch 4 2, .branch 3 5], 6)

/-- The table of 95_test_vectors.md S3. -/
def tableS3 : List (Word × List Bool) :=
  [(97, bits 1 1), (98, bits 2 1), (99, bits 3 1), (100, bits 4 1)]

/-- The error kind and ERRINFO after a completion. -/
def ends (k : ErrKind) (info : Word) (t : State) : Bool :=
  t.err == k && t.errInfo == info && !t.busy && t.done

/-! ### Well-formedness -/

/-- 30_encoding.md R60: a set bit of RSV is refused, whatever OPC is. -/
theorem test_rsv_refused :
    CmdFormat.rsvOk ⟨1, 0x01⟩ = false ∧ CmdFormat.wellFormed ⟨1, 0x01⟩ = false ∧
    CmdFormat.wellFormed ⟨0x800000, 0x0A⟩ = false := by decide

/-- 30_encoding.md R60: OPC 0x00, 0x0B and 0xFF are refused, 0x01 and 0x0A are not. -/
theorem test_opc_refused :
    CmdFormat.opcOk ⟨0, 0x00⟩ = false ∧ CmdFormat.opcOk ⟨0, 0x0B⟩ = false ∧ CmdFormat.opcOk ⟨0, 0xFF⟩ = false ∧
    CmdFormat.wellFormed ⟨0, 0x00⟩ = false ∧ CmdFormat.wellFormed ⟨0, 0x01⟩ = true ∧
    CmdFormat.wellFormed ⟨0, 0x0A⟩ = true := by decide

/-- Every command is well formed. -/
theorem test_commands_wellFormed : ∀ i : Instr, i.wellFormed = true := by
  intro i; cases i <;> decide

/-! ### Decoding: bits 31..8 RSV, bits 7..0 OPC (30_encoding.md R59, R62) -/

theorem test_decode_freq : decode 0b00000000000000000000000000000001 = .ok .freq := rfl
theorem test_decode_build : decode 0b00000000000000000000000000000010 = .ok .build := rfl
theorem test_decode_derive : decode 0b00000000000000000000000000000011 = .ok .derive := rfl
theorem test_decode_invert : decode 0b00000000000000000000000000000100 = .ok .invert := rfl
theorem test_decode_encode : decode 0b00000000000000000000000000000101 = .ok .encode := rfl
theorem test_decode_decode : decode 0b00000000000000000000000000000110 = .ok .decode := rfl
theorem test_decode_ser : decode 0b00000000000000000000000000000111 = .ok .ser := rfl
theorem test_decode_parse : decode 0b00000000000000000000000000001000 = .ok .parse := rfl
theorem test_decode_pack : decode 0b00000000000000000000000000001001 = .ok .pack := rfl
theorem test_decode_unpack : decode 0b00000000000000000000000000001010 = .ok .unpack := rfl

theorem test_decode_rejects :
    decode 0 = .error .reservedOpcode ∧ decode 0x0B = .error .reservedOpcode ∧
    decode 0x101 = .error .reservedBits ∧ decode 0x80000001 = .error .reservedBits := ⟨rfl, rfl, rfl, rfl⟩

theorem test_decodeTableWord :
    decodeTableWord 32 1 = some .freq ∧ decodeTableWord 32 10 = some .unpack ∧ decodeTableWord 32 11 = none ∧
    decodeTableWord 32 0x100000001 = some .freq ∧ decodeTableWord 40 0x100000001 = none := by decide

/-- The step after `withFetchWord` is the command's own (30_encoding.md R66); here FREQ of the empty text. -/
theorem test_withFetchWord :
    nextWith (step (State.reset.withFetchWord 32 1)) (fun t => ends .noError 0 t && t.cmd == 1 && t.nFreq == 0) = true ∧
    nextWith (step (State.reset.withFetchWord 32 3)) (ends .notReady 0) = true ∧
    nextWith (step (State.reset.withFetchWord 32 11)) (ends .badCommand 0) = true := by decide

/-! ### Commands: one step each, results from 95_test_vectors.md -/

/-- T5: "abracadabra". -/
theorem test_freq_counts :
    nextWith (exec .freq (textState [97, 98, 114, 97, 99, 97, 100, 97, 98, 114, 97])) (fun t =>
      ends .noError 0 t && t.nFreq == 5 && decide (t.freqOperand = [(5, 97), (2, 98), (2, 114), (1, 99), (1, 100)])) =
      true := by decide +kernel

/-- 60_exceptions.md R140: the length is checked before the text is read. -/
theorem test_freq_capacity :
    nextWith (exec .freq { State.reset with textLen := 4097 }) (ends .capacity 4097) = true := by decide +kernel

/-- S1. -/
theorem test_build_tree :
    nextWith (exec .build (freqState [(1, 97), (1, 98), (2, 99), (3, 100)])) (fun t =>
      ends .noError 0 t && t.nNode == 7 && t.root == 6 && t.treeValid &&
      decide ((firstOf 7 fun i => (t.nodeKindAt i).bit) = [false, false, false, false, true, true, true]) &&
      decide (firstOf 7 t.nodeAAt = [97, 98, 99, 100, 0, 4, 3]) &&
      decide (firstOf 7 t.nodeBAt = [0, 0, 0, 0, 1, 2, 5])) = true := by decide +kernel

/-- B-E1: the empty list. -/
theorem test_build_empty : nextWith (exec .build State.reset) (ends .emptyInput 0) = true := by decide +kernel

/-- S1. -/
theorem test_derive_table :
    nextWith (exec .derive (treeState treeS1)) (fun t =>
      ends .noError 0 t && t.tableValid &&
      decide (t.tableOperand = [(100, bits 1 0), (97, bits 3 4), (98, bits 3 5), (99, bits 2 3)])) =
      true := by decide +kernel

/-- S2: the single leaf has the one-bit code "0". -/
theorem test_derive_single :
    nextWith (exec .derive (treeState ([.leaf 97], 0))) (fun t =>
      ends .noError 0 t && decide (t.tableOperand = [(97, [false])])) = true := by decide +kernel

theorem test_invert_ok :
    nextWith (exec .invert { tableState tableS3 with tableValid := false }) (fun t =>
      ends .noError 0 t && t.tableValid) = true := by decide +kernel

/-- I3: a repeated bit-string. -/
theorem test_invert_duplicate :
    nextWith (exec .invert { tableState [(97, bits 1 1), (98, bits 1 1)] with tableValid := false }) (fun t =>
      ends .malformedScheme 1 t && !t.tableValid) = true := by decide +kernel

/-- S3: "abcddcba". -/
theorem test_encode_text :
    nextWith (exec .encode ((tableState tableS3).commitText [97, 98, 99, 100, 100, 99, 98, 97])) (fun t =>
      ends .noError 0 t && t.bitLen == 20 && decide (t.bitOperand = bits 20 0b10100100010001001011)) =
      true := by decide +kernel

theorem test_encode_unknown :
    nextWith (exec .encode ((tableState tableS3).commitText [97, 101])) (ends .unknownSymbol 1) =
      true := by decide +kernel

/-- S3 and S4, one bit stripped. -/
theorem test_decode_bits :
    nextWith (exec .decode ((tableState tableS3).commitBits (bits 19 0b1010010001000100101))) (fun t =>
      ends .noError 0 t && decide (t.textOperand = [97, 98, 99, 100, 100, 99, 98])) = true := by decide +kernel

/-- S4, two bits stripped. -/
theorem test_decode_undecodable :
    nextWith (exec .decode ((tableState tableS3).commitBits (bits 18 0b101001000100010010)))
      (ends .undecodableSequence 17) = true := by decide +kernel

/-- T8: `4294967295:0-0:1`. -/
theorem test_ser_text :
    nextWith (exec .ser (tableState [(0xFFFFFFFF, [false]), (0, [true])])) (fun t =>
      ends .noError 0 t && decide (t.schOperand =
        [0x34, 0x32, 0x39, 0x34, 0x39, 0x36, 0x37, 0x32, 0x39, 0x35, 0x3A, 0x30, 0x2D, 0x30, 0x3A, 0x31])) =
      true := by decide +kernel

theorem test_ser_empty : nextWith (exec .ser (tableState [])) (ends .badOperand 0) = true := by decide +kernel

/-- T3: `97:0-98:1`. -/
theorem test_parse_text :
    nextWith (exec .parse (schState [0x39, 0x37, 0x3A, 0x30, 0x2D, 0x39, 0x38, 0x3A, 0x31])) (fun t =>
      ends .noError 0 t && t.tableValid && decide (t.tableOperand = [(97, [false]), (98, [true])])) =
      true := by decide +kernel

/-- `1:0-2` : the second entry, at position 4, has no colon. -/
theorem test_parse_malformed :
    nextWith (exec .parse (schState [0x31, 0x3A, 0x30, 0x2D, 0x32])) (ends .malformedScheme 4) =
      true := by decide +kernel

/-- S6: "10100". -/
theorem test_pack_bits :
    nextWith (exec .pack (bitState (bits 5 0b10100))) (fun t =>
      ends .noError 0 t && decide (t.byteOperand = [0xA4])) = true := by decide +kernel

/-- S6: eight zeros fill a byte, the sentinel goes into a second one. -/
theorem test_pack_full_byte :
    nextWith (exec .pack (bitState (bits 8 0))) (fun t =>
      ends .noError 0 t && decide (t.byteOperand = [0x00, 0x80])) = true := by decide +kernel

/-- S6: A4 44 B8. -/
theorem test_unpack_bytes :
    nextWith (exec .unpack (byteState [0xA4, 0x44, 0xB8])) (fun t =>
      ends .noError 0 t && decide (t.bitOperand = bits 20 0b10100100010001001011)) = true := by decide +kernel

/-- S4: no 1 anywhere. -/
theorem test_unpack_no_sentinel :
    nextWith (exec .unpack (byteState [0])) (ends .noSentinelFound 1) = true := by decide +kernel

/-! ### The host port -/

/-- 20_memory.md R44: the lower index at the less significant place. -/
theorem test_host_word_order :
    (((State.reset.transact (.write 0x0E000 0x44332211)).1).byteAt 0 = 0x11) ∧
    (((State.reset.transact (.write 0x0C000 1)).1).bitAt 0 = true) ∧
    (((State.reset.transact (.write 0x0C000 1)).1).bitAt 31 = false) := by decide +kernel

/-- 20_memory.md R42: the last mapped word, the first word of a hole, a misaligned address. -/
theorem test_host_refusals :
    (State.reset.transact (.write 0x1FFFC 7)).2.err = false ∧ (State.reset.transact (.read 0x03FF0)).2.err = true ∧
    (State.reset.transact (.read 0x00002)).2.err = true ∧ (State.reset.transact (.write 0x02000 0)).2.err = true := by
  decide +kernel

/-! ### Every run from reset is possible: the encode path of 43_transcode.md R106 on "ab" (T3), from reset -/

theorem test_encode_path :
    ((runProgram 0 (encodeSequence [97, 98]) State.reset).map fun t => (t.bitLen, t.bitOperand)) =
      some (2, [false, true]) := by decide +kernel

/-! ### Witnesses: states and operands that meet the hypotheses of each statement -/

/-- A run of the outcome with a property, from its evaluation. -/
def answers (o : Host.Outcome State Fault Refusal) (p : State → Bool) : Prop := ∃ t, o = .next t ∧ p t = true

/-- After reset, with these inputs to come. -/
def inputState (l : List Input) : State := { State.reset with inputs := l }

theorem witness_LegalWordsAreTheTenCommands :
    (∃ i, decode 0x00000001 = .ok i) ∧ (∃ i, decode 0x0000000A = .ok i) := ⟨⟨_, rfl⟩, ⟨_, rfl⟩⟩

theorem witness_StepRunsTheDecodedCommand :
    ((State.reset.withFetchWord 32 1).busy = true ∧ engineMoves (State.reset.withFetchWord 32 1) = true ∧
      decode (State.reset.withFetchWord 32 1).cmd = .ok .freq) ∧
    (State.reset.busy = false ∧ engineMoves State.reset = true) := ⟨⟨rfl, rfl, rfl⟩, rfl, rfl⟩

theorem witness_AcceptedCmdWriteStartsCommand :
    (inputState [.request (.write 0x00008 1)]).busy = false ∧
    (inputState [.request (.write 0x00008 1)]).inputs = .request (.write 0x00008 1) :: [] := ⟨rfl, rfl⟩

/-- Each of the three ways of being illegal: a bit of RSV, OPC 0, OPC 11. -/
theorem witness_IllegalWordCompletesWithBadCommand :
    ((0x00000101 : Word).toNat / 256 ≠ 0 ∧ (0x00000000 : Word).toNat % 256 = 0 ∧ 10 < (0x0000000B : Word).toNat % 256) ∧
    ∀ w : Word, (inputState [.request (.write 0x00008 w), .engine]).busy = false ∧
      (inputState [.request (.write 0x00008 w), .engine]).inputs = .request (.write 0x00008 w) :: .engine :: [] ∧
      (State.reset.startCommand w).cmd = w ∧ (State.reset.startCommand w).busy = true ∧
      engineMoves (State.reset.startCommand w) = true :=
  ⟨by decide, fun _ => ⟨rfl, rfl, rfl, rfl, rfl⟩⟩

theorem witness_FailingCommandChangesNothingElse :
    answers (exec .freq { State.reset with textLen := 4097 }) (fun t => t.err != .noError) :=
  nextWith_exists (by decide +kernel)

theorem witness_CompletionIdlesWithLegalError : ∀ i : Instr, answers (exec i State.reset) (fun _ => true) := by
  intro i; cases i <;> exact nextWith_exists (by decide +kernel)

/-- A busy block: STATUS read; another request held, also with an illegal word in CMD; an idle block: a request
accepted. -/
theorem witness_RequestsAreHeldWhileBusy :
    (∃ s : State, s.busy = true ∧ s.inputs = [.request (.read 0x0000C)]) ∧
    (∃ s : State, s.busy = true ∧ s.inputs = [.request (.read 0x00000)] ∧ resets s = false ∧
      answers (step s) (fun _ => true)) ∧
    (∃ s : State, s.cmd = 0 ∧ s.busy = true ∧ s.inputs = [.request (.write 0x0000C 2), .engine] ∧ resets s = false ∧
      answers (step s) (fun _ => true)) ∧
    (∃ s : State, s.busy = false ∧ s.inputs = [.request (.read 0x00000)]) :=
  ⟨⟨{ State.reset.startCommand 1 with inputs := [.request (.read 0x0000C)] }, rfl, rfl⟩,
    ⟨{ State.reset.startCommand 1 with inputs := [.request (.read 0x00000)] }, rfl, rfl, rfl,
      nextWith_exists (by decide +kernel)⟩,
    ⟨{ State.reset.startCommand 0 with inputs := [.request (.write 0x0000C 2), .engine] }, rfl, rfl, rfl, rfl,
      nextWith_exists (by decide +kernel)⟩,
    ⟨inputState [.request (.read 0x00000)], rfl, rfl⟩⟩

/-- Refused: misaligned, the first and last word of each hole, a read-only word. Not refused: the words beside them. -/
theorem witness_RefusedAccessesChangeNothing :
    ([(0x00001 : Addr), 0x00014, 0x0001C, 0x00040, 0x00FFC, 0x01800, 0x01FFC, 0x03FF0, 0x03FFC].all fun a =>
      (State.reset.transact (.read a)).2.err) = true ∧
    ([(0x00010 : Addr), 0x00020, 0x0003C, 0x01000, 0x017FC, 0x02000, 0x03FEC, 0x04000, 0x1FFFC].all fun a =>
      !(State.reset.transact (.read a)).2.err) = true ∧
    ([(0x00000 : Addr), 0x00010, 0x00028, 0x0002C, 0x02000, 0x03FEC, 0x00003].all fun a =>
      (State.reset.transact (.write a 5)).2.err) = true := by decide +kernel

/-- The last index of each window; a Leaf and a Branch at the last node. -/
theorem witness_HostReadsSeeElements :
    255 < 256 ∧ 510 < 511 ∧ 4095 < 4096 ∧ 2047 < 2048 ∧ 16383 < 16384 ∧
    ({ State.reset with mem := { Buffers.unwritten with nodeKind := [(510, .leaf)] } } : State).nodeKindAt 510 = .leaf ∧
    ({ State.reset with mem := { Buffers.unwritten with nodeKind := [(510, .branch)] } } : State).nodeKindAt 510 =
      .branch := by decide

/-- The last index of each window, and elements outside the written word. -/
theorem witness_HostWritesStoreElements :
    255 < 256 ∧ 7 < 8 ∧ 4095 < 4096 ∧ 2047 < 2048 ∧ 16383 < 16384 ∧ (254 ≠ 255 ∨ 255 / 32 ≠ 7) ∧
    (255 ≠ 255 ∨ 223 / 32 ≠ 7) ∧ 65503 / 32 ≠ 2047 ∧ 8187 / 4 ≠ 2047 ∧ 65531 / 4 ≠ 16383 := by decide

theorem witness_CtrlWriteAndSoftReset :
    (0x00000001 : Word).getLsbD 1 = false ∧ (0x00000002 : Word).getLsbD 1 = true ∧ State.reset.busy = false := by decide

/-- The last entry and word; two values that differ in the reserved bits only. -/
theorem witness_ReservedPlacesReadZero :
    255 < 256 ∧ 5 < 6 ∧ 510 < 511 ∧ (0xFFFFFFFC : Word).getLsbD 0 = (0 : Word).getLsbD 0 ∧
    (0xFFFFFFFC : Word).getLsbD 1 = (0 : Word).getLsbD 1 := by decide

theorem witness_EachAcceptedRequestGetsOneResponse :
    answers (step (inputState [.request (.read 0)])) (fun t => t.responses.length == 1) ∧
    answers (step (inputState [.hardReset])) (fun t => t.responses.length == 0) ∧
    answers (step (inputState [.engine, .hardReset])) (fun t => t.responses.length == 0 && t.inputs == [.hardReset]) :=
  ⟨nextWith_exists (by decide +kernel), nextWith_exists (by decide +kernel), nextWith_exists (by decide +kernel)⟩

theorem witness_HardResetClearsRegisters :
    (inputState [.hardReset]).inputs = .hardReset :: [] ∧
    ∃ (s : State) (r : Request), s.accepts r = false ∧ s.inputs = .request r :: .hardReset :: [] :=
  ⟨rfl, { State.reset.startCommand 1 with inputs := [.request (.read 0), .hardReset] }, .read 0, rfl, rfl⟩

theorem witness_InterruptIsLevelOfDone :
    answers (exec .pack State.reset) (fun _ => true) ∧
    ((State.reset.startCommand 0).busy = true ∧ engineMoves (State.reset.startCommand 0) = true ∧
      answers (step (State.reset.startCommand 0)) (fun _ => true)) ∧ (2 : Word).getLsbD 1 = true ∧ (1 : Word).getLsbD 1 = false ∧
    resets (inputState [.hardReset]) = true ∧ answers (step (inputState [.hardReset])) (fun _ => true) :=
  ⟨nextWith_exists (by decide +kernel), ⟨rfl, rfl, nextWith_exists (by decide +kernel)⟩, rfl, rfl, rfl,
    nextWith_exists (by decide +kernel)⟩

/-- A step that sets each flag: BUSY by a CMD write, DONE and ERR by a completion, TREEVALID by BUILD, TVALID by DERIVE,
INVERT and PARSE. -/
theorem witness_FlagsAreSetOnlyAsTabulated :
    answers (step (inputState [.request (.write 0x00008 1)])) (fun t => t.busy) ∧
    answers (step (State.reset.withFetchWord 32 1)) (fun t => t.done) ∧
    answers (step (State.reset.withFetchWord 32 2)) (fun t => t.err != .noError) ∧
    answers (step ((freqState [(1, 97)]).withFetchWord 32 2)) (fun t => t.treeValid) ∧
    answers (step ((treeState treeS1).withFetchWord 32 3)) (fun t => t.tableValid) ∧
    answers (step (State.reset.withFetchWord 32 4)) (fun t => t.tableValid) ∧
    answers (step ((schState [0x37, 0x3A, 0x30]).withFetchWord 32 8)) (fun t => t.tableValid) :=
  ⟨nextWith_exists (by decide +kernel), nextWith_exists (by decide +kernel), nextWith_exists (by decide +kernel),
    nextWith_exists (by decide +kernel), nextWith_exists (by decide +kernel), nextWith_exists (by decide +kernel),
    nextWith_exists (by decide +kernel)⟩

/-- An idle block after an error, every flag but BUSY being 1. -/
def flagged (l : List Input) : State :=
  { State.reset with done := true, err := .capacity, errInfo := 7, treeValid := true, tableValid := true, inputs := l }

/-- A step that clears each flag. -/
theorem witness_FlagsAreClearedOnlyAsTabulated :
    (∀ l, StatusOk (flagged l)) ∧ StatusOk (State.reset.startCommand 1) ∧
    answers (step (State.reset.startCommand 1)) (fun t => !t.busy) ∧
    answers (step (flagged [.request (.write 0x00008 1)])) (fun t => !t.done && t.err == .noError) ∧
    answers (step (flagged [.request (.write 0x0000C 2)])) (fun t => !t.done) ∧
    answers (step (flagged [.request (.write 0x00004 2)])) (fun t => !t.done && t.err == .noError && !t.treeValid) ∧
    answers (step (flagged [.hardReset])) (fun t => !t.done && t.err == .noError && !t.treeValid && !t.tableValid) ∧
    answers (step (flagged [.request (.write 0x00030 0)])) (fun t => !t.tableValid) ∧
    answers (step (flagged [.request (.write 0x04000 0)])) (fun t => !t.tableValid) ∧
    answers (step (flagged [.request (.write 0x07FFC 0)])) (fun t => !t.tableValid) :=
  ⟨fun l => ⟨by simp [flagged, State.reset], by simp [flagged, State.reset], by simp [flagged]⟩, by decide,
    nextWith_exists (by decide +kernel), nextWith_exists (by decide +kernel), nextWith_exists (by decide +kernel),
    nextWith_exists (by decide +kernel), nextWith_exists (by decide +kernel), nextWith_exists (by decide +kernel),
    nextWith_exists (by decide +kernel), nextWith_exists (by decide +kernel)⟩

theorem witness_TreeChangesOnlyByBuildOrReset :
    answers (step (flagged [])) (fun _ => true) ∧ ¬ Completes (flagged []) .build ∧ resets (flagged []) = false ∧
    ¬ softResets (flagged []) :=
  ⟨nextWith_exists (by decide +kernel), fun h => Bool.noConfusion h.1, rfl, fun ⟨_, h, _⟩ => by cases h⟩

theorem witness_StepKeepsStatusRegisters :
    StatusOk (State.reset.startCommand 1) ∧ answers (step (State.reset.startCommand 1)) (fun _ => true) :=
  ⟨by decide, nextWith_exists (by decide +kernel)⟩

theorem witness_StepKeepsMemoryCanonical :
    MemoryOk (bitState [true]) ∧ answers (step ((bitState [true]).withFetchWord 32 9)) (fun t => t.err == .noError) :=
  ⟨by decide, nextWith_exists (by decide +kernel)⟩

/-- TREEVALID set by the step, and TREEVALID kept by the step. -/
theorem witness_StepKeepsTreeInvariant :
    ((freqState [(1, 97), (1, 98)]).treeValid = false ∧
      answers (step ((freqState [(1, 97), (1, 98)]).withFetchWord 32 2)) (fun t => t.treeValid)) ∧
    (TreeOk (treeState treeS1) ∧ answers (step (treeState treeS1)) (fun t => t.treeValid)) :=
  ⟨⟨rfl, nextWith_exists (by decide +kernel)⟩, by decide +kernel, nextWith_exists (by decide +kernel)⟩

theorem witness_StepKeepsTableInvariant :
    TreeOk ((treeState treeS1).withFetchWord 32 3) ∧ (treeState treeS1).tableValid = false ∧
    answers (step ((treeState treeS1).withFetchWord 32 3)) (fun t => t.tableValid) ∧
    TableOk (tableState tableS3) ∧ answers (step (tableState tableS3)) (fun t => t.tableValid) :=
  ⟨by decide +kernel, rfl, nextWith_exists (by decide +kernel), by decide +kernel, nextWith_exists (by decide +kernel)⟩

/-- The invariant with both a valid tree and a valid table. -/
theorem witness_InvariantStatesStepForever : Inv ((treeState treeS1).commitTable tableS3) := by
  refine ⟨by decide, by decide +kernel, fun _ => by decide +kernel, fun _ => by decide +kernel⟩

/-- No hard reset among the inputs, a STATUS read and a held request being there; and a hard reset. -/
theorem witness_EveryStartedCommandCompletes :
    ∀ l ∈ [[], [Input.request (.read 0x0000C), .request (.write 0x00020 7), .engine], [.hardReset]],
      Inv { State.reset.startCommand 1 with inputs := l } ∧ (State.reset.startCommand 1).busy = true :=
  fun _ _ => ⟨⟨⟨by simp, fun _ => rfl, fun _ => rfl⟩, wf_unwritten, fun h => Bool.noConfusion h, fun h => Bool.noConfusion h⟩, rfl⟩

theorem witness_EveryStartedCommandCompletes_noReset :
    Input.hardReset ∉ [Input.request (.read 0x0000C), .request (.write 0x00020 7), .engine] := by decide

/-- A text of one symbol, repeated. -/
theorem textState_replicate {n : Nat} (h : n ≤ 4096) (a : Word) :
    (textState (List.replicate n a)).textOperand = List.replicate n a ∧
    (textState (List.replicate n a)).textLen.toNat = n := by
  refine ⟨commitText_textOperand _ (by rw [List.length_replicate]; omega), ?_⟩
  rw [textState, commitText_textLen, List.length_replicate, word_toNat (by omega)]

theorem eraseDups_replicate (n : Nat) (a : Word) : (List.replicate (n + 1) a).eraseDups = [a] := by
  rw [List.replicate_succ, List.eraseDups_cons]
  have : (List.replicate n a).filter (fun b => !b == a) = [] := by
    rw [List.filter_eq_nil_iff]
    intro b hb
    simp [(List.mem_replicate.mp hb).2]
  rw [this]
  rfl

theorem eraseDups_of_nodup {l : List Word} (h : l.Nodup) : l.eraseDups = l := by
  induction l with
  | nil => rfl
  | cons a l ih =>
    rw [List.nodup_cons] at h
    have : l.filter (fun b => !b == a) = l := by
      rw [List.filter_eq_self]
      intro b hb
      have : b ≠ a := fun h' => h.1 (h' ▸ hb)
      simpa using this
    rw [List.eraseDups_cons, this, ih h.2]

/-- Words of different small numbers are different. -/
theorem nodup_words {n : Nat} (h : n ≤ 2 ^ 32) : ((List.range n).map word).Nodup := by
  refine List.Nodup.map_on (fun i hi j hj hij => ?_) List.nodup_range
  have := congrArg BitVec.toNat hij
  rwa [word_toNat (by have := List.mem_range.mp hi; omega), word_toNat (by have := List.mem_range.mp hj; omega)] at this

/-- A text of distinct symbols. -/
theorem textState_words {n : Nat} (h : n ≤ 4096) :
    (textState ((List.range n).map word)).textOperand = (List.range n).map word ∧
    (textState ((List.range n).map word)).textLen.toNat = n := by
  have hl : ((List.range n).map word).length = n := by rw [List.length_map, List.length_range]
  refine ⟨commitText_textOperand _ (by omega), ?_⟩
  rw [textState, commitText_textLen, hl, word_toNat (by omega)]

/-- The longest text; the most distinct symbols. -/
theorem witness_FreqCountsTheText :
    ((textState (List.replicate 4096 7)).textLen.toNat = 4096 ∧
      (textState (List.replicate 4096 7)).textOperand.eraseDups.length = 1) ∧
    ((textState ((List.range 256).map word)).textLen.toNat = 256 ∧
      (textState ((List.range 256).map word)).textOperand.eraseDups.length = 256) := by
  have h := textState_replicate (Nat.le_refl 4096) 7
  have h' := textState_words (show 256 ≤ 4096 by omega)
  refine ⟨⟨h.2, ?_⟩, h'.2, ?_⟩
  · rw [h.1, eraseDups_replicate 4095]; rfl
  · rw [h'.1, eraseDups_of_nodup (nodup_words (by omega)), List.length_map, List.length_range]

/-- 4097 symbols; the 257th distinct symbol at index 256. -/
theorem witness_FreqCapacityErrors :
    4096 < ({ State.reset with textLen := 4097 } : State).textLen.toNat ∧
    ((textState ((List.range 257).map word)).textLen.toNat = 257 ∧
      ((textState ((List.range 257).map word)).textOperand.take 256).eraseDups.length = 256 ∧
      (textState ((List.range 257).map word)).textAt 256 ∉
        (textState ((List.range 257).map word)).textOperand.take 256) := by
  have h := textState_words (show 257 ≤ 4096 by omega)
  have ht : ((List.range 257).map word).take 256 = (List.range 256).map word := by
    rw [← List.map_take, List.take_range]; rfl
  have ha : (textState ((List.range 257).map word)).textAt 256 = word 256 := by
    simp [textState, commitText_textAt]
  rw [h.1, ht, ha]
  refine ⟨by decide, h.2, ?_, fun hm => ?_⟩
  · rw [eraseDups_of_nodup (nodup_words (by omega)), List.length_map, List.length_range]
  · obtain ⟨i, hi, hij⟩ := List.mem_map.mp hm
    have hi' := List.mem_range.mp hi
    have := congrArg BitVec.toNat hij
    rw [word_toNat (by omega), word_toNat (by omega)] at this
    omega

/-- The largest count; the longest list. -/
theorem witness_BuildMergesGreedily :
    FreqListOk (freqState [(4294967295, 5)]).freqOperand ∧
    FreqListOk (freqState ((List.range 256).map fun i => (1, word i))).freqOperand := by
  have h : (freqState ((List.range 256).map fun i => (1, word i))).freqOperand =
      (List.range 256).map fun i => (1, word i) := by
    rw [freqState, commitFreq_freqOperand _ (by rw [List.length_map, List.length_range]; omega), List.map_map]
    rfl
  have hn : ((List.range 256).map fun i => ((1 : Word), word i)).length = 256 := by
    rw [List.length_map, List.length_range]
  have h1 : (freqState [(4294967295, 5)]).freqOperand = [(4294967295, 5)] := by decide +kernel
  rw [h, h1]
  refine ⟨⟨by decide, by decide, fun e he => ?_, by decide, by decide⟩, ?_⟩
  · rw [List.mem_singleton.mp he]; exact by decide
  refine ⟨by omega, by rw [hn], fun e he => ?_, ?_, by decide +kernel⟩
  · obtain ⟨i, -, rfl⟩ := List.mem_map.mp he
    exact (by decide : (1 : Word) ≠ 0)
  · rw [List.map_map]
    exact nodup_words (by omega)

/-- Zero entries, 257 entries; a zero count, a repeated symbol, a sum of 2^32. -/
theorem witness_BuildOperandErrors :
    State.reset.nFreq = 0 ∧ 256 < ({ State.reset with nFreq := 257 } : State).nFreq.toNat ∧
    (freqState [(0, 5)]).freqCountAt 0 = 0 ∧
    (freqState [(1, 5), (1, 5)]).freqSymAt 1 ∈ ((freqState [(1, 5), (1, 5)]).freqOperand.take 1).map Prod.snd ∧
    ((freqState [(4294967295, 5), (1, 6)]).freqCountAt 1 ≠ 0 ∧
      (freqState [(4294967295, 5), (1, 6)]).freqSymAt 1 ∉
        ((freqState [(4294967295, 5), (1, 6)]).freqOperand.take 1).map Prod.snd ∧
      countSum ((freqState [(4294967295, 5), (1, 6)]).freqOperand.take 1) ≤ 4294967295 ∧
      4294967295 < countSum ((freqState [(4294967295, 5), (1, 6)]).freqOperand.take 2)) := by decide +kernel

theorem witness_PriorityQueueBuildsTheSameTree : 1 ≤ [((1 : Word), (97 : Word))].length := by decide

/-- A single leaf; four leaves. -/
theorem witness_DeriveWalksTheTree :
    ((treeState ([.leaf 97], 0)).treeValid = true ∧ TreeOk (treeState ([.leaf 97], 0)) ∧
      leafCount (treeState ([.leaf 97], 0)) = 1) ∧
    ((treeState treeS1).treeValid = true ∧ TreeOk (treeState treeS1) ∧ leafCount (treeState treeS1) = 4) := by
  decide +kernel

theorem witness_DerivedTableIsPrefixFree :
    (treeState treeS1).treeValid = true ∧ TreeOk (treeState treeS1) := by decide +kernel

theorem witness_NotReadyBeforeAnythingElse :
    State.reset.treeValid = false ∧ State.reset.tableValid = false := ⟨rfl, rfl⟩

/-- The empty table; four rows. -/
theorem witness_InvertValidatesTheTable : TableOk State.reset ∧ TableOk (tableState tableS3) := by decide +kernel

/-- Length 0, length 256, a repeated symbol, a repeated bit-string. -/
theorem witness_InvertReportsFirstDefect :
    256 < ({ State.reset with nCode := 257 } : State).nCode.toNat ∧
    (tableState [(97, [])]).codeLenAt 0 = 0 ∧
    255 < ((tableState [(97, List.replicate 256 false)]).codeLenAt 0).toNat ∧
    ((tableState [(97, [true]), (97, [false])]).codeSymAt 0 = (tableState [(97, [true]), (97, [false])]).codeSymAt 1 ∧
      ((tableState [(97, [true]), (97, [false])]).codeLenAt 1).toNat = 1) ∧
    ((tableState [(97, [true]), (98, [true])]).codeString 0 = (tableState [(97, [true]), (98, [true])]).codeString 1 ∧
      ((tableState [(97, [true]), (98, [true])]).codeLenAt 0).toNat = 1) := by decide +kernel

/-- A table of one row: the code of 97 is `m` zeros. -/
def oneRow (m : Nat) : List (Word × List Bool) := [(97, List.replicate m false)]

theorem codeOf_oneRow (m : Nat) : CodeOf (oneRow m) 97 (List.replicate m false) := ⟨0, rfl, by simp⟩

theorem tableOperand_oneRow {m : Nat} (h : m ≤ 255) (t : List Word) :
    ((tableState (oneRow m)).commitText t).tableOperand = oneRow m := by
  rw [commitText_tableOperand]
  exact commitTable_tableOperand _ (by simp [oneRow]) (by simp [oneRow]; omega)

theorem encode_oneRow {m n : Nat} (hm : m ≤ 255) (hn : n ≤ 4096) :
    ((tableState (oneRow m)).commitText (List.replicate n 97)).textOperand = List.replicate n 97 ∧
    ((tableState (oneRow m)).commitText (List.replicate n 97)).textLen.toNat = n ∧
    ∀ sym ∈ List.replicate n (97 : Word), CodeOf
      ((tableState (oneRow m)).commitText (List.replicate n 97)).tableOperand sym (List.replicate m false) := by
  refine ⟨commitText_textOperand _ (by rw [List.length_replicate]; omega), ?_, fun sym h => ?_⟩
  · rw [commitText_textLen, List.length_replicate, word_toNat (by omega)]
  · rw [tableOperand_oneRow hm, (List.mem_replicate.mp h).2]
    exact codeOf_oneRow m

theorem codes_length (m n : Nat) :
    ((List.replicate n (97 : Word)).flatMap fun _ => List.replicate m false).length = n * m := by
  induction n with
  | zero => simp
  | succ n ih => rw [List.replicate_succ, List.flatMap_cons, List.length_append, ih, List.length_replicate, Nat.succ_mul]; omega

/-- The longest text with 16-bit codes fills BIT memory. -/
theorem witness_EncodeConcatenatesCodes :
    let s := (tableState (oneRow 16)).commitText (List.replicate 4096 97)
    s.tableValid = true ∧ s.textLen.toNat = 4096 ∧
    (∀ sym ∈ s.textOperand, CodeOf s.tableOperand sym (List.replicate 16 false)) ∧
    (s.textOperand.flatMap fun _ => List.replicate 16 false).length = 65536 := by
  intro s
  obtain ⟨h1, h2, h3⟩ := encode_oneRow (show 16 ≤ 255 by omega) (Nat.le_refl 4096)
  refine ⟨rfl, h2, ?_, ?_⟩
  · rw [h1]; exact h3
  · rw [h1, codes_length]

/-- A text length of 4097; a symbol not in the table. -/
theorem witness_EncodeReportsFirstError :
    4096 < ({ tableState tableS3 with textLen := 4097 } : State).textLen.toNat ∧
    (((tableState tableS3).commitText [101]).textLen.toNat = 1 ∧
      ∀ e ∈ ((tableState tableS3).commitText [101]).tableOperand,
        e.1 ≠ ((tableState tableS3).commitText [101]).textAt 0) := by decide +kernel

/-- The code that would pass 65536 bits: 257 codes of 255 bits are 65535. -/
theorem witness_EncodeReportsFirstError_capacity :
    let s := (tableState (oneRow 255)).commitText (List.replicate 258 97)
    s.tableValid = true ∧ s.textLen.toNat = 258 ∧
    (∀ sym ∈ s.textOperand.take 257, CodeOf s.tableOperand sym (List.replicate 255 false)) ∧
    ((s.textOperand.take 257).flatMap fun _ => List.replicate 255 false).length = 65535 ∧
    CodeOf s.tableOperand (s.textAt 257) (List.replicate 255 false) ∧ (List.replicate 255 false).length = 255 := by
  intro s
  obtain ⟨h1, h2, h3⟩ := encode_oneRow (show 255 ≤ 255 by omega) (show 258 ≤ 4096 by omega)
  have h4 : s.textAt 257 = 97 := by
    have : 257 < (List.replicate 258 (97 : Word)).length := by rw [List.length_replicate]; omega
    rw [show s.textAt 257 = _ from commitText_textAt _ _ _, dif_pos this, List.getElem_replicate]
  refine ⟨rfl, h2, ?_, ?_, ?_, List.length_replicate⟩
  · rw [h1]; exact fun sym h => h3 sym (List.mem_of_mem_take h)
  · rw [h1, List.take_replicate, codes_length]; rfl
  · rw [h4]; exact h3 97 (List.mem_replicate.mpr ⟨by omega, rfl⟩)

/-- The code at the front of anything is the shortest match in a table of one row. -/
theorem shortestMatch_oneRow {m : Nat} (h1 : 1 ≤ m) (h2 : m ≤ 255) (rest : List Bool) :
    ShortestMatch (oneRow m) (List.replicate m false ++ rest) (List.replicate m false) 97 := by
  refine ⟨List.prefix_append _ _, ?_, by simpa using h2, ⟨0, rfl, by simp⟩, fun c _ _ hc e he => ?_⟩
  · exact fun h => by have := congrArg List.length h; simp at this; omega
  · rw [oneRow, List.mem_singleton] at he
    subst he
    exact fun h => by rw [← h] at hc; simp at hc

/-- `n` codes scan to `n` symbols. -/
theorem scans_oneRow {m : Nat} (h1 : 1 ≤ m) (h2 : m ≤ 255) (n : Nat) (rest : List Bool) :
    Scans (oneRow m) rest (List.replicate n (List.replicate m false)).flatten (List.replicate n 97) := by
  induction n with
  | zero => exact .done
  | succ n ih =>
    rw [List.replicate_succ, List.flatten_cons, List.replicate_succ]
    refine .emit _ _ _ _ ?_ ih
    rw [List.append_assoc]
    exact shortestMatch_oneRow h1 h2 _

theorem flatten_codes_length (m n : Nat) :
    (List.replicate n (List.replicate m false)).flatten.length = n * m := by
  induction n with
  | zero => simp
  | succ n ih => rw [List.replicate_succ, List.flatten_cons, List.length_append, ih, List.length_replicate, Nat.succ_mul]; omega

/-- A bit-string loaded beside a table of one row. -/
theorem decode_oneRow {m : Nat} (hm : m ≤ 255) {b : List Bool} (hb : b.length ≤ 65536) :
    ((tableState (oneRow m)).commitBits b).tableValid = true ∧ ((tableState (oneRow m)).commitBits b).bitOperand = b ∧
    ((tableState (oneRow m)).commitBits b).bitLen.toNat = b.length ∧
    ((tableState (oneRow m)).commitBits b).tableOperand = oneRow m := by
  refine ⟨rfl, commitBits_bitOperand _ (by omega), ?_, ?_⟩
  · rw [commitBits_bitLen, word_toNat (by omega)]
  · exact (commitBits_tableOperand _ _).trans
      (commitTable_tableOperand _ (by simp [oneRow]) (by simp [oneRow]; omega))

/-- 4096 symbols of 16 bits each: the longest bit-string and the longest text. -/
theorem witness_DecodeTakesShortestMatches :
    let s := (tableState (oneRow 16)).commitBits (List.replicate 4096 (List.replicate 16 false)).flatten
    s.tableValid = true ∧ s.bitLen.toNat = 65536 ∧ Scans s.tableOperand [] s.bitOperand (List.replicate 4096 97) ∧
    (List.replicate 4096 (97 : Word)).length ≤ 4096 := by
  intro s
  obtain ⟨h1, h2, h3, h4⟩ := decode_oneRow (m := 16) (by omega)
    (b := (List.replicate 4096 (List.replicate 16 false)).flatten) (by rw [flatten_codes_length])
  refine ⟨h1, by rw [h3, flatten_codes_length], ?_, by rw [List.length_replicate]⟩
  rw [h2, h4]
  exact scans_oneRow (by omega) (by omega) 4096 []

/-- A length of 65537; a bit that starts no code; the code of the 4097th symbol. `decode_oneRow` loads these
bit-strings. -/
theorem witness_DecodeReportsPosition :
    65536 < ({ tableState tableS3 with bitLen := 65537 } : State).bitLen.toNat ∧
    (Scans (oneRow 1) [true] (List.replicate 1 (List.replicate 1 false)).flatten (List.replicate 1 97) ∧
      NoMatch (oneRow 1) [true]) ∧
    (Scans (oneRow 1) (List.replicate 1 false) (List.replicate 4096 (List.replicate 1 false)).flatten
        (List.replicate 4096 97) ∧
      (List.replicate 4096 (97 : Word)).length = 4096 ∧
      ShortestMatch (oneRow 1) (List.replicate 1 false ++ []) (List.replicate 1 false) 97) := by
  refine ⟨by decide, ⟨scans_oneRow (by omega) (by omega) 1 _, ?_⟩,
    scans_oneRow (by omega) (by omega) 4096 _, List.length_replicate, shortestMatch_oneRow (by omega) (by omega) []⟩
  intro c hc hne _ e he h
  rw [oneRow, List.mem_singleton] at he
  subst he
  rw [← h] at hc
  exact absurd hc (by decide)

/-- `97:0`. -/
theorem witness_SerRendersTheTable :
    joinEntries ((tableState [(97, [false])]).tableOperand.map fun e =>
      decimalChars e.1.toNat ++ [0x3A] ++ e.2.map fun x => if x then (0x31 : Byte) else 0x30) =
      [0x39, 0x37, 0x3A, 0x30] ∧
    (tableState [(97, [false])]).tableValid = true ∧ (tableState [(97, [false])]).nCode ≠ 0 := by decide +kernel

theorem joinEntries_length (l : List (List Byte)) (h : l ≠ []) :
    (joinEntries l).length + 1 = (l.map fun e => e.length + 1).sum := by
  induction l with
  | nil => exact absurd rfl h
  | cons e l ih =>
    cases l with
    | nil => simp [joinEntries, List.intercalate]
    | cons f l =>
      have := ih (by simp)
      simp only [joinEntries, List.intercalate, List.intersperse_cons_cons, List.flatten_cons, List.length_append,
        List.map_cons, List.sum_cons, List.length_singleton] at this ⊢
      omega

/-- The text of `k` entries of `n` characters. -/
theorem joinEntries_length_uniform {l : List (List Byte)} {n : Nat} (h : ∀ e ∈ l, e.length = n) {k : Nat} (hk : 1 ≤ k)
    (hl : k ≤ l.length) : (joinEntries (l.take k)).length + 1 = k * (n + 1) := by
  have hlen : (l.take k).length = k := by rw [List.length_take]; omega
  rw [joinEntries_length _ (fun h0 => by rw [h0, List.length_nil] at hlen; omega)]
  rw [List.map_congr_left (g := fun _ => n + 1) fun e he => by rw [h e (List.mem_of_mem_take he)]]
  rw [List.map_const', List.sum_replicate, hlen, smul_eq_mul]

/-- 256 rows of ten-digit symbols and 255-bit strings: 266 characters each, 267 with the delimiter. -/
def longTable : List (Word × List Bool) :=
  (List.range 256).map fun i => (word (4294967040 + i), List.replicate 247 false ++ bits 8 i)

/-- The rows' texts. -/
def longEntries : List (List Byte) :=
  longTable.map fun e => decimalChars e.1.toNat ++ [0x3A] ++ e.2.map fun x => if x then (0x31 : Byte) else 0x30

theorem longEntries_length : ∀ e ∈ longEntries, e.length = 266 := by
  have hall : ((List.range 256).all fun i => (Nat.toDigits 10 (word (4294967040 + i)).toNat).length == 10) = true := by
    decide +kernel
  intro e he
  obtain ⟨row, hrow, rfl⟩ := List.mem_map.mp he
  obtain ⟨i, hi, rfl⟩ := List.mem_map.mp hrow
  have : (Nat.toDigits 10 (word (4294967040 + i)).toNat).length = 10 := by simpa using List.all_eq_true.mp hall i hi
  rw [List.length_append, List.length_append, List.length_map, List.length_append, List.length_replicate, decimalChars,
    List.length_map, this, bits, List.length_map, List.length_range, List.length_singleton]

/-- The empty table; entry 245 takes the text from 65414 to 65681 characters. -/
theorem witness_SerReportsFirstError :
    ((tableState []).tableValid = true ∧ (tableState []).nCode = 0) ∧
    ((tableState longTable).tableValid = true ∧ (tableState longTable).nCode.toNat = 256 ∧
      (tableState longTable).tableOperand = longTable ∧
      (joinEntries (longEntries.take 245)).length = 65414 ∧ (joinEntries (longEntries.take 246)).length = 65681) := by
  have hl : longTable.length = 256 := by rw [longTable, List.length_map, List.length_range]
  have hl' : longEntries.length = 256 := by rw [longEntries, List.length_map, hl]
  have h1 := joinEntries_length_uniform longEntries_length (k := 245) (by omega) (by omega)
  have h2 := joinEntries_length_uniform longEntries_length (k := 246) (by omega) (by omega)
  refine ⟨⟨rfl, rfl⟩, rfl, ?_, ?_, by omega, by omega⟩
  · rw [tableState, commitTable_nCode, hl]; rfl
  · refine commitTable_tableOperand _ (by omega) (fun e he => ?_)
    obtain ⟨i, -, rfl⟩ := List.mem_map.mp he
    rw [List.length_append, List.length_replicate, bits, List.length_map, List.length_range]
    omega

/-- Entry `i` of a scheme text with 256 rows: three digits, a colon, eight bits. -/
def shortKey (i : Nat) : List Byte := [digitChar (i / 100), digitChar (i / 10 % 10), digitChar (i % 10)]
def shortEntry (i : Nat) : List Byte := shortKey i ++ [0x3A] ++ (bits 8 i).map fun x => if x then 0x31 else 0x30
def shortRow (i : Nat) : Word × List Bool := (word i, bits 8 i)

theorem shortEntry_parses {i : Nat} (h : i < 256) : EntryParses (shortEntry i) (shortRow i) := by
  have d : ∀ n, n < 10 → (digitChar n).toNat = 48 + n := by decide
  have h1 := d (i / 100) (by omega)
  have h2 := d (i / 10 % 10) (by omega)
  have h3 := d (i % 10) (by omega)
  refine ⟨shortKey i, _, rfl, ⟨by simp [shortKey], fun c hc => ?_, ?_⟩, by simp [bits], rfl⟩
  · simp only [shortKey, List.mem_cons, List.not_mem_nil, or_false] at hc
    rcases hc with rfl | rfl | rfl <;> omega
  · rw [show (shortRow i).1 = word i from rfl, word_toNat (by omega)]
    simp only [digitString, shortKey, List.reverse_cons, List.reverse_nil, List.nil_append, List.cons_append,
      List.map_cons, List.map_nil, Nat.ofDigits_cons, Nat.ofDigits_nil, h1, h2, h3]
    omega

theorem shortEntries_parse :
    List.Forall₂ EntryParses ((List.range 256).map shortEntry) ((List.range 256).map shortRow) := by
  rw [List.forall₂_map_left_iff, List.forall₂_map_right_iff, List.forall₂_same]
  exact fun i hi => shortEntry_parses (List.mem_range.mp hi)

theorem shortRows_ok :
    (∀ e ∈ (List.range 256).map shortRow, e.2.length ≤ 255) ∧ (((List.range 256).map shortRow).map Prod.fst).Nodup ∧
    (((List.range 256).map shortRow).map Prod.snd).Nodup := by
  refine ⟨fun e he => ?_, ?_, ?_⟩
  · obtain ⟨i, -, rfl⟩ := List.mem_map.mp he
    simp [shortRow, bits]
  · rw [List.map_map]
    exact nodup_words (by omega)
  · rw [List.map_map]
    have hall : ((List.range 256).all fun j => numeral (bits 8 j) == j) = true := by decide +kernel
    have inv : ∀ j ∈ List.range 256, numeral (bits 8 j) = j := fun j hj => by
      simpa using List.all_eq_true.mp hall j hj
    refine List.Nodup.map_on (fun i hi j hj hij => ?_) List.nodup_range
    have := congrArg numeral hij
    simpa only [Function.comp, shortRow, inv i hi, inv j hj] using this

theorem shortEntries_noDash : NoDash ((List.range 256).map shortEntry ++ [[]]) := by
  have hall : ((List.range 256).all fun j => !(shortEntry j).contains 0x2D) = true := by decide +kernel
  intro e he
  rcases List.mem_append.mp he with he | he
  · obtain ⟨i, hi, rfl⟩ := List.mem_map.mp he
    simpa using List.all_eq_true.mp hall i hi
  · rw [List.mem_singleton.mp he]; simp

theorem schState_operand {y : List Byte} (h : y.length < 2 ^ 32) : (schState y).schOperand = y :=
  commitScheme_schOperand _ h

/-- The most entries there can be. -/
theorem witness_ParseReadsTheScheme :
    let entries := (List.range 256).map shortEntry
    let rows := (List.range 256).map shortRow
    (schState (joinEntries entries)).schLen.toNat ≤ 65536 ∧
    (schState (joinEntries entries)).schOperand = joinEntries entries ∧ rows.length = 256 ∧
    List.Forall₂ EntryParses entries rows ∧ (∀ e ∈ rows, e.2.length ≤ 255) ∧
    (rows.map Prod.fst).Nodup ∧ (rows.map Prod.snd).Nodup := by
  refine ⟨by decide +kernel, schState_operand (by decide +kernel), by simp, shortEntries_parse, shortRows_ok⟩

/-- A length of 65537; a 257th entry; an entry that does not parse; a bit-string of 256 bits; a repeated symbol; a
repeated bit-string. Every text is the operand of the state it is loaded into. -/
theorem witness_ParseReportsFirstDefect :
    65536 < ({ State.reset with schLen := 65537 } : State).schLen.toNat ∧
    (NoDash ((List.range 256).map shortEntry ++ [[]]) ∧
      List.Forall₂ EntryParses (((List.range 256).map shortEntry ++ [[]]).take 256) ((List.range 256).map shortRow)) ∧
    (NoDash [[(0x3A : Byte)]] ∧ ∀ row, ¬ EntryParses ([[(0x3A : Byte)]].getD 0 []) row) ∧
    (NoDash [[(0x37 : Byte), 0x3A] ++ List.replicate 256 0x30] ∧
      EntryParses ([(0x37 : Byte), 0x3A] ++ List.replicate 256 0x30) (7, List.replicate 256 false)) ∧
    (NoDash [[(0x37 : Byte), 0x3A, 0x30], [0x37, 0x3A, 0x31]] ∧ EntryParses [0x37, 0x3A, 0x30] (7, [false]) ∧
      EntryParses [0x37, 0x3A, 0x31] (7, [true]) ∧ EntryParses [0x38, 0x3A, 0x30] (8, [false])) ∧
    (∀ y : List Byte, y.length ≤ 65536 →
      (schState y).schOperand = y ∧ (schState y).schLen.toNat ≤ 65536) := by
  refine ⟨by decide, ⟨shortEntries_noDash, ?_⟩, ⟨by decide, ?_⟩,
    ⟨?_, [0x37], List.replicate 256 0x30, rfl, by decide, ?_, ?_⟩,
    ⟨by decide, ⟨[0x37], [0x30], rfl, by decide, by decide⟩, ⟨[0x37], [0x31], rfl, by decide, by decide⟩,
      ⟨[0x38], [0x30], rfl, by decide, by decide⟩⟩,
    fun y hy => ⟨schState_operand (by omega), ?_⟩⟩
  · rw [List.take_left' (by rw [List.length_map, List.length_range])]
    exact shortEntries_parse
  · rintro row ⟨key, value, h, ⟨hk, -, -⟩, -⟩
    have h1 : ([[(0x3A : Byte)]].getD 0 []).length = key.length + 1 + value.length := by
      rw [h, List.length_append, List.length_append, List.length_singleton]
    have h2 : key.length ≠ 0 := fun h0 => hk (List.length_eq_zero_iff.mp h0)
    rw [show ([[(0x3A : Byte)]].getD 0 []).length = 1 from rfl] at h1
    omega
  · intro e he
    rw [List.mem_singleton] at he
    subst he
    intro hm
    rcases List.mem_append.mp hm with hm | hm
    · exact absurd hm (by decide)
    · exact absurd (List.mem_replicate.mp hm).2 (by decide)
  · intro h
    have := congrArg List.length h
    rw [List.length_replicate, List.length_nil] at this
    omega
  · rw [List.map_replicate]; rfl
  · rw [show (schState y).schLen = word y.length from rfl, word_toNat (by omega)]
    exact hy

theorem witness_PackAppendsSentinel :
    ({ State.reset with bitLen := 65535 } : State).bitLen.toNat ≤ 65535 ∧
    65535 < ({ State.reset with bitLen := 65536 } : State).bitLen.toNat := by decide

/-- 8192 zero bytes. -/
theorem zeroBytes_expand (q : Nat) (h : q < 65536) : expandedBit (byteState (List.replicate 8192 0)) q = false := by
  have : q / 8 < (List.replicate 8192 (0 : Byte)).length := by rw [List.length_replicate]; omega
  rw [expandedBit, byteState, commitBytes_byteAt, dif_pos this, List.getElem_replicate]
  simp

/-- A sentinel at the first and at the last position of a byte; the most bytes, all 0; one byte too many. -/
theorem witness_UnpackDropsSentinel :
    (expandedBit (byteState [0x80]) 0 = true ∧ ∀ q, q < 8 → 0 < q → expandedBit (byteState [0x80]) q = false) ∧
    expandedBit (byteState [0x01]) 7 = true ∧
    ((byteState (List.replicate 8192 0)).byteLen.toNat = 8192 ∧
      ∀ q, q < 8 * 8192 → expandedBit (byteState (List.replicate 8192 0)) q = false) ∧
    8192 < ({ State.reset with byteLen := 8193 } : State).byteLen.toNat :=
  ⟨by decide +kernel, by decide +kernel, ⟨by rw [byteState, commitBytes_byteLen, List.length_replicate]; rfl, fun q h => zeroBytes_expand q (by omega)⟩, by decide⟩

/-- A success and an error of each of the two commands. -/
theorem witness_FrameOfFreqAndBuild :
    answers (exec .freq (textState [97])) (fun t => t.err == .noError) ∧
    answers (exec .freq { State.reset with textLen := 4097 }) (fun t => t.err != .noError) ∧
    answers (exec .build (freqState [(1, 97)])) (fun t => t.err == .noError) ∧
    answers (exec .build State.reset) (fun t => t.err != .noError) :=
  ⟨nextWith_exists (by decide +kernel), nextWith_exists (by decide +kernel), nextWith_exists (by decide +kernel),
    nextWith_exists (by decide +kernel)⟩

theorem witness_FrameOfTableCommands :
    answers (exec .derive (treeState treeS1)) (fun t => t.err == .noError) ∧
    answers (exec .derive State.reset) (fun t => t.err != .noError) ∧
    answers (exec .parse (schState [0x37, 0x3A, 0x30])) (fun t => t.err == .noError) ∧
    answers (exec .parse State.reset) (fun t => t.err != .noError) ∧
    answers (exec .invert (tableState tableS3)) (fun t => t.err == .noError) ∧
    answers (exec .invert (tableState [(97, [])])) (fun t => t.err != .noError) :=
  ⟨nextWith_exists (by decide +kernel), nextWith_exists (by decide +kernel), nextWith_exists (by decide +kernel),
    nextWith_exists (by decide +kernel), nextWith_exists (by decide +kernel), nextWith_exists (by decide +kernel)⟩

theorem witness_FrameOfBitAndTextCommands :
    answers (exec .encode ((tableState tableS3).commitText [97])) (fun t => t.err == .noError) ∧
    answers (exec .encode State.reset) (fun t => t.err != .noError) ∧
    answers (exec .unpack (byteState [0x80])) (fun t => t.err == .noError) ∧
    answers (exec .unpack State.reset) (fun t => t.err != .noError) ∧
    answers (exec .decode ((tableState tableS3).commitBits [true])) (fun t => t.err == .noError) ∧
    answers (exec .decode State.reset) (fun t => t.err != .noError) :=
  ⟨nextWith_exists (by decide +kernel), nextWith_exists (by decide +kernel), nextWith_exists (by decide +kernel),
    nextWith_exists (by decide +kernel), nextWith_exists (by decide +kernel), nextWith_exists (by decide +kernel)⟩

theorem witness_FrameOfSchemeAndByteCommands :
    answers (exec .ser (tableState tableS3)) (fun t => t.err == .noError) ∧
    answers (exec .ser State.reset) (fun t => t.err != .noError) ∧
    answers (exec .pack (bitState [true])) (fun t => t.err == .noError) ∧
    answers (exec .pack { State.reset with bitLen := 65536 }) (fun t => t.err != .noError) :=
  ⟨nextWith_exists (by decide +kernel), nextWith_exists (by decide +kernel), nextWith_exists (by decide +kernel),
    nextWith_exists (by decide +kernel)⟩

/-- Two states that agree on the operands of PACK and on nothing else that a register holds. -/
theorem witness_OutcomeDependsOnlyOnOperands :
    ReadsAgree .pack (bitState [true]) { bitState [true] with ie := true, textLen := 9, treeValid := true } ∧
    answers (exec .pack (bitState [true])) (fun t => t.err == .noError) :=
  ⟨⟨rfl, fun _ _ => rfl⟩, nextWith_exists (by decide +kernel)⟩

theorem witness_UnpackAfterPackIsIdentity :
    ({ State.reset with bitLen := 65535 } : State).bitLen.toNat ≤ 65535 := by decide

/-- One byte; the most bytes. -/
theorem witness_PackAfterUnpackIsIdentity :
    ((byteState [0x80]).byteLen.toNat = 1 ∧ (byteState [0x80]).byteAt 0 ≠ 0) ∧
    ((byteState (List.replicate 8192 1)).byteLen.toNat = 8192 ∧ (byteState (List.replicate 8192 1)).byteAt 8191 ≠ 0) := by
  have : 8191 < (List.replicate 8192 (1 : Byte)).length := by rw [List.length_replicate]; omega
  refine ⟨by decide, by rw [byteState, commitBytes_byteLen, List.length_replicate]; rfl, ?_⟩
  rw [byteState, commitBytes_byteAt, dif_pos this, List.getElem_replicate]
  decide

theorem prefixFree_tableS3 : PrefixFree (tableState tableS3).tableOperand := by
  have h : (tableState tableS3).tableOperand = tableS3 := by decide +kernel
  have hp : ∀ i ∈ List.range 4, ∀ j ∈ List.range 4, i ≠ j →
      ¬ ((tableS3.getD i (0, [])).2 <+: (tableS3.getD j (0, [])).2) := by decide
  intro i j e f he hf hne
  rw [h] at he hf
  have hi : i < 4 := (List.getElem?_eq_some_iff.mp he).1
  have hj : j < 4 := (List.getElem?_eq_some_iff.mp hf).1
  have := hp i (List.mem_range.mpr hi) j (List.mem_range.mpr hj) hne
  rwa [List.getD_eq_getElem?_getD, List.getD_eq_getElem?_getD, he, hf] at this

theorem witness_DecodeAfterEncodeIsIdentity :
    let s := (tableState tableS3).commitText [97, 100]
    s.tableValid = true ∧ TableOk s ∧ PrefixFree s.tableOperand ∧
    answers (issue .encode s) (fun t => t.err == .noError) := by
  intro s
  refine ⟨rfl, by decide +kernel, ?_, nextWith_exists (by decide +kernel)⟩
  rw [show s.tableOperand = (tableState tableS3).tableOperand from commitText_tableOperand _ _]
  exact prefixFree_tableS3

theorem witness_ParseAfterSerIsIdentity :
    (tableState tableS3).tableValid = true ∧ TableOk (tableState tableS3) ∧
    answers (issue .ser (tableState tableS3)) (fun t => t.err == .noError) :=
  ⟨rfl, by decide +kernel, nextWith_exists (by decide +kernel)⟩

/-- One symbol; the longest text. -/
theorem witness_TextRoundTrip :
    ((textState [97]).textLen.toNat = 1 ∧ (textState [97]).textOperand.eraseDups.length = 1) ∧
    ((textState (List.replicate 4096 7)).textLen.toNat = 4096 ∧
      (textState (List.replicate 4096 7)).textOperand.eraseDups.length = 1) :=
  ⟨by decide +kernel, witness_FreqCountsTheText.1⟩

theorem witness_InvertAcceptsMadeTables :
    (TreeOk (treeState treeS1) ∧ answers (exec .derive (treeState treeS1)) (fun t => t.err == .noError)) ∧
    answers (exec .parse (schState [0x37, 0x3A, 0x30])) (fun t => t.err == .noError) :=
  ⟨⟨by decide +kernel, nextWith_exists (by decide +kernel)⟩, nextWith_exists (by decide +kernel)⟩

end Sys2Proof.Tests
end

section
/-! PROOFS. The host port as the statements of 20_memory.md see it: which addresses the map leaves out and which are
read-only (R43, R53), the answer at an address that names a location (R42), the reserved places (R54). -/

namespace Sys2Proof.Proofs

open Sys2Proof Sys2Proof.Machine Sys2Proof.Safety Sys2Proof.Laws

/-! ### The map -/

/-- The registers' window has holes only between ERRINFO and TEXTLEN and above SCHLEN (20_memory.md R43). -/
theorem registerAt_eq_none_iff {a : Nat} (h4 : a % 4 = 0) (ha : a < 0x01000) :
    registerAt a = none ↔ unmapped a = true := by
  unfold registerAt
  split <;> simp only [unmapped, imp_false] at *
  case h_14 => simp; omega
  all_goals simp

theorem readOnly_of_registerAt {a : Nat} {l : Location} (h : registerAt a = some l) :
    l.readOnly = readOnlyAddress a := by
  unfold registerAt at h
  split at h <;> cases h <;> rfl

@[simp] theorem freqLocation_readOnly (o : Nat) : (freqLocation o).readOnly = false := by
  unfold freqLocation
  split <;> rfl

@[simp] theorem nodeLocation_readOnly (o : Nat) : (nodeLocation o).readOnly = true := by
  unfold nodeLocation
  (repeat' split) <;> rfl

@[simp] theorem codeLocation_readOnly (o : Nat) : (codeLocation o).readOnly = false := by
  unfold codeLocation
  (repeat' split) <;> rfl

/-- The CODE window (20_memory.md R43). -/
theorem mapAddress_code {o : Nat} (ho : o < 0x04000) : mapAddress (0x04000 + o) = some (codeLocation o) := by
  rw [mapAddress, if_neg (by omega), if_neg (by omega), if_neg (by omega), if_neg (by omega), if_neg (by omega),
    if_pos (by omega), Nat.add_sub_cancel_left]

/-- The NODE window (20_memory.md R43). -/
theorem mapAddress_node {o : Nat} (ho : o < 0x01FF0) : mapAddress (0x02000 + o) = some (nodeLocation o) := by
  rw [mapAddress, if_neg (by omega), if_neg (by omega), if_neg (by omega), if_pos (by omega), Nat.add_sub_cancel_left]

/-- A word-aligned address names nothing if and only if it lies in a hole of the map (20_memory.md R43). -/
theorem mapAddress_eq_none_iff {a : Nat} (h4 : a % 4 = 0) : mapAddress a = none ↔ unmapped a = true := by
  unfold mapAddress
  split
  · exact registerAt_eq_none_iff h4 ‹_›
  · (repeat' split) <;> simp [unmapped] <;> omega

/-- Above the registers, only the NODE window is read-only. -/
theorem readOnlyAddress_of_window {a : Nat} (ha : ¬ a < 0x01000) :
    readOnlyAddress a = decide (0x02000 ≤ a ∧ a < 0x03FF0) := by
  simp [readOnlyAddress]
  omega

/-- The read-only locations are those at the read-only addresses (20_memory.md R53). -/
theorem readOnly_of_mapAddress {a : Nat} {l : Location} (h : mapAddress a = some l) :
    l.readOnly = readOnlyAddress a := by
  unfold mapAddress at h
  split at h
  · exact readOnly_of_registerAt h
  · rw [readOnlyAddress_of_window (by omega)]
    (repeat' split at h) <;> simp only [Option.some.injEq, reduceCtorEq] at h <;> subst h
    · rw [freqLocation_readOnly, decide_eq_false (by omega)]
    · rw [nodeLocation_readOnly, decide_eq_true (by omega)]
    · rw [codeLocation_readOnly, decide_eq_false (by omega)]
    all_goals exact (decide_eq_false (by omega)).symm

/-! ### Address decode -/

theorem locate_eq_none_iff (a : Addr) : locate a = none ↔ a.toNat % 4 ≠ 0 ∨ unmapped a.toNat = true := by
  unfold locate
  split
  · next h4 => simp [mapAddress_eq_none_iff h4, h4]
  · next h4 => simp [h4]

theorem readOnly_of_locate {a : Addr} {l : Location} (h : locate a = some l) :
    l.readOnly = readOnlyAddress a.toNat := by
  unfold locate at h
  split at h
  · exact readOnly_of_mapAddress h
  · cases h

/-- Address decode of an address written as a number. -/
theorem locate_ofNat {a : Nat} (hlt : a < 0x20000) (h4 : a % 4 = 0) : locate (BitVec.ofNat 17 a) = mapAddress a := by
  have ha : (BitVec.ofNat 17 a).toNat = a := by simpa using hlt
  rw [locate, ha, if_pos h4]

/-- The reserved words of a CODE entry, at offsets 40 to 60 (20_memory.md R47). -/
theorem locate_codeReserved {i k : Nat} (hi : i < 256) (hk : k < 6) :
    locate (BitVec.ofNat 17 (0x04028 + 64 * i + 4 * k)) = some (.codeReserved i) := by
  have ha : 0x04028 + 64 * i + 4 * k = 0x04000 + (64 * i + (40 + 4 * k)) := by omega
  have hm : (64 * i + (40 + 4 * k)) % 64 = 40 + 4 * k := by omega
  have hd : (64 * i + (40 + 4 * k)) / 64 = i := by omega
  rw [locate_ofNat (by omega) (by omega), ha, mapAddress_code (by omega), codeLocation, hm, hd,
    if_neg (by omega), if_neg (by omega), if_neg (by omega)]

/-- The reserved word of a NODE entry, at offset 12 (20_memory.md R46). -/
theorem locate_nodeReserved {i : Nat} (hi : i < 511) :
    locate (BitVec.ofNat 17 (0x0200C + 16 * i)) = some (.nodeReserved i) := by
  have ha : 0x0200C + 16 * i = 0x02000 + (16 * i + 12) := by omega
  have hm : (16 * i + 12) % 16 = 12 := by omega
  have hd : (16 * i + 12) / 16 = i := by omega
  rw [locate_ofNat (by omega) (by omega), ha, mapAddress_node (by omega), nodeLocation, hm, hd]
  rfl

/-! ### Transactions -/

theorem transact_read_of_locate {a : Addr} {l : Location} (s : State) (h : locate a = some l) :
    s.transact (.read a) = (s, { rdata := s.readLocation l, err := false }) := by
  simp [State.transact, h]

theorem transact_write_of_locate {a : Addr} {l : Location} (s : State) (v : Word) (h : locate a = some l)
    (hl : l.readOnly = false) : s.transact (.write a v) = (s.writeLocation v l, .written) := by
  simp [State.transact, h, hl]

theorem transact_write_of_readOnly {a : Addr} {l : Location} (s : State) (v : Word) (h : locate a = some l)
    (hl : l.readOnly = true) : s.transact (.write a v) = (s, .refused) := by
  simp [State.transact, h, hl]

/-- What a read of an address answers: an error, with data 0, exactly where the address names nothing (R42). -/
theorem transact_read_refused (s : State) (a : Addr) :
    ((s.transact (.read a)).2.err = true ↔ locate a = none) ∧
    ((s.transact (.read a)).2.err = true → (s.transact (.read a)).2.rdata = 0) := by
  rcases transact_read_cases s a with ⟨hl, h⟩ | ⟨l, hl, h⟩ <;> rw [h, hl] <;> simp [Response.refused]

/-- What a write to an address answers: read data 0, and an error, with no state change, exactly where the address
names nothing that may be written (R42, R53). -/
theorem transact_write_refused (s : State) (a : Addr) (v : Word) :
    (s.transact (.write a v)).2.rdata = 0 ∧
    ((s.transact (.write a v)).2.err = true ↔ locate a = none ∨ readOnlyAddress a.toNat = true) ∧
    ((s.transact (.write a v)).2.err = true → (s.transact (.write a v)).1 = s) := by
  rcases transact_write_cases s a v with ⟨hl | ⟨l, hl, hr⟩, h⟩ | ⟨l, hl, hr, h⟩ <;> rw [h, hl]
  · simp [Response.refused]
  · simp [Response.refused, ← readOnly_of_locate hl, hr]
  · simp [Response.written, ← readOnly_of_locate hl, hr]

/-! ### The reserved bits of CTRL and STATUS -/

theorem ctrlWord_reserved (s : State) {j : Nat} (hj : 1 ≤ j) : s.ctrlWord.getLsbD j = false := by
  simp [State.ctrlWord, BitVec.getLsbD_setWidth, BitVec.getLsbD_of_ge _ j hj]

theorem statusWord_reserved (s : State) {j : Nat} (hj : j = 2 ∨ j = 3 ∨ 10 ≤ j) : s.statusWord.getLsbD j = false := by
  simp only [State.statusWord, BitVec.getLsbD_append]
  rcases hj with rfl | rfl | hj
  · rfl
  · rfl
  · repeat rw [if_neg (by omega)]
    simp

/-- A write to CTRL uses bits 0 and 1 of the word only (10_state.md R19). -/
theorem writeCtrl_congr (s : State) {v w : Word} (h0 : v.getLsbD 0 = w.getLsbD 0) (h1 : v.getLsbD 1 = w.getLsbD 1) :
    s.writeCtrl v = s.writeCtrl w := by
  rw [State.writeCtrl, State.writeCtrl, h0, h1]

/-- A write to STATUS uses bit 1 of the word only (10_state.md R21). -/
theorem writeStatus_congr (s : State) {v w : Word} (h1 : v.getLsbD 1 = w.getLsbD 1) :
    s.writeStatus v = s.writeStatus w := by
  rw [State.writeStatus, State.writeStatus, h1]

/-! ### The obligations -/

/-- Settles O9: a request is refused exactly where decode finds nothing it may touch. -/
theorem refusedAccessesChangeNothing : Obligations.RefusedAccessesChangeNothing := by
  refine ⟨fun s a => ?_, fun s a v => ?_⟩
  · rw [← locate_eq_none_iff]
    exact ⟨transact_read_state s a, transact_read_refused s a⟩
  · rw [← or_assoc, ← locate_eq_none_iff]
    exact transact_write_refused s a v

/-- Settles O15, by the location each reserved place decodes to and the bits CTRL and STATUS use. -/
theorem reservedPlacesReadZero : Obligations.ReservedPlacesReadZero := by
  have hctrl : locate 0x00004 = some .ctrl := rfl
  have hstatus : locate 0x0000C = some .status := rfl
  refine ⟨fun s i k v hi hk => ?_, fun s i v hi => ?_, fun s v w => ⟨?_, fun h0 h1 => ?_, fun h1 => ?_⟩⟩
  · have hl := locate_codeReserved hi hk
    exact ⟨congrArg Prod.snd (transact_read_of_locate s hl), transact_write_of_locate s v hl rfl⟩
  · have hl := locate_nodeReserved hi
    exact ⟨congrArg Prod.snd (transact_read_of_locate s hl), transact_write_of_readOnly s v hl rfl⟩
  · exact ⟨s.ctrlWord, s.statusWord, congrArg Prod.snd (transact_read_of_locate s hctrl),
      congrArg Prod.snd (transact_read_of_locate s hstatus), fun _ => ctrlWord_reserved s,
      fun _ => statusWord_reserved s⟩
  · rw [transact_write_of_locate s v hctrl rfl, transact_write_of_locate s w hctrl rfl]
    exact congrArg (·, Response.written) (writeCtrl_congr s h0 h1)
  · rw [transact_write_of_locate s v hstatus rfl, transact_write_of_locate s w hstatus rfl]
    exact congrArg (·, Response.written) (writeStatus_congr s h1)

end Sys2Proof.Proofs
end

section
/-! PROOFS. A command from its CMD write to its completion as the statements of 30_encoding.md see it: which words
decode to no command (R60, R64), the step that accepts a CMD write (R65), the step in which the engine moves (R66). -/

namespace Sys2Proof.Proofs

open Sys2Proof Sys2Proof.Machine Sys2Proof.Safety Sys2Proof.Laws

/-! ### Illegal words -/

/-- OPC is the least significant byte of the word (30_encoding.md R59). -/
theorem splitWord_opc_toNat (w : Word) : (splitWord w).opc.toNat = w.toNat % 256 := by
  simp [splitWord, BitVec.extractLsb'_toNat]

/-- RSV is all the rest of the word (30_encoding.md R59). -/
theorem splitWord_rsv_toNat (w : Word) : (splitWord w).rsv.toNat = w.toNat / 256 := by
  have hlt : w.toNat < 4294967296 := w.isLt
  simp only [splitWord, BitVec.extractLsb'_toNat, Nat.shiftRight_eq_div_pow]
  omega

/-- The opcode map has 1 to 10 and nothing else (30_encoding.md R62). -/
theorem opcodeMap_eq_none_iff (n : Nat) : opcodeMap n = none ↔ n = 0 ∨ 10 < n := by
  unfold opcodeMap
  split
  case h_11 => simp only [imp_false, true_iff] at *; omega
  all_goals simp

/-- The two checks of the decoder (30_encoding.md R60). -/
theorem decode_error_iff_fields (w : Word) :
    (∃ e, decode w = .error e) ↔ (splitWord w).rsv ≠ 0 ∨ opcodeMap (splitWord w).opc.toNat = none := by
  unfold decode
  split
  · next hr => cases opcodeMap (splitWord w).opc.toNat <;> simp [hr]
  · next hr => exact ⟨fun _ => .inl hr, fun _ => ⟨_, rfl⟩⟩

/-- The illegal words as numbers: RSV is not 0, or OPC is 0 or above 10 (30_encoding.md R60). -/
theorem decode_error_iff (w : Word) :
    (∃ e, decode w = .error e) ↔ w.toNat / 256 ≠ 0 ∨ w.toNat % 256 = 0 ∨ 10 < w.toNat % 256 := by
  rw [decode_error_iff_fields, opcodeMap_eq_none_iff, splitWord_opc_toNat, ← splitWord_rsv_toNat, ne_eq,
    ← BitVec.toNat_inj]
  rfl

/-! ### The two steps of a command -/

/-- A request the block accepts is performed in the next step (20_memory.md R40). -/
theorem step_of_accepts {s : State} {r : Request} {rest : List Input} (hi : s.inputs = .request r :: rest)
    (ha : s.accepts r = true) : step s = .next (({ s with inputs := rest } : State).perform r) := by
  simp only [step, agentStep, hi, ha, if_true]

/-- The step that accepts a CMD write: the command starts, the write is answered without error (30_encoding.md R65). -/
theorem step_cmdWrite {s : State} {w : Word} {rest : List Input} (hb : s.busy = false)
    (hi : s.inputs = .request (.write 0x00008 w) :: rest) :
    step s = .next ((({ s with inputs := rest } : State).startCommand w).respond .written) := by
  have ha : s.accepts (.write 0x00008 w) = true := by simp [State.accepts, hb]
  rw [step_of_accepts hi ha, State.perform, transact_write_of_locate _ w (l := .cmd) rfl rfl]
  rfl

/-- When the engine moves, the step is its turn, its mark being used up (20_memory.md R41; 30_encoding.md R66). -/
theorem step_of_engineMoves {s : State} (h : engineMoves s = true) :
    step s = engineTurn { s with inputs := inputsAfterEngine s } := by
  have keep : ∀ l, s.inputs = l → engineTurn s = engineTurn { s with inputs := l } := by rintro _ rfl; rfl
  rcases hi : s.inputs with _ | ⟨r | _ | _, rest⟩ <;>
    simp only [step, agentStep, engineMoves, inputsAfterEngine, hi] at h ⊢
  case nil => exact keep _ hi
  case cons.hardReset => cases h
  case cons.request =>
    rcases rest with _ | ⟨q | _ | _, rest⟩ <;> simp only [Bool.not_eq_true', reduceCtorEq] at h
    · simpa [h] using keep _ hi
    · simpa [h] using keep _ hi
    · simp [h]

/-- The engine's turn on an illegal word (30_encoding.md R64). -/
theorem engineTurn_of_decode_error {s : State} (hb : s.busy = true) (hd : ∃ e, decode s.cmd = .error e) :
    engineTurn s = .next (s.raise ⟨.badCommand, 0⟩) := by
  rcases engineTurn_cases s with ⟨hb', -⟩ | ⟨-, i, hi, -⟩ | ⟨-, -, h⟩
  · rw [hb] at hb'; cases hb'
  · obtain ⟨e, he⟩ := hd
    rw [hi] at he; cases he
  · exact h

/-- The step that completes an illegal word (60_exceptions.md R139). -/
theorem step_of_decode_error {s : State} (hd : ∃ e, decode s.cmd = .error e) (hb : s.busy = true)
    (hm : engineMoves s = true) :
    step s = .next (({ s with inputs := inputsAfterEngine s } : State).raise ⟨.badCommand, 0⟩) :=
  (step_of_engineMoves hm).trans (engineTurn_of_decode_error hb hd)

/-! ### The obligations -/

/-- Settles O4: the step performs the CMD write, and DONE = 0 holds `irq` low. -/
theorem acceptedCmdWriteStartsCommand : Obligations.AcceptedCmdWriteStartsCommand := by
  intro s w rest hb hi
  refine ⟨_, step_cmdWrite hb hi, rfl, ?_⟩
  simp [State.irq]

/-- Settles O5: behind the CMD write the state is one that runs an illegal word with the engine's turn next, and in
every such state the engine's step raises BadCommand. -/
theorem illegalWordCompletesWithBadCommand : Obligations.IllegalWordCompletesWithBadCommand := by
  refine ⟨fun s w rest hw hb hi => ⟨_, step_cmdWrite hb hi, ?_⟩, fun s hw hb hm => ?_, rfl⟩
  · exact step_of_decode_error ((decode_error_iff w).mpr hw) rfl rfl
  · exact step_of_decode_error ((decode_error_iff s.cmd).mpr hw) hb hm

end Sys2Proof.Proofs
end

section
/-! PROOFS. DERIVE as the statements of 42_code_table.md see it: the walk of a subtree as a relation (R92, R96), the
nodes it visits (R88 (d)), its paths (R94, R97), the table it gives (R98). -/

namespace Sys2Proof.Proofs

open Sys2Proof Sys2Proof.Machine Sys2Proof.Safety Sys2Proof.Laws

/-! ### The walk as a relation -/

/-- The walk from node `v` with the path `p` visits `nodes` and gives `rows` (42_code_table.md R96). Unlike
`State.walk` it has no fuel, and it names the Branches it passes. -/
inductive Walked (s : State) : Nat → List Bool → List Nat → List (Word × List Bool) → Prop where
  | leaf (v : Nat) (p : List Bool) : s.nodeKindAt v = .leaf → Walked s v p [v] [(s.nodeAAt v, p)]
  | branch (v : Nat) (p : List Bool) (nodesL nodesR : List Nat) (l r : List (Word × List Bool)) :
      s.nodeKindAt v = .branch → Walked s (s.nodeAAt v).toNat (p ++ [false]) nodesL l →
      Walked s (s.nodeBAt v).toNat (p ++ [true]) nodesR r → Walked s v p (v :: (nodesL ++ nodesR)) (l ++ r)

theorem walk_of_leaf {s : State} {fuel v : Nat} (p : List Bool) (hv : v < s.nNode.toNat)
    (hk : s.nodeKindAt v = .leaf) : s.walk (fuel + 1) v p = some [(s.nodeAAt v, p)] := by
  simp [State.walk, hv, hk]

theorem walk_of_branch {s : State} {fuel v : Nat} {p : List Bool} {l r : List (Word × List Bool)}
    (hv : v < s.nNode.toNat) (hk : s.nodeKindAt v = .branch)
    (hl : s.walk fuel (s.nodeAAt v).toNat (p ++ [false]) = some l)
    (hr : s.walk fuel (s.nodeBAt v).toNat (p ++ [true]) = some r) : s.walk (fuel + 1) v p = some (l ++ r) := by
  simp [State.walk, hv, hk, hl, hr]

/-- In a tree children have smaller indices, so the walk ends with rows (41_tree_build.md R88 (c)). -/
theorem walk_of_treeOf {s : State} {n : Nat} (h : TreeOf n s) {fuel v : Nat} (p : List Bool) (hv : v < 2 * n - 1)
    (hf : v < fuel) : ∃ nodes rows, Walked s v p nodes rows ∧ s.walk fuel v p = some rows := by
  obtain ⟨-, -, hNode, -, hLeaf, hBranch, -⟩ := h
  induction fuel generalizing v p with
  | zero => omega
  | succ fuel ih =>
    rcases Nat.lt_or_ge v n with hn | hn
    · have hk := (hLeaf v hn).1
      exact ⟨_, _, .leaf v p hk, walk_of_leaf p (by omega) hk⟩
    · obtain ⟨hk, ha, hb⟩ := hBranch v hv hn
      obtain ⟨nodesL, l, hL, hl⟩ := ih (p ++ [false]) (v := (s.nodeAAt v).toNat) (by omega) (by omega)
      obtain ⟨nodesR, r, hR, hr⟩ := ih (p ++ [true]) (v := (s.nodeBAt v).toNat) (by omega) (by omega)
      exact ⟨_, _, .branch v p nodesL nodesR l r hk hL hR, walk_of_branch (by omega) hk hl hr⟩

/-! ### The rows of a walk -/

section WalkedRows

variable {s : State} {v : Nat} {p : List Bool} {nodes : List Nat} {rows : List (Word × List Bool)}

theorem Walked.rows_length_pos (h : Walked s v p nodes rows) : 1 ≤ rows.length := by
  induction h with
  | leaf => simp
  | branch _ _ _ _ _ _ _ _ _ ihl _ => rw [List.length_append]; omega

/-- No path is longer than the other leaves are many (41_tree_build.md R88 (f)). -/
theorem Walked.path_length_le (h : Walked s v p nodes rows) :
    ∀ e ∈ rows, e.2.length + 1 ≤ p.length + rows.length := by
  induction h with
  | leaf => simp
  | branch _ _ _ _ l r _ hl hr ihl ihr =>
    have hlPos := hl.rows_length_pos
    have hrPos := hr.rows_length_pos
    simp only [List.length_append, List.length_singleton] at ihl ihr ⊢
    intro e he
    rcases List.mem_append.mp he with he | he
    · have := ihl e he; omega
    · have := ihr e he; omega

theorem Walked.path_prefix (h : Walked s v p nodes rows) : ∀ e ∈ rows, p <+: e.2 := by
  induction h with
  | leaf => simp
  | branch _ _ _ _ _ _ _ _ _ ihl ihr =>
    intro e he
    rcases List.mem_append.mp he with he | he
    · exact (List.prefix_append _ _).trans (ihl e he)
    · exact (List.prefix_append _ _).trans (ihr e he)

theorem partsBefore_of_prefix {a b : List Bool} (ha : p ++ [false] <+: a) (hb : p ++ [true] <+: b) :
    PartsBefore a b := by
  obtain ⟨x, rfl⟩ := ha
  obtain ⟨y, rfl⟩ := hb
  exact ⟨p, x, y, by simp, by simp⟩

/-- The rows stand in the order of their paths (42_code_table.md R97). -/
theorem Walked.paths_part (h : Walked s v p nodes rows) : rows.Pairwise fun e f => PartsBefore e.2 f.2 := by
  induction h with
  | leaf => simp
  | branch _ _ _ _ _ _ _ hl hr ihl ihr =>
    exact List.pairwise_append.mpr
      ⟨ihl, ihr, fun e he f hf => partsBefore_of_prefix (hl.path_prefix e he) (hr.path_prefix f hf)⟩

/-- A walk that starts at a Branch takes at least one turn to every leaf. -/
theorem Walked.path_length_lt (h : Walked s v p nodes rows) (hk : s.nodeKindAt v = .branch) :
    ∀ e ∈ rows, p.length < e.2.length := by
  cases h with
  | leaf _ _ hl => rw [hl] at hk; cases hk
  | branch _ _ _ _ _ _ _ hl hr =>
    intro e he
    rcases List.mem_append.mp he with he | he
    · simpa using (hl.path_prefix e he).length_le
    · simpa using (hr.path_prefix e he).length_le

/-- The symbols are those of the Leaves visited. -/
theorem Walked.symbols (h : Walked s v p nodes rows) :
    rows.map Prod.fst = (nodes.filter fun u => s.nodeKindAt u = .leaf).map s.nodeAAt := by
  induction h with
  | leaf _ _ hk => simp [hk]
  | branch _ _ _ _ _ _ hk _ _ ihl ihr => simp [hk, ihl, ihr]

end WalkedRows

/-! ### Partings and prefixes -/

theorem not_prefix_of_partsBefore {a b : List Bool} (h : PartsBefore a b) : ¬ a <+: b ∧ ¬ b <+: a := by
  obtain ⟨c, x, y, rfl, rfl⟩ := h
  simp [List.prefix_append_right_inj, List.cons_prefix_cons]

theorem ne_of_partsBefore {a b : List Bool} (h : PartsBefore a b) : a ≠ b := by
  rintro rfl
  exact (not_prefix_of_partsBefore h).1 (List.prefix_refl a)

/-- Bit-strings that part are prefixes of each other in neither direction (42_code_table.md R98). -/
theorem prefixFree_of_pairwise {t : List (Word × List Bool)} (h : t.Pairwise fun e f => PartsBefore e.2 f.2) :
    PrefixFree t := by
  intro i j e f he hf hne
  obtain ⟨hi, rfl⟩ := List.getElem?_eq_some_iff.mp he
  obtain ⟨hj, rfl⟩ := List.getElem?_eq_some_iff.mp hf
  rw [List.pairwise_iff_getElem] at h
  rcases Nat.lt_or_gt_of_ne hne with hlt | hlt
  · exact (not_prefix_of_partsBefore (h i j hi hj hlt)).1
  · exact (not_prefix_of_partsBefore (h j i hj hi hlt)).2

theorem nodup_of_pairwise {t : List (Word × List Bool)} (h : t.Pairwise fun e f => PartsBefore e.2 f.2) :
    (t.map Prod.snd).Nodup :=
  List.pairwise_map.mpr (h.imp ne_of_partsBefore)

/-! ### The nodes of a walk -/

/-- The children of one node, left before right; a Leaf has none. -/
def childrenOf (s : State) (v : Nat) : List Nat :=
  match s.nodeKindAt v with
  | .leaf => []
  | .branch => [(s.nodeAAt v).toNat, (s.nodeBAt v).toNat]

theorem childNodes_eq (s : State) : childNodes s = (List.range s.nNode.toNat).flatMap (childrenOf s) := rfl

theorem childrenOf_leaf {s : State} {v : Nat} (h : s.nodeKindAt v = .leaf) : childrenOf s v = [] := by
  simp [childrenOf, h]

theorem childrenOf_branch {s : State} {v : Nat} (h : s.nodeKindAt v = .branch) :
    childrenOf s v = [(s.nodeAAt v).toNat, (s.nodeBAt v).toNat] := by
  simp [childrenOf, h]

theorem childrenOf_lt {s : State} {n : Nat} (h : TreeOf n s) {v w : Nat} (hv : v < 2 * n - 1)
    (hw : w ∈ childrenOf s v) : w < v := by
  obtain ⟨-, -, -, -, hLeaf, hBranch, -⟩ := h
  rcases Nat.lt_or_ge v n with hn | hn
  · simp [childrenOf_leaf (hLeaf v hn).1] at hw
  · obtain ⟨hk, ha, hb⟩ := hBranch v hv hn
    rw [childrenOf_branch hk] at hw
    simp only [List.mem_cons, List.not_mem_nil, or_false] at hw
    omega

/-- A walk visits the node it starts from and the children of the nodes it visits, each as often as it is a child. -/
theorem Walked.nodes_perm {s : State} {v : Nat} {p : List Bool} {nodes : List Nat} {rows : List (Word × List Bool)}
    (h : Walked s v p nodes rows) : nodes.Perm (v :: nodes.flatMap (childrenOf s)) := by
  induction h with
  | leaf v _ hk => simp [childrenOf_leaf hk]
  | branch v _ nodesL nodesR _ _ hk _ _ ihl ihr =>
    rw [List.flatMap_cons, childrenOf_branch hk, List.flatMap_append]
    exact ((ihl.append ihr).trans (List.perm_middle.cons _)).cons v

theorem Walked.nodes_lt {s : State} {n v : Nat} {p : List Bool} {nodes : List Nat} {rows : List (Word × List Bool)}
    (h : Walked s v p nodes rows) (ht : TreeOf n s) (hv : v < 2 * n - 1) : ∀ u ∈ nodes, u < 2 * n - 1 := by
  induction h with
  | leaf => simpa using hv
  | branch v _ nodesL nodesR _ _ hk _ _ ihl ihr =>
    have hc : ∀ w ∈ childrenOf s v, w < 2 * n - 1 := fun w hw => (childrenOf_lt ht hv hw).trans hv
    rw [childrenOf_branch hk] at hc
    intro u hu
    rcases List.mem_cons.mp hu with rfl | hu
    · exact hv
    · rcases List.mem_append.mp hu with hu | hu
      · exact ihl (hc _ (by simp)) u hu
      · exact ihr (hc _ (by simp)) u hu

/-- Where children are smaller than their parents, only larger parents have a node as a child. -/
theorem count_flatMap_filter {c : Nat → List Nat} {l : List Nat} {w : Nat} (hc : ∀ u ∈ l, w ∈ c u → w < u) :
    (l.flatMap c).count w = ((l.filter fun u => w < u).flatMap c).count w := by
  induction l with
  | nil => rfl
  | cons u l ih =>
    have ih := ih fun x hx => hc x (List.mem_cons_of_mem u hx)
    rw [List.flatMap_cons, List.count_append, ih]
    by_cases hu : w < u
    · simp [hu]
    · have : w ∉ c u := fun h => hu (hc u List.mem_cons_self h)
      simp [hu, List.count_eq_zero_of_not_mem this]

/-- Where children are smaller than their parents, one collection of nodes holds a root and the children of all its
nodes: from the largest node down, its larger nodes fix how often it holds a node. -/
theorem perm_of_unfolds {c : Nat → List Nat} {N r : Nat} {l m : List Nat} (hc : ∀ u, u < N → ∀ w ∈ c u, w < u)
    (hl : ∀ u ∈ l, u < N) (hm : ∀ u ∈ m, u < N) (hul : l.Perm (r :: l.flatMap c))
    (hum : m.Perm (r :: m.flatMap c)) : l.Perm m := by
  suffices h : ∀ d w, N ≤ w + d → l.count w = m.count w from
    List.perm_iff_count.mpr fun w => h N w (Nat.le_add_left N w)
  intro d
  induction d with
  | zero =>
    intro w hw
    rw [List.count_eq_zero_of_not_mem fun h => absurd (hl w h) (by omega),
      List.count_eq_zero_of_not_mem fun h => absurd (hm w h) (by omega)]
  | succ d ih =>
    intro w hw
    have larger : (l.filter fun u => w < u).Perm (m.filter fun u => w < u) := by
      refine List.perm_iff_count.mpr fun u => ?_
      by_cases hu : w < u
      · rw [List.count_filter (by simpa using hu), List.count_filter (by simpa using hu), ih u (by omega)]
      · rw [List.count_eq_zero_of_not_mem (by simp [hu]), List.count_eq_zero_of_not_mem (by simp [hu])]
    rw [hul.count_eq, hum.count_eq, List.count_cons, List.count_cons,
      count_flatMap_filter fun u hu => hc u (hl u hu) w, count_flatMap_filter fun u hu => hc u (hm u hu) w,
      (larger.flatMap_right c).count_eq]

/-- The nodes of a tree are its root and the children of its nodes (41_tree_build.md R88 (d)). -/
theorem range_perm_children {s : State} {n : Nat} (h : TreeOf n s) :
    (List.range (2 * n - 1)).Perm ((2 * n - 2) :: (List.range (2 * n - 1)).flatMap (childrenOf s)) := by
  have hlt : ∀ w ∈ (List.range (2 * n - 1)).flatMap (childrenOf s), w < 2 * n - 1 := by
    intro w hw
    obtain ⟨u, hu, hw⟩ := List.mem_flatMap.mp hw
    rw [List.mem_range] at hu
    exact (childrenOf_lt h hu hw).trans hu
  obtain ⟨hn, -, hNode, -, -, -, hOnce, hRoot, -⟩ := h
  rw [childNodes_eq, hNode] at hOnce hRoot
  refine List.perm_iff_count.mpr fun w => ?_
  rw [List.count_cons]
  rcases Nat.lt_trichotomy w (2 * n - 2) with hw | rfl | hw
  · rw [hOnce w hw, List.count_eq_one_of_mem List.nodup_range (List.mem_range.mpr (by omega)),
      if_neg (by simp; omega)]
  · rw [hRoot, List.count_eq_one_of_mem List.nodup_range (List.mem_range.mpr (by omega)), if_pos (by simp)]
  · rw [List.count_eq_zero_of_not_mem fun hw' => absurd (hlt w hw') (by omega),
      List.count_eq_zero_of_not_mem (by simp; omega), if_neg (by simp; omega)]

/-- The walk from the root visits every node once (42_code_table.md R92). -/
theorem Walked.nodes_of_root {s : State} {n : Nat} {p : List Bool} {nodes : List Nat}
    {rows : List (Word × List Bool)} (h : TreeOf n s) (hw : Walked s (2 * n - 2) p nodes rows) :
    nodes.Perm (List.range (2 * n - 1)) := by
  have hn : 1 ≤ n := h.1
  exact perm_of_unfolds (fun u hu w => childrenOf_lt h hu) (hw.nodes_lt h (by omega))
    (fun u => List.mem_range.mp) hw.nodes_perm (range_perm_children h)

/-- The Leaves are the first nodes (41_tree_build.md R88 (a)). -/
theorem leaves_of_treeOf {s : State} {n : Nat} (h : TreeOf n s) :
    (List.range (2 * n - 1)).filter (fun u => s.nodeKindAt u = .leaf) = List.range n := by
  obtain ⟨hn, -, -, -, hLeaf, hBranch, -⟩ := h
  have hsplit : 2 * n - 1 = n + (n - 1) := by omega
  have hleaves : (List.range n).filter (fun u => s.nodeKindAt u = .leaf) = List.range n :=
    List.filter_eq_self.mpr fun u hu => by simp [(hLeaf u (List.mem_range.mp hu)).1]
  have hbranches : ((List.range (n - 1)).map (n + ·)).filter (fun u => s.nodeKindAt u = .leaf) = [] := by
    refine List.filter_eq_nil_iff.mpr fun u hu => ?_
    obtain ⟨k, hk, rfl⟩ := List.mem_map.mp hu
    rw [List.mem_range] at hk
    simp [(hBranch (n + k) (by omega) (by omega)).1]
  rw [hsplit, List.range_add, List.filter_append, hleaves, hbranches, List.append_nil]

/-- The walk from the root gives one row for each leaf (42_code_table.md R98). -/
theorem Walked.symbols_of_root {s : State} {n : Nat} {p : List Bool} {nodes : List Nat}
    {rows : List (Word × List Bool)} (h : TreeOf n s) (hw : Walked s (2 * n - 2) p nodes rows) :
    (rows.map Prod.fst).Perm (firstOf n s.nodeAAt) := by
  have hp := ((hw.nodes_of_root h).filter fun u => s.nodeKindAt u = .leaf).map s.nodeAAt
  rwa [← hw.symbols, leaves_of_treeOf h] at hp

/-! ### The rows of a tree -/

/-- What DERIVE binds for a tree of `n` leaves (42_code_table.md R94, R97, R98): the leaves' symbols, each once, with
paths that part in walk order and have 1 to max(1, n - 1) turns. -/
def TreeRows (n : Nat) (s : State) (rows : List (Word × List Bool)) : Prop :=
  (rows.map Prod.fst).Perm (firstOf n s.nodeAAt) ∧ (rows.Pairwise fun e f => PartsBefore e.2 f.2) ∧
  ∀ e ∈ rows, 1 ≤ e.2.length ∧ e.2.length ≤ max 1 (n - 1)

theorem TreeRows.length {n : Nat} {s : State} {rows : List (Word × List Bool)} (h : TreeRows n s rows) :
    rows.length = n := by
  simpa using h.1.length_eq

theorem TreeRows.path_fits {n : Nat} {s : State} {rows : List (Word × List Bool)} (h : TreeRows n s rows)
    (hn : n ≤ 256) : ∀ e ∈ rows, 1 ≤ e.2.length ∧ e.2.length ≤ 255 := fun e he => by
  have ⟨hpos, hle⟩ := h.2.2 e he
  omega

theorem leafRows_of_leaf {s : State} (hr : s.root.toNat < s.nNode.toNat) (hk : s.nodeKindAt s.root.toNat = .leaf) :
    s.leafRows = some [(s.nodeAAt s.root.toNat, [false])] := by
  simp [State.leafRows, hr, hk]

theorem leafRows_of_branch {s : State} (hr : s.root.toNat < s.nNode.toNat)
    (hk : s.nodeKindAt s.root.toNat = .branch) : s.leafRows = s.walk Config.nodeMax s.root.toNat [] := by
  simp [State.leafRows, hr, hk]

/-- DERIVE finds the rows of every tree: the fixed "0" of a single leaf (42_code_table.md R93), the walk otherwise. -/
theorem leafRows_of_treeOf {s : State} {n : Nat} (h : TreeOf n s) :
    ∃ rows, s.leafRows = some rows ∧ TreeRows n s rows := by
  have ⟨hn, hMax, hNode, hRoot, hLeaf, hBranch, _⟩ := h
  have hMax : n ≤ 256 := hMax
  have hr : s.root.toNat < s.nNode.toNat := by omega
  rcases Nat.lt_or_ge 1 n with h1 | h1
  · obtain ⟨hk, -, -⟩ := hBranch (2 * n - 2) (by omega) (by omega)
    obtain ⟨nodes, rows, hw, hrows⟩ :=
      walk_of_treeOf h (fuel := 511) [] (v := 2 * n - 2) (by omega) (by omega)
    have hsym := hw.symbols_of_root h
    have hlen : rows.length = n := by simpa using hsym.length_eq
    refine ⟨rows, ?_, hsym, hw.paths_part, fun e he => ⟨hw.path_length_lt hk e he, ?_⟩⟩
    · rw [leafRows_of_branch hr (by rw [hRoot]; exact hk), hRoot, hrows]
    · have := hw.path_length_le e he
      simp only [List.length_nil] at this
      omega
  · obtain rfl : n = 1 := by omega
    have h0 : s.root.toNat = 0 := hRoot
    refine ⟨_, leafRows_of_leaf hr (by rw [h0]; exact (hLeaf 0 hn).1), ?_⟩
    simp [TreeRows, h0, firstOf]

/-! ### DERIVE of a valid tree -/

theorem exec_derive_of_leafRows {s : State} {rows : List (Word × List Bool)} (hv : s.treeValid = true)
    (hr : s.leafRows = some rows) (hlen : rows.length ≤ 256) (hbits : ∀ e ∈ rows, e.2.length ≤ 255) :
    exec .derive s = .next (s.commitTable rows).finish := by
  rcases execDerive_cases s with ⟨hv', -⟩ | ⟨-, t, ht, -, -, hnext⟩ | ⟨-, hfit, -⟩
  · rw [hv] at hv'; cases hv'
  · obtain rfl : rows = t := Option.some.inj (hr.symm.trans ht)
    exact hnext
  · have : rowsFit rows = true := by simpa [rowsFit, hlen] using hbits
    rw [hfit rows hr] at this; cases this

/-- DERIVE of a valid tree commits its rows (42_code_table.md R96). -/
theorem exec_derive_of_treeOk {s : State} (hv : s.treeValid = true) (h : TreeOk s) :
    ∃ rows, TreeRows (leafCount s) s rows ∧ exec .derive s = .next (s.commitTable rows).finish := by
  obtain ⟨rows, hr, ht⟩ := leafRows_of_treeOf h
  have hMax : leafCount s ≤ 256 := h.2.1
  exact ⟨rows, ht, exec_derive_of_leafRows hv hr (ht.length ▸ hMax) fun e he => (ht.path_fits hMax e he).2⟩

/-- A committed table meets TVALID's conditions if its rows do (10_state.md R27). -/
theorem tableOk_commitTable (s : State) {t : List (Word × List Bool)} (hlen : t.length ≤ 256)
    (hbits : ∀ e ∈ t, 1 ≤ e.2.length ∧ e.2.length ≤ 255) (hsym : (t.map Prod.fst).Nodup)
    (hcode : (t.map Prod.snd).Nodup) : TableOk (s.commitTable t) := by
  have hop : (s.commitTable t).tableOperand = t :=
    commitTable_tableOperand s (by omega) fun e he => (hbits e he).2.trans (by decide)
  have hn : (s.commitTable t).nCode.toNat = t.length := by rw [commitTable_nCode, word_toNat (by omega)]
  refine ⟨hn ▸ hlen, fun i hi => ?_, by rwa [hop], by rwa [hop]⟩
  have hit : i < t.length := hn ▸ hi
  have hb := hbits t[i] (List.getElem_mem hit)
  rwa [commitTable_codeLenAt, dif_pos hit, word_toNat (by omega)]

/-- Settles O36: the rows of the walk part pairwise and carry each leaf's symbol once, and DERIVE commits them. -/
theorem derivedTableIsPrefixFree : Obligations.DerivedTableIsPrefixFree := by
  intro s hv h
  obtain ⟨rows, ht, hexec⟩ := exec_derive_of_treeOk hv h
  obtain ⟨-, hMax, -, -, -, -, -, -, hNodup⟩ := h
  have hMax : leafCount s ≤ 256 := hMax
  have hlen := ht.length
  have hfits := ht.path_fits hMax
  obtain ⟨hsym, hpart, -⟩ := ht
  have hop : (s.commitTable rows).finish.tableOperand = rows :=
    commitTable_tableOperand s (by omega) fun e he => (hfits e he).2.trans (by decide)
  refine ⟨_, hexec, rfl, ?_, ?_⟩
  · exact tableOk_commitTable s (hlen ▸ hMax) hfits (hsym.nodup_iff.mpr hNodup) (nodup_of_pairwise hpart)
  · rw [hop]
    exact ⟨prefixFree_of_pairwise hpart, hlen, fun e he => List.ne_nil_of_length_pos (hfits e he).1⟩

end Sys2Proof.Proofs
end

section
/-! PROOFS. PACK and UNPACK as the statements of 44_bitpack.md see them: the packed bit-string and the expanded bytes
element by element (R123 to R125), what each command commits or reports (R126, R128). -/

namespace Sys2Proof.Proofs

open Sys2Proof Sys2Proof.Machine Sys2Proof.Safety Sys2Proof.Laws

/-! ### Operands -/

theorem firstOf_succ_left {α : Type} (n : Nat) (f : Nat → α) :
    firstOf (n + 1) f = f 0 :: firstOf n fun i => f (i + 1) := by
  simp [firstOf, List.range_succ_eq_map, Function.comp_def]

/-- A group of consecutive elements of an operand. -/
theorem firstOf_slice {α : Type} (n : Nat) (f : Nat → α) {i m : Nat} (h : i + m ≤ n) :
    ((firstOf n f).drop i).take m = firstOf m fun j => f (i + j) := by
  refine List.ext_getElem ?_ fun j h1 h2 => ?_
  · simp only [List.length_take, List.length_drop, firstOf_length]
    omega
  · simp

/-! ### Completion -/

/-- The state after a commit of `n` bits (44_bitpack.md R128). -/
theorem finish_commitBits (s : State) {b : List Bool} {n : Nat} (h : b.length = n) :
    (s.commitBits b).finish = { s with
      mem := { s.mem with bit := (s.commitBits b).finish.mem.bit }, bitLen := word n
      err := .noError, errInfo := 0, busy := false, done := true } := by
  subst h; rfl

/-- The state after a commit of `n` bytes (44_bitpack.md R126). -/
theorem finish_commitBytes (s : State) {y : List Byte} {n : Nat} (h : y.length = n) :
    (s.commitBytes y).finish = { s with
      mem := { s.mem with byte := (s.commitBytes y).finish.mem.byte }, byteLen := word n
      err := .noError, errInfo := 0, busy := false, done := true } := by
  subst h; rfl

/-! ### Packing -/

/-- The numeral of a group as the sum of its digits' weights (44_bitpack.md R124). -/
theorem numeral_firstOf (n : Nat) (f : Nat → Bool) :
    numeral (firstOf n f) = ((List.range n).map fun j => (f j).toNat * 2 ^ (n - 1 - j)).sum := by
  induction n generalizing f with
  | zero => rfl
  | succ n ih =>
    rw [firstOf_succ_left, numeral, firstOf_length, ih, List.range_succ_eq_map]
    simp [Function.comp_def, Nat.sub_sub, Nat.add_comm]

/-- The packed form, element by element: the bits, the sentinel, the padding (44_bitpack.md R123). -/
theorem sentinelForm_firstOf (n : Nat) (f : Nat → Bool) :
    sentinelForm (firstOf n f) = firstOf (8 * (n / 8 + 1)) (packedBit n f) := by
  refine List.ext_getElem (by simp [sentinelForm_length]) fun p h1 h2 => ?_
  rw [firstOf_getElem, packedBit]
  rcases Nat.lt_trichotomy p n with h | rfl | h
  · simp [sentinelForm, h]
  · simp [sentinelForm]
  · rw [if_neg (by omega), if_neg (by omega)]
    simp only [sentinelForm]
    rw [List.getElem_append_right (by simpa using h), List.getElem_replicate]

/-- Byte `k` of a packed bit-string (44_bitpack.md R126). -/
theorem packBytes_firstOf_getElem (n : Nat) (f : Nat → Bool) (k : Nat) (h : k < (packBytes (firstOf n f)).length) :
    (packBytes (firstOf n f))[k].toNat =
      ((List.range 8).map fun j => (packedBit n f (8 * k + j)).toNat * 2 ^ (7 - j)).sum := by
  have hk : k < n / 8 + 1 := by simpa [packBytes_length] using h
  have hgroup : (packBytes (firstOf n f))[k] = byteOfGroup (firstOf 8 fun j => packedBit n f (8 * k + j)) := by
    rw [← firstOf_slice (8 * (n / 8 + 1)) (packedBit n f) (by omega : 8 * k + 8 ≤ _), ← sentinelForm_firstOf]
    exact groupBytes_getElem _ _ k h
  rw [hgroup, byteOfGroup_toNat (firstOf_length 8 _), numeral_firstOf]

theorem packOutcome_of_le {s : State} (h : s.bitLen.toNat ≤ 65535) : packOutcome s = .ok (packBytes s.bitOperand) := by
  cases ho : packOutcome s with
  | ok y => rw [(packOutcome_ok ho).2.1]
  | error r => exact absurd (packOutcome_error ho).2 (by omega)

theorem packOutcome_of_lt {s : State} (h : 65535 < s.bitLen.toNat) : packOutcome s = .error ⟨.capacity, s.bitLen⟩ := by
  cases ho : packOutcome s with
  | ok y => exact absurd (packOutcome_ok ho).1 (by omega)
  | error r => rw [(packOutcome_error ho).1]

theorem exec_pack (s : State) : exec .pack s = completeWith s (packOutcome s) State.commitBytes := rfl

theorem exec_pack_of_le {s : State} (h : s.bitLen.toNat ≤ 65535) :
    exec .pack s = .next (s.commitBytes (packBytes s.bitOperand)).finish := by
  rw [exec_pack, packOutcome_of_le h, completeWith_ok]

theorem exec_pack_of_lt {s : State} (h : 65535 < s.bitLen.toNat) :
    exec .pack s = .next (s.raise ⟨.capacity, s.bitLen⟩) := by
  rw [exec_pack, packOutcome_of_lt h, completeWith_error]

theorem packBytes_bitOperand_length (s : State) : (packBytes s.bitOperand).length = s.bitLen.toNat / 8 + 1 := by
  rw [packBytes_length, State.bitOperand, firstOf_length]

/-- Settles O48: the committed bytes are the groups of the packed form, and BYTELEN counts them. -/
theorem packAppendsSentinel : Obligations.PackAppendsSentinel := by
  refine ⟨rfl, fun s h => ?_, fun s h => exec_pack_of_lt h⟩
  have hlen := packBytes_bitOperand_length s
  refine ⟨_, exec_pack_of_le h, ?_, fun k hk => ?_, fun k hk => ?_⟩
  · exact finish_commitBytes s hlen
  · rw [← hlen] at hk
    rw [finish_byteAt, commitBytes_byteAt, dif_pos hk]
    exact packBytes_firstOf_getElem s.bitLen.toNat s.bitAt k hk
  · rw [finish_byteAt, commitBytes_byteAt, dif_neg (by omega)]

/-! ### Unpacking -/

/-- Bit `j` of a byte's expansion as a digit of the byte's number (44_bitpack.md R125). -/
theorem bitsOfByte_getElem (v : Byte) (j : Nat) (h : j < (bitsOfByte v).length) :
    (bitsOfByte v)[j] = (v.toNat / 2 ^ (7 - j) % 2 == 1) := by
  simp [bitsOfByte, BitVec.getLsbD, Nat.testBit_eq_decide_div_mod_eq, Bool.beq_eq_decide_eq]

theorem flatMap_bitsOfByte_length (y : List Byte) : (y.flatMap bitsOfByte).length = 8 * y.length := by
  simp [Nat.mul_comm]

/-- The expansion of the BYTE operand, element by element (44_bitpack.md R125). -/
theorem byteOperand_expand (s : State) :
    s.byteOperand.flatMap bitsOfByte = firstOf (8 * s.byteLen.toNat) (expandedBit s) := by
  have hlen : (s.byteOperand.flatMap bitsOfByte).length = 8 * s.byteLen.toNat := by
    rw [flatMap_bitsOfByte_length, State.byteOperand, firstOf_length]
  refine List.ext_getElem (by rw [hlen, firstOf_length]) fun q h1 h2 => ?_
  have hbyte : q / 8 < s.byteLen.toNat := by omega
  have hbit : q % 8 < 8 := Nat.mod_lt q (by decide)
  have hq := flatMap_getElem? 8 bitsOfByte bitsOfByte_length s.byteOperand (q / 8) (q % 8) hbit
  rw [Nat.div_add_mod, List.getElem?_eq_getElem h1] at hq
  simpa [State.byteOperand, hbyte, hbit, bitsOfByte_getElem, expandedBit] using hq

/-- A 1 with only 0 after it is the last 1 (44_bitpack.md R128). -/
theorem lastOne_firstOf {n p : Nat} {f : Nat → Bool} (hp : p < n) (h1 : f p = true)
    (h0 : ∀ q, p < q → q < n → f q = false) : lastOne (firstOf n f) = some p := by
  cases hl : lastOne (firstOf n f) with
  | none => simp [lastOne_none.mp hl (f p) (mem_firstOf.mpr ⟨p, hp, rfl⟩)] at h1
  | some q =>
    obtain ⟨hq, hq1, hq0⟩ := lastOne_some hl
    rw [firstOf_getElem] at hq1
    rw [firstOf_length] at hq
    rcases Nat.lt_trichotomy p q with h | rfl | h
    · rw [h0 q h hq] at hq1; cases hq1
    · rfl
    · have := hq0 p (by rwa [firstOf_length]) h
      rw [firstOf_getElem, h1] at this; cases this

theorem unpackBits_byteOperand_some {s : State} {p : Nat} (hp : p < 8 * s.byteLen.toNat)
    (h1 : expandedBit s p = true) (h0 : ∀ q, p < q → q < 8 * s.byteLen.toNat → expandedBit s q = false) :
    unpackBits s.byteOperand = some (firstOf p (expandedBit s)) := by
  rw [unpackBits, byteOperand_expand, lastOne_firstOf hp h1 h0, Option.map_some, firstOf_take, min_eq_left hp.le]

theorem unpackBits_byteOperand_none {s : State} (h : ∀ q, q < 8 * s.byteLen.toNat → expandedBit s q = false) :
    unpackBits s.byteOperand = none := by
  have hlast : lastOne (s.byteOperand.flatMap bitsOfByte) = none := by
    rw [byteOperand_expand, lastOne_none]
    intro x hx
    obtain ⟨q, hq, rfl⟩ := mem_firstOf.mp hx
    exact h q hq
  rw [unpackBits, hlast, Option.map_none]

theorem exec_unpack (s : State) : exec .unpack s = completeWith s (unpackOutcome s) State.commitBits := rfl

theorem exec_unpack_of_some {s : State} {b : List Bool} (h : s.byteLen.toNat ≤ 8192)
    (hb : unpackBits s.byteOperand = some b) : exec .unpack s = .next (s.commitBits b).finish := by
  rw [exec_unpack, unpackOutcome, checkLength_ok h, hb, completeWith_ok]

theorem exec_unpack_of_none {s : State} (h : s.byteLen.toNat ≤ 8192) (hb : unpackBits s.byteOperand = none) :
    exec .unpack s = .next (s.raise ⟨.noSentinelFound, s.byteLen⟩) := by
  rw [exec_unpack, unpackOutcome, checkLength_ok h, hb, completeWith_error]

theorem exec_unpack_of_lt {s : State} (h : 8192 < s.byteLen.toNat) :
    exec .unpack s = .next (s.raise ⟨.capacity, s.byteLen⟩) := by
  rw [exec_unpack, unpackOutcome, checkLength_error h, completeWith_error]

/-- Settles O49: the committed bits are the expansion up to its last 1; each of the two checks fails as stated. -/
theorem unpackDropsSentinel : Obligations.UnpackDropsSentinel := by
  refine ⟨rfl, fun s p hle hp h1 h0 => ?_, fun s hle h => ?_, fun s h => exec_unpack_of_lt h⟩
  · refine ⟨_, exec_unpack_of_some hle (unpackBits_byteOperand_some hp h1 h0), ?_, fun q hq => ?_, fun q hq => ?_⟩
    · exact finish_commitBits s (firstOf_length _ _)
    · simp [commitBits_bitAt, hq]
    · simp [commitBits_bitAt, hq]
  · exact exec_unpack_of_none hle (unpackBits_byteOperand_none h)

end Sys2Proof.Proofs
end

section
/-! PROOFS. Completion, DONE and `irq` as the statements of 60_exceptions.md see them: a completion sets DONE and keeps
IE (R148), the hard reset's step, the host writes that act on DONE and IE, NotReady before anything else (R143). -/

namespace Sys2Proof.Proofs

open Sys2Proof Sys2Proof.Machine Sys2Proof.Safety Sys2Proof.Laws

/-! ### Completions -/

/-- A completion, with or without error, sets DONE, and keeps IE when its commit does (30_encoding.md R66). -/
theorem completeWith_done_ie {α : Type} {s t : State} {o : Except Raise α} {c : α → State → State}
    (hc : ∀ a, (c a s).ie = s.ie) (h : completeWith s o c = .next t) : t.done = true ∧ t.ie = s.ie := by
  rcases completeWith_next.mp h with ⟨a, -, rfl⟩ | ⟨r, -, rfl⟩
  · exact ⟨rfl, hc a⟩
  · exact ⟨rfl, rfl⟩

/-- Every command's completion sets DONE and keeps IE: no commit writes CTRL. -/
theorem exec_done_ie {i : Instr} {s t : State} (h : exec i s = .next t) : t.done = true ∧ t.ie = s.ie := by
  cases i
  case freq => exact completeWith_done_ie (commitFreq_ie s) h
  case build => exact completeWith_done_ie (commitTree_ie s) h
  case derive =>
    replace h : execDerive s = .next t := h
    rcases execDerive_cases s with ⟨-, hd⟩ | ⟨-, rows, -, -, -, hd⟩ | ⟨-, -, hd⟩ <;> rw [hd] at h <;> cases h
    · exact ⟨rfl, rfl⟩
    · exact ⟨rfl, commitTable_ie s rows⟩
  case invert => exact completeWith_done_ie (commitValid_ie s) h
  case encode => exact completeWith_done_ie (commitBits_ie s) h
  case decode => exact completeWith_done_ie (commitText_ie s) h
  case ser => exact completeWith_done_ie (commitScheme_ie s) h
  case parse => exact completeWith_done_ie (commitTable_ie s) h
  case pack => exact completeWith_done_ie (commitBytes_ie s) h
  case unpack => exact completeWith_done_ie (commitBits_ie s) h

/-- So does the engine's turn while BUSY = 1, on an illegal word as well (30_encoding.md R64). -/
theorem engineTurn_done_ie {s t : State} (hb : s.busy = true) (h : engineTurn s = .next t) :
    t.done = true ∧ t.ie = s.ie := by
  rcases engineTurn_cases s with ⟨hb', -⟩ | ⟨-, i, -, hi⟩ | ⟨-, -, hr⟩
  · rw [hb] at hb'; cases hb'
  · exact exec_done_ie (hi.symm.trans h)
  · cases hr.symm.trans h
    exact ⟨rfl, rfl⟩

/-! ### The hard reset's step -/

/-- The hard reset comes next when it is the first input, or the second behind a held request
(70_reset_and_hazards.md R152). -/
theorem inputs_of_resets {s : State} (h : resets s = true) :
    ∃ rest, s.inputs = .hardReset :: rest ∨
      ∃ r, s.accepts r = false ∧ s.inputs = .request r :: .hardReset :: rest := by
  unfold resets at h
  split at h
  case h_1 rest hi => exact ⟨rest, .inl hi⟩
  case h_2 r rest hi => exact ⟨rest, .inr ⟨r, by simpa using h, hi⟩⟩
  case h_3 => cases h

theorem step_of_resets {s : State} (h : resets s = true) :
    ∃ rest, step s = .next ({ s with inputs := rest } : State).hardReset := by
  obtain ⟨rest, hi | ⟨r, ha, hi⟩⟩ := inputs_of_resets h
  · exact ⟨rest, by simp [step, agentStep, hi]⟩
  · exact ⟨rest, by simp [step, agentStep, hi, ha]⟩

/-! ### DONE, IE and `irq` -/

/-- A pending completion is seen as IE. -/
theorem irq_of_done {s : State} (h : s.done = true) : s.irq = s.ie := by simp [State.irq, h]

theorem irq_of_not_done {s : State} (h : s.done = false) : s.irq = false := by simp [State.irq, h]

/-- DONE is bit 1 of STATUS (10_state.md R21). -/
theorem statusWord_bit1 (s : State) : s.statusWord.getLsbD 1 = s.done := by
  simp only [State.statusWord, BitVec.getLsbD_append]
  simp [bitField]

/-- A write to CTRL with bit 1 set is the soft reset (10_state.md R19). -/
theorem writeCtrl_of_bit1 (s : State) {w : Word} (h : w.getLsbD 1 = true) : s.writeCtrl w = s.softReset := by
  rcases writeCtrl_cases s w with ⟨h', -⟩ | ⟨-, hw⟩
  · rw [h] at h'; cases h'
  · exact hw

/-- With bit 1 clear it writes IE alone. -/
theorem writeCtrl_of_not_bit1 (s : State) {w : Word} (h : w.getLsbD 1 = false) :
    s.writeCtrl w = { s with ie := w.getLsbD 0 } := by
  rcases writeCtrl_cases s w with ⟨-, hw⟩ | ⟨h', -⟩
  · exact hw
  · rw [h] at h'; cases h'

/-- A write to STATUS with bit 1 set clears DONE (10_state.md R21). -/
theorem writeStatus_of_bit1 (s : State) {w : Word} (h : w.getLsbD 1 = true) :
    s.writeStatus w = { s with done := false } := by
  rcases writeStatus_cases s w with ⟨h', -⟩ | ⟨-, hw⟩
  · rw [h] at h'; cases h'
  · exact hw

theorem transact_write_ctrl (s : State) (w : Word) : (s.transact (.write 0x00004 w)).1 = s.writeCtrl w :=
  congrArg Prod.fst (transact_write_of_locate s w (l := .ctrl) rfl rfl)

theorem transact_write_cmd (s : State) (w : Word) : (s.transact (.write 0x00008 w)).1 = s.startCommand w :=
  congrArg Prod.fst (transact_write_of_locate s w (l := .cmd) rfl rfl)

theorem transact_write_status (s : State) (w : Word) : (s.transact (.write 0x0000C w)).1 = s.writeStatus w :=
  congrArg Prod.fst (transact_write_of_locate s w (l := .status) rfl rfl)

/-! ### NotReady -/

theorem needTable_of_not_tableValid {s : State} (h : s.tableValid = false) :
    needTable s = .error ⟨.notReady, 0⟩ := by simp [needTable, h]

/-- The three commands that need a table report NotReady before they look at an operand (60_exceptions.md R143). -/
theorem encodeOutcome_of_not_tableValid {s : State} (h : s.tableValid = false) :
    encodeOutcome s = .error ⟨.notReady, 0⟩ := by rw [encodeOutcome, needTable_of_not_tableValid h]

theorem decodeOutcome_of_not_tableValid {s : State} (h : s.tableValid = false) :
    decodeOutcome s = .error ⟨.notReady, 0⟩ := by rw [decodeOutcome, needTable_of_not_tableValid h]

theorem serOutcome_of_not_tableValid {s : State} (h : s.tableValid = false) :
    serOutcome s = .error ⟨.notReady, 0⟩ := by rw [serOutcome, needTable_of_not_tableValid h]

/-- A command whose outcome is an error fails with it. -/
theorem failsWith_of_error {α : Type} {i : Instr} {s : State} {o : Except Raise α} {c : α → State → State}
    {k : ErrKind} {info : Word} (hi : exec i s = completeWith s o c) (ho : o = .error ⟨k, info⟩) :
    FailsWith i s k info := by
  rw [FailsWith, hi, ho]
  rfl

/-! ### The obligations -/

/-- Settles O19: `irq` is IE and DONE by definition, so each clause says what its step or write does to the two. -/
theorem interruptIsLevelOfDone : Obligations.InterruptIsLevelOfDone := by
  refine ⟨fun _ => rfl, fun s => ?read, fun i s t h => ?command, fun s t hb hm h => ?engine, fun s w h1 => ?status,
    fun s w => ?cmd, fun s w h1 => ?soft, fun s t hr h => ?hard, fun s w h1 => ?ie, rfl⟩
  case read =>
    exact ⟨s.statusWord, congrArg Prod.snd (transact_read_of_locate s (l := .status) rfl), statusWord_bit1 s⟩
  case command =>
    obtain ⟨hd, hie⟩ := exec_done_ie h
    exact ⟨hd, (irq_of_done hd).trans hie⟩
  case engine =>
    rw [step_of_engineMoves hm] at h
    obtain ⟨hd, hie⟩ := engineTurn_done_ie (s := { s with inputs := inputsAfterEngine s }) hb h
    exact ⟨hd, (irq_of_done hd).trans hie⟩
  case status =>
    rw [transact_write_status, writeStatus_of_bit1 s h1]
    exact ⟨rfl, irq_of_not_done rfl⟩
  case cmd =>
    rw [transact_write_cmd]
    exact ⟨rfl, irq_of_not_done rfl⟩
  case soft =>
    rw [transact_write_ctrl, writeCtrl_of_bit1 s h1]
    exact ⟨rfl, irq_of_not_done rfl⟩
  case hard =>
    obtain ⟨rest, hs⟩ := step_of_resets hr
    cases hs.symm.trans h
    exact ⟨rfl, irq_of_not_done rfl⟩
  case ie =>
    rw [transact_write_ctrl, writeCtrl_of_not_bit1 s h1]
    exact ⟨rfl, rfl⟩

/-- Settles O37: the first check of each of the four commands is its flag. -/
theorem notReadyBeforeAnythingElse : Obligations.NotReadyBeforeAnythingElse := by
  refine fun s => ⟨fun hv => ?_, fun hv => ⟨?_, ?_, ?_⟩⟩
  · rcases execDerive_cases s with ⟨-, hd⟩ | ⟨hv', -⟩ | ⟨hv', -⟩
    · exact hd
    · rw [hv] at hv'; cases hv'
    · rw [hv] at hv'; cases hv'
  · exact failsWith_of_error rfl (encodeOutcome_of_not_tableValid hv)
  · exact failsWith_of_error rfl (decodeOutcome_of_not_tableValid hv)
  · exact failsWith_of_error rfl (serOutcome_of_not_tableValid hv)

end Sys2Proof.Proofs
end

section
/-! PROOFS. CTRL as the statement of 70_reset_and_hazards.md sees it: what a write to it does, with and without the soft
reset (10_state.md R19; R153), and what a read of it answers. -/

namespace Sys2Proof.Proofs

open Sys2Proof Sys2Proof.Machine Sys2Proof.Safety Sys2Proof.Laws

theorem ctrlWord_eq (s : State) : s.ctrlWord = if s.ie then 1 else 0 := by
  cases h : s.ie <;> rw [State.ctrlWord, h] <;> rfl

theorem readsAs_ctrl (s : State) : ReadsAs s 0x00004 s.ctrlWord :=
  congrArg Prod.snd (transact_read_of_locate s (l := .ctrl) rfl)

theorem writesTo_ctrl (s : State) (w : Word) : WritesTo s 0x00004 w (s.writeCtrl w) :=
  transact_write_of_locate s w (l := .ctrl) rfl rfl

/-- With BUSY = 0 the soft reset has nothing to do to BUSY (70_reset_and_hazards.md R153). -/
theorem softReset_of_not_busy {s : State} (h : s.busy = false) :
    s.softReset =
      { s with
        ie := false, cmd := 0, done := false, err := .noError, treeValid := false, tableValid := false, errInfo := 0
        textLen := 0, nFreq := 0, nNode := 0, root := 0, nCode := 0, bitLen := 0, byteLen := 0, schLen := 0 } := by
  rw [h]
  rfl

/-- Settles O13: bit 1 of the written word decides between the plain IE write and the soft reset. -/
theorem ctrlWriteAndSoftReset : Obligations.CtrlWriteAndSoftReset := by
  refine fun s w => ⟨fun h1 => ?plain, fun h1 hb => ?soft, ?read⟩
  case plain =>
    rw [← writeCtrl_of_not_bit1 s h1]
    exact writesTo_ctrl s w
  case soft =>
    rw [← softReset_of_not_busy hb, ← writeCtrl_of_bit1 s h1]
    exact writesTo_ctrl s w
  case read =>
    rw [← ctrlWord_eq]
    exact readsAs_ctrl s

end Sys2Proof.Proofs
end

section
/-! PROOFS. The ten commands as the statements of 30_encoding.md see them: the words that denote them (R60, R62), what
a completion leaves (R66) and which errors it can report (60_exceptions.md R132, R133), what each command leaves
unchanged (R63). -/

namespace Sys2Proof.Proofs

open Sys2Proof Sys2Proof.Machine Sys2Proof.Safety Sys2Proof.Laws

/-! ### Operands -/

/-- An operand around one of its elements. -/
theorem firstOf_split {α : Type} {n i : Nat} (f : Nat → α) (h : i < n) :
    firstOf n f = (firstOf n f).take i ++ f i :: (firstOf n f).drop (i + 1) := by
  have hget : (firstOf n f)[i]'(by rwa [firstOf_length]) = f i := firstOf_getElem n f i _
  rw [← hget, List.getElem_cons_drop, List.take_append_drop]

theorem textOperand_split {s : State} {i : Nat} (hi : i < s.textLen.toNat) :
    s.textOperand = s.textOperand.take i ++ s.textAt i :: s.textOperand.drop (i + 1) := firstOf_split _ hi

theorem textOperand_length (s : State) : s.textOperand.length = s.textLen.toNat := firstOf_length _ _

theorem textOperand_take_length {s : State} {i : Nat} (hi : i < s.textLen.toNat) :
    (s.textOperand.take i).length = i := by
  rw [List.length_take, textOperand_length, min_eq_left hi.le]

/-! ### Legal words -/

theorem opcodeMap_some {n : Nat} {i : Instr} (h : opcodeMap n = some i) : i.opc.toNat = n := by
  unfold opcodeMap at h
  split at h <;> cases h <;> rfl

theorem decode_encode (i : Instr) : decode (encode i) = .ok i := by cases i <;> rfl

/-- The word of a command is its opcode (30_encoding.md R59). -/
theorem encode_toNat (i : Instr) : (encode i).toNat = i.opc.toNat := by cases i <;> rfl

/-- A word decodes or it does not. -/
theorem decode_ok_iff (w : Word) : (∃ i, decode w = .ok i) ↔ ¬ ∃ e, decode w = .error e := by
  cases decode w <;> simp

theorem opc_of_decode {w : Word} {i : Instr} (h : decode w = .ok i) : i.opc.toNat = w.toNat % 256 := by
  rw [← splitWord_opc_toNat]
  unfold decode at h
  split at h
  · split at h
    · next hm => cases h; exact opcodeMap_some hm
    · cases h
  · cases h

/-- The legal words as numbers (30_encoding.md R60). -/
theorem decode_ok_iff_toNat (w : Word) :
    (∃ i, decode w = .ok i) ↔ w.toNat / 256 = 0 ∧ 1 ≤ w.toNat % 256 ∧ w.toNat % 256 ≤ 10 := by
  rw [decode_ok_iff, decode_error_iff]
  omega

/-- Settles O1: a legal word has RSV = 0, so its opcode, which the opcode map inverts, is the whole word. -/
theorem legalWordsAreTheTenCommands : Obligations.LegalWordsAreTheTenCommands := by
  refine fun w => ⟨decode_ok_iff_toNat w, fun i h => opc_of_decode h, fun i => ⟨fun h => ?_, ?_⟩⟩
  · have hopc := opc_of_decode h
    have hrsv := ((decode_ok_iff_toNat w).mp ⟨i, h⟩).1
    refine BitVec.eq_of_toNat_eq ?_
    rw [encode_toNat]
    omega
  · rintro rfl
    exact decode_encode i

/-- Settles O2: the ten words are the encodings of the ten commands. -/
theorem decodesTheOpcodeMap : Obligations.DecodesTheOpcodeMap :=
  ⟨decode_encode .freq, decode_encode .build, decode_encode .derive, decode_encode .invert, decode_encode .encode,
    decode_encode .decode, decode_encode .ser, decode_encode .parse, decode_encode .pack, decode_encode .unpack⟩

/-! ### Completions -/

/-- The error kinds each command can report (60_exceptions.md R133). -/
def errorsOf : Instr → List ErrKind
  | .freq => [.capacity]
  | .build => [.emptyInput, .capacity, .badOperand]
  | .derive => [.notReady]
  | .invert => [.malformedScheme, .capacity]
  | .encode => [.notReady, .capacity, .unknownSymbol]
  | .decode => [.notReady, .capacity, .undecodableSequence]
  | .ser => [.notReady, .capacity, .badOperand]
  | .parse => [.malformedScheme, .capacity]
  | .pack => [.capacity]
  | .unpack => [.capacity, .noSentinelFound]

/-- A completion reports no error, or one its outcome can be. -/
theorem completeWith_err {α : Type} {s t : State} {o : Except Raise α} {c : α → State → State} {ks : List ErrKind}
    (ho : ∀ r, o = .error r → r.kind ∈ ks) (h : completeWith s o c = .next t) : t.err ∈ .noError :: ks := by
  rcases completeWith_next.mp h with ⟨a, -, rfl⟩ | ⟨r, hr, rfl⟩
  · exact List.mem_cons_self
  · exact List.mem_cons_of_mem _ (ho r hr)

theorem buildOutcome_error {s : State} {r : Raise} (h : buildOutcome s = .error r) :
    r.kind = .emptyInput ∨ r.kind = .badOperand ∨ r.kind = .capacity := by
  rcases buildOutcome_cases s with ⟨-, hb⟩ | ⟨r', hc, hb⟩ <;> rw [hb] at h <;> cases h
  exact checkFreqs_error hc

/-- Every completion reports an error of the command's row, or none (60_exceptions.md R133). -/
theorem exec_err {i : Instr} {s t : State} (h : exec i s = .next t) : t.err ∈ .noError :: errorsOf i := by
  cases i
  case freq => exact completeWith_err (fun r hr => by simp [freqOutcome_error hr, errorsOf]) h
  case build =>
    exact completeWith_err (fun r hr => by rcases buildOutcome_error hr with h | h | h <;> simp [h, errorsOf]) h
  case derive =>
    replace h : execDerive s = .next t := h
    rcases execDerive_cases s with ⟨-, hd⟩ | ⟨-, rows, -, -, -, hd⟩ | ⟨-, -, hd⟩ <;> rw [hd] at h <;> cases h
    · simp [errorsOf]
    · exact List.mem_cons_self
  case invert =>
    exact completeWith_err (fun r hr => by rcases invertOutcome_error hr with h | h <;> simp [h, errorsOf]) h
  case encode =>
    exact completeWith_err (fun r hr => by rcases encodeOutcome_error hr with h | h | h <;> simp [h, errorsOf]) h
  case decode =>
    exact completeWith_err (fun r hr => by rcases decodeOutcome_error hr with h | h | h <;> simp [h, errorsOf]) h
  case ser =>
    exact completeWith_err (fun r hr => by rcases serOutcome_error hr with h | h | h <;> simp [h, errorsOf]) h
  case parse =>
    exact completeWith_err (fun r hr => by rcases parseOutcome_error hr with h | h <;> simp [h, errorsOf]) h
  case pack => exact completeWith_err (fun r hr => by simp [(packOutcome_error hr).1, errorsOf]) h
  case unpack =>
    exact completeWith_err (fun r hr => by rcases unpackOutcome_error hr with h | h <;> simp [h, errorsOf]) h

/-- What no commit touches: CTRL, CMD and the model's own fields. -/
structure KeepsOwn (s t : State) : Prop where
  ie : t.ie = s.ie
  cmd : t.cmd = s.cmd
  inputs : t.inputs = s.inputs
  responses : t.responses = s.responses
  epoch : t.epoch = s.epoch

/-- A command ends in `raise`, or in `finish` after a commit (30_encoding.md R66). -/
theorem exec_ends {i : Instr} {s t : State} (h : exec i s = .next t) :
    (∃ r : Raise, r.kind ≠ .noError ∧ t = s.raise r) ∨ ∃ c : State, t = c.finish ∧ KeepsOwn s c := by
  refine (exec_next h).imp_right fun hc => ?_
  cases i
  case build => obtain ⟨-, rfl⟩ := hc; exact ⟨_, rfl, ⟨rfl, rfl, rfl, rfl, rfl⟩⟩
  case derive => obtain ⟨-, _, -, -, -, rfl⟩ := hc; exact ⟨_, rfl, ⟨rfl, rfl, rfl, rfl, rfl⟩⟩
  case invert => obtain ⟨-, rfl⟩ := hc; exact ⟨_, rfl, ⟨rfl, rfl, rfl, rfl, rfl⟩⟩
  all_goals obtain ⟨_, -, rfl⟩ := hc; exact ⟨_, rfl, ⟨rfl, rfl, rfl, rfl, rfl⟩⟩

theorem exec_keepsOwn {i : Instr} {s t : State} (h : exec i s = .next t) : KeepsOwn s t := by
  rcases exec_ends h with ⟨r, -, rfl⟩ | ⟨c, rfl, ⟨h1, h2, h3, h4, h5⟩⟩
  · exact ⟨rfl, rfl, rfl, rfl, rfl⟩
  · exact ⟨h1, h2, h3, h4, h5⟩

/-- Every completion leaves BUSY = 0 and DONE = 1, and ERRINFO = 0 unless it reports an error (30_encoding.md R66). -/
theorem exec_status {i : Instr} {s t : State} (h : exec i s = .next t) :
    t.busy = false ∧ t.done = true ∧ (t.err = .noError → t.errInfo = 0) := by
  rcases exec_ends h with ⟨r, hr, rfl⟩ | ⟨c, rfl, -⟩
  · exact ⟨rfl, rfl, fun he => absurd he hr⟩
  · exact ⟨rfl, rfl, fun _ => rfl⟩

/-- Settles O6: an error comes from `raise` alone. -/
theorem failingCommandChangesNothingElse : Obligations.FailingCommandChangesNothingElse := by
  intro i s t h he
  rcases exec_ends h with ⟨r, -, rfl⟩ | ⟨c, rfl, -⟩
  · rfl
  · exact absurd rfl he

/-- Settles O7, from the two ways a command ends and the errors of its row. -/
theorem completionIdlesWithLegalError : Obligations.CompletionIdlesWithLegalError := by
  intro i s t h
  obtain ⟨hbusy, hdone, hinfo⟩ := exec_status h
  obtain ⟨hie, hcmd, hinputs, hresponses, hepoch⟩ := exec_keepsOwn h
  have herr := exec_err h
  refine ⟨hbusy, hdone, hinfo, hie, hcmd, hinputs, hresponses, hepoch, ?_⟩
  cases i <;> exact herr

/-! ### Frames -/

/-- Settles O50: the two commits write up to their output length, `raise` writes nothing. -/
theorem frameOfFreqAndBuild : Obligations.FrameOfFreqAndBuild := by
  refine ⟨fun s t h => ?freq, fun s t h => ?build⟩
  case freq =>
    rcases exec_next h with ⟨r, -, rfl⟩ | ⟨l, hl, rfl⟩
    · exact ⟨rfl, fun _ => rfl, fun _ _ => ⟨rfl, rfl⟩⟩
    · have hlen := (freqOutcome_ok hl).2.1
      refine ⟨rfl, fun he => absurd rfl he, fun i hi => ?_⟩
      have hi : (word l.length).toNat ≤ i := hi rfl
      rw [word_toNat (by omega)] at hi
      simp [commitFreq_freqCountAt, commitFreq_freqSymAt, Nat.not_lt.mpr hi]
  case build =>
    rcases exec_next h with ⟨r, -, rfl⟩ | ⟨hc, rfl⟩
    · exact ⟨rfl, fun _ => ⟨rfl, rfl, rfl⟩, fun _ _ => ⟨rfl, rfl, rfl⟩⟩
    · obtain ⟨h1, hMax, -⟩ := checkFreqs_ok.mp hc
      have hlen := buildTree_length (f := s.freqOperand) (by rwa [State.freqOperand, firstOf_length])
      rw [State.freqOperand, firstOf_length, ← State.freqOperand] at hlen
      refine ⟨rfl, fun he => absurd rfl he, fun i hi => ?_⟩
      have hi : (word (buildTree s.freqOperand).1.length).toNat ≤ i := hi rfl
      rw [word_toNat (by omega)] at hi
      simp [commitTree_nodeKindAt, commitTree_nodeAAt, commitTree_nodeBAt, Nat.not_lt.mpr hi]

/-- What the commit of a table leaves unchanged (42_code_table.md R95). -/
theorem commitTable_frame (s : State) {l : List (Word × List Bool)} {k : Nat} (hlen : l.length ≤ 256)
    (hk : (word l.length).toNat ≤ k) :
    (s.commitTable l).codeSymAt k = s.codeSymAt k ∧ (s.commitTable l).codeLenAt k = s.codeLenAt k ∧
      ∀ j, j < 256 → (s.commitTable l).codeBitAt k j = s.codeBitAt k j := by
  rw [word_toNat (by omega)] at hk
  have hk' : ¬ k < l.length := Nat.not_lt.mpr hk
  refine ⟨?_, ?_, fun j hj => ?_⟩
  · rw [commitTable_codeSymAt, dif_neg hk']
  · rw [commitTable_codeLenAt, dif_neg hk']
  · rw [commitTable_codeBitAt s l k hj, dif_neg hk']

/-- DERIVE and PARSE commit a table that fits CODE memory, or nothing. -/
theorem exec_makesTable {i : Instr} {s t : State} (hi : i = .derive ∨ i = .parse) (h : exec i s = .next t) :
    (∃ r : Raise, r.kind ≠ .noError ∧ t = s.raise r) ∨
      ∃ l : List (Word × List Bool), l.length ≤ 256 ∧ t = (s.commitTable l).finish := by
  refine (exec_next h).imp_right fun hc => ?_
  rcases hi with rfl | rfl
  · obtain ⟨-, l, -, hlen, -, rfl⟩ := hc
    exact ⟨l, hlen, rfl⟩
  · obtain ⟨l, hl, rfl⟩ := hc
    exact ⟨l, (parseOutcome_ok hl).2.1, rfl⟩

/-- Settles O51: DERIVE and PARSE share their commit, INVERT's writes TVALID alone. -/
theorem frameOfTableCommands : Obligations.FrameOfTableCommands := by
  refine ⟨fun i s t hi h => ?_, fun s t h => ?_⟩
  · rcases exec_makesTable hi h with ⟨r, -, rfl⟩ | ⟨l, hlen, rfl⟩
    · exact ⟨rfl, fun _ => ⟨rfl, rfl⟩, fun _ _ => ⟨rfl, rfl, fun _ _ => rfl⟩⟩
    · exact ⟨rfl, fun he => absurd rfl he, fun k hk => commitTable_frame s hlen (hk rfl)⟩
  · rcases exec_next h with ⟨r, -, rfl⟩ | ⟨-, rfl⟩
    · exact ⟨rfl, fun _ => rfl⟩
    · exact ⟨rfl, fun he => absurd rfl he⟩

/-- ENCODE and UNPACK commit bits that fit BIT memory, or nothing. -/
theorem exec_makesBits {i : Instr} {s t : State} (hi : i = .encode ∨ i = .unpack) (h : exec i s = .next t) :
    (∃ r : Raise, r.kind ≠ .noError ∧ t = s.raise r) ∨
      ∃ b : List Bool, b.length ≤ 65536 ∧ t = (s.commitBits b).finish := by
  refine (exec_next h).imp_right fun hc => ?_
  rcases hi with rfl | rfl
  · obtain ⟨b, hb, rfl⟩ := hc
    exact ⟨b, (encodeOutcome_ok hb).2.2.1, rfl⟩
  · obtain ⟨b, hb, rfl⟩ := hc
    obtain ⟨hle, -, hlt⟩ := unpackOutcome_ok hb
    exact ⟨b, by omega, rfl⟩

/-- Settles O52: each commit writes up to its output length, `raise` writes nothing. -/
theorem frameOfBitAndTextCommands : Obligations.FrameOfBitAndTextCommands := by
  refine ⟨fun i s t hi h => ?_, fun s t h => ?_⟩
  · rcases exec_makesBits hi h with ⟨r, -, rfl⟩ | ⟨b, hlen, rfl⟩
    · exact ⟨rfl, fun _ => rfl, fun _ _ => rfl⟩
    · refine ⟨rfl, fun he => absurd rfl he, fun k hk => ?_⟩
      have hk : (word b.length).toNat ≤ k := hk rfl
      rw [word_toNat (by omega)] at hk
      rw [finish_bitAt, commitBits_bitAt, dif_neg (Nat.not_lt.mpr hk)]
  · rcases exec_next h with ⟨r, -, rfl⟩ | ⟨l, hl, rfl⟩
    · exact ⟨rfl, fun _ => rfl, fun _ _ => rfl⟩
    · have hlen := (decodeOutcome_ok hl).2.2.1
      refine ⟨rfl, fun he => absurd rfl he, fun k hk => ?_⟩
      have hk : (word l.length).toNat ≤ k := hk rfl
      rw [word_toNat (by omega)] at hk
      rw [finish_textAt, commitText_textAt, dif_neg (Nat.not_lt.mpr hk)]

/-- Settles O53: each commit writes up to its output length, `raise` writes nothing. -/
theorem frameOfSchemeAndByteCommands : Obligations.FrameOfSchemeAndByteCommands := by
  refine ⟨fun s t h => ?_, fun s t h => ?_⟩
  · rcases exec_next h with ⟨r, -, rfl⟩ | ⟨c, hc, rfl⟩
    · exact ⟨rfl, fun _ => rfl, fun _ _ => rfl⟩
    · have hlen := (serOutcome_ok hc).2.2.1
      refine ⟨rfl, fun he => absurd rfl he, fun k hk => ?_⟩
      have hk : (word c.length).toNat ≤ k := hk rfl
      rw [word_toNat (by omega)] at hk
      rw [finish_schAt, commitScheme_schAt, dif_neg (Nat.not_lt.mpr hk)]
  · rcases exec_next h with ⟨r, -, rfl⟩ | ⟨y, hy, rfl⟩
    · exact ⟨rfl, fun _ => rfl, fun _ _ => rfl⟩
    · obtain ⟨hle, -, hlen⟩ := packOutcome_ok hy
      refine ⟨rfl, fun he => absurd rfl he, fun k hk => ?_⟩
      have hk : (word y.length).toNat ≤ k := hk rfl
      rw [word_toNat (by omega)] at hk
      rw [finish_byteAt, commitBytes_byteAt, dif_neg (Nat.not_lt.mpr hk)]

end Sys2Proof.Proofs
end

section
/-! PROOFS. BUILD as the statements of 41_tree_build.md see it: its rounds as a relation (R80 to R83), the tree they
make (R88), the priority queue that makes the same one (R87), the operand checks (R78). -/

namespace Sys2Proof.Proofs

open Sys2Proof Sys2Proof.Machine Sys2Proof.Safety Sys2Proof.Laws

/-! ### The rounds as a relation -/

theorem isLowest_of_lowest {w : List Item} {p : Nat} {x : Item} (h : lowest w = some (p, x)) :
    IsLowest w p ∧ w.getD p ⟨0, 0⟩ = x := by
  obtain ⟨hp, rfl, hle, hlt⟩ := lowest_some h
  refine ⟨⟨hp, fun q hq => ?_, fun q hq => ?_⟩, List.getD_eq_getElem _ _ hp⟩
  · rw [List.getD_eq_getElem _ _ hp, List.getD_eq_getElem _ _ hq]
    exact hle q hq
  · have hq' : q < w.length := hq.trans hp
    rw [List.getD_eq_getElem _ _ hp, List.getD_eq_getElem _ _ hq']
    exact hlt q hq' hq

theorem isSecondLowest_of_secondLowest {w : List Item} {lo p : Nat} {x : Item}
    (h : secondLowest w lo = some (p, x)) : IsSecondLowest w lo p ∧ w.getD p ⟨0, 0⟩ = x := by
  obtain ⟨hp, rfl, hne, hle, hlt⟩ := secondLowest_some h
  refine ⟨⟨hp, hne, fun q hq hql => ?_, fun q hq hql => ?_⟩, List.getD_eq_getElem _ _ hp⟩
  · rw [List.getD_eq_getElem _ _ hp, List.getD_eq_getElem _ _ hq]
    exact hle q hq hql
  · have hq' : q < w.length := hq.trans hp
    rw [List.getD_eq_getElem _ _ hp, List.getD_eq_getElem _ _ hq']
    exact hlt q hq' hq hql

/-- The rounds of R83 follow the rules of R80 to R82 and leave one item, the root. -/
theorem merges_mergeRounds {k : Nat} {w : List Item} (t : List TreeNode) (hw : w.length = k + 1) :
    ∃ root, (mergeRounds k w t).1 = [root] ∧ Merges w t root (mergeRounds k w t).2 := by
  induction k generalizing w t with
  | zero =>
    obtain ⟨root, rfl⟩ := List.length_eq_one_iff.mp hw
    exact ⟨root, rfl, .done root t⟩
  | succ k ih =>
    obtain ⟨lo, hi, x, y, hlo, hhi, hround⟩ := mergeRound_cases (w := w) t (by omega)
    obtain ⟨hlow, rfl⟩ := isLowest_of_lowest hlo
    obtain ⟨hsecond, rfl⟩ := isSecondLowest_of_secondLowest hhi
    have hlen := (mergeRound_length (w := w) t (by omega)).1
    obtain ⟨root, hroot, hm⟩ := ih (w := (mergeRound w t).1) (mergeRound w t).2 (by omega)
    refine ⟨root, hroot, .round w t lo hi root _ hlow hsecond ?_⟩
    rw [hround] at hm
    rwa [mergeRounds, hround]

/-- The tree of a frequency list is the one the rules of R79 to R83 give. -/
theorem merges_buildTree {f : List (Word × Word)} (hf : 1 ≤ f.length) :
    ∃ root, (buildTree f).2 = root.node ∧ Merges (seedItems f) (seedNodes f) root (buildTree f).1 := by
  obtain ⟨root, hroot, hm⟩ := merges_mergeRounds (k := f.length - 1) (w := seedItems f) (seedNodes f)
    (by simp [seedItems]; omega)
  exact ⟨root, by simp [buildTree, hroot], hm⟩

/-! ### The forest between two rounds -/

/-- The children a node names, left before right. -/
def nodeChildren : TreeNode → List Nat
  | .leaf _ => []
  | .branch l r => [l, r]

/-- What every round keeps, the working collection being `w` and the nodes `t`: each node is an item's or the child
of one Branch, once; the seeds come first; every later node is a Branch whose children have smaller indices. -/
structure Forest (f : List (Word × Word)) (w : List Item) (t : List TreeNode) : Prop where
  perm : (w.map Item.node ++ t.flatMap nodeChildren).Perm (List.range t.length)
  seeds : seedNodes f <+: t
  branch : ∀ i (hi : i < t.length), f.length ≤ i → ∃ l r, t[i] = .branch l r ∧ l < i ∧ r < i

@[simp] theorem seedNodes_length (f : List (Word × Word)) : (seedNodes f).length = f.length := by simp [seedNodes]

@[simp] theorem seedItems_length (f : List (Word × Word)) : (seedItems f).length = f.length := by simp [seedItems]

theorem seedItems_node (f : List (Word × Word)) : (seedItems f).map Item.node = List.range f.length := by
  simp only [seedItems, List.map_map, Function.comp_def]
  exact (List.zipIdx_map_snd 0 f).trans List.range_eq_range'.symm

theorem forest_seed (f : List (Word × Word)) : Forest f (seedItems f) (seedNodes f) where
  perm := by
    have : (seedNodes f).flatMap nodeChildren = [] := by simp [seedNodes, List.flatMap_map, nodeChildren]
    rw [this, seedItems_node, seedNodes_length, List.append_nil]
  seeds := List.prefix_refl _
  branch i h1 h2 := by simp at h1; omega

/-- Replacing one element and deleting another takes the two away and adds the new one. -/
theorem set_eraseIdx_perm {α : Type} {l : List α} {lo hi : Nat} (hlo : lo < l.length) (hhi : hi < l.length)
    (hne : hi ≠ lo) (a : α) : (l[lo] :: l[hi] :: (l.set lo a).eraseIdx hi).Perm (a :: l) := by
  have hget : (l.set lo a)[hi]'(by simpa using hhi) = l[hi] := List.getElem_set_ne (Ne.symm hne) _
  calc
    (l[lo] :: l[hi] :: (l.set lo a).eraseIdx hi).Perm (l[lo] :: l.set lo a) := by
      rw [← hget]; exact (List.getElem_cons_eraseIdx_perm _).cons _
    List.Perm _ (l[lo] :: a :: l.eraseIdx lo) := (List.set_perm_cons_eraseIdx hlo a).cons _
    List.Perm _ (a :: l[lo] :: l.eraseIdx lo) := .swap _ _ _
    List.Perm _ (a :: l) := (List.getElem_cons_eraseIdx_perm hlo).cons _

/-- The nodes of the items after a round, with the two that became children. -/
theorem mergedItems_node_perm {w : List Item} {lo hi : Nat} (next : Nat) (hlo : lo < w.length) (hhi : hi < w.length)
    (hne : hi ≠ lo) :
    ((mergedItems w lo hi next).map Item.node ++ nodeChildren (mergedNode w lo hi)).Perm
      (next :: w.map Item.node) := by
  have h := set_eraseIdx_perm (l := w.map Item.node) (by simpa using hlo) (by simpa using hhi) hne next
  simp only [List.getElem_map] at h
  rw [mergedItems, mergedNode, ← List.eraseIdx_map, List.map_set, List.getD_eq_getElem _ _ hlo,
    List.getD_eq_getElem _ _ hhi]
  exact List.perm_append_comm.trans h

theorem Forest.round {f : List (Word × Word)} {w : List Item} {t : List TreeNode} {lo hi : Nat}
    (h : Forest f w t) (hlo : lo < w.length) (hhi : hi < w.length) (hne : hi ≠ lo) :
    Forest f (mergedItems w lo hi t.length) (t ++ [mergedNode w lo hi]) where
  perm := by
    rw [List.flatMap_append, List.length_append, List.length_singleton, List.range_succ, List.flatMap_singleton]
    calc
      List.Perm _ (((mergedItems w lo hi t.length).map Item.node ++ nodeChildren (mergedNode w lo hi)) ++
          t.flatMap nodeChildren) := by
        rw [List.append_assoc]; exact List.perm_append_comm.append_left _
      List.Perm _ (t.length :: (w.map Item.node ++ t.flatMap nodeChildren)) :=
        (mergedItems_node_perm t.length hlo hhi hne).append_right _
      List.Perm _ (t.length :: List.range t.length) := h.perm.cons _
      List.Perm _ (List.range t.length ++ [t.length]) := List.perm_append_comm (l₁ := [t.length])
  seeds := h.seeds.trans (List.prefix_append _ _)
  branch i h2 h1 := by
    have hitem : ∀ p (hp : p < w.length), w[p].node < t.length := fun p hp =>
      List.mem_range.mp (h.perm.subset (List.mem_append_left _ (List.mem_map_of_mem (List.getElem_mem hp))))
    rcases Nat.lt_or_ge i t.length with hi' | hi'
    · rw [List.getElem_append_left hi']
      exact h.branch i hi' h1
    · obtain rfl : i = t.length := by simp at h2; omega
      refine ⟨w[lo].node, w[hi].node, ?_, hitem lo hlo, hitem hi hhi⟩
      simp [mergedNode, hlo, hhi]

theorem Forest.of_merges {f : List (Word × Word)} {w : List Item} {t t' : List TreeNode} {root : Item}
    (hm : Merges w t root t') (h : Forest f w t) : Forest f [root] t' := by
  induction hm with
  | done => exact h
  | round w t lo hi root t' hlo hhi _ ih => exact ih (h.round hlo.1 hhi.1 hhi.2.1)

/-- The first nodes are the seeds (41_tree_build.md R79). -/
theorem Forest.leaf {f : List (Word × Word)} {w : List Item} {t : List TreeNode} (h : Forest f w t) {i : Nat}
    (hi : i < f.length) : ∃ hit : i < t.length, t[i] = .leaf f[i].2 := by
  have hs : i < (seedNodes f).length := by simpa using hi
  refine ⟨hs.trans_le h.seeds.length_le, ?_⟩
  rw [← h.seeds.getElem hs]
  simp [seedNodes]

/-- A child has a smaller index than some node. -/
theorem Forest.child_lt {f : List (Word × Word)} {w : List Item} {t : List TreeNode} (h : Forest f w t) {c : Nat}
    (hc : c ∈ t.flatMap nodeChildren) : ∃ i, c < i ∧ i < t.length := by
  obtain ⟨node, hnode, hc⟩ := List.mem_flatMap.mp hc
  obtain ⟨i, hi, rfl⟩ := List.getElem_of_mem hnode
  rcases Nat.lt_or_ge i f.length with hn | hn
  · obtain ⟨_, hleaf⟩ := h.leaf hn
    rw [hleaf] at hc
    cases hc
  · obtain ⟨l, r, hbranch, hl, hr⟩ := h.branch i hi hn
    rw [hbranch] at hc
    simp only [nodeChildren, List.mem_cons, List.not_mem_nil, or_false] at hc
    exact ⟨i, by omega, hi⟩

/-- The one item left is the last node, which is nobody's child (41_tree_build.md R83). -/
theorem Forest.root_node {f : List (Word × Word)} {root : Item} {t : List TreeNode} (h : Forest f [root] t)
    (ht : 1 ≤ t.length) : root.node = t.length - 1 := by
  have hmem : t.length - 1 ∈ [root.node] ++ t.flatMap nodeChildren :=
    h.perm.mem_iff.mpr (List.mem_range.mpr (by omega))
  rcases List.mem_append.mp hmem with hroot | hchild
  · exact (List.mem_singleton.mp hroot).symm
  · obtain ⟨i, h1, h2⟩ := h.child_lt hchild
    omega

/-- Every node but the root is a child, once (41_tree_build.md R88 (d)). -/
theorem Forest.count_child {f : List (Word × Word)} {root : Item} {t : List TreeNode} (h : Forest f [root] t)
    {v : Nat} (hv : v < t.length) : (t.flatMap nodeChildren).count v = if v = root.node then 0 else 1 := by
  have hc : ((root.node :: t.flatMap nodeChildren).count v) = 1 :=
    (h.perm.count_eq v).trans (List.count_eq_one_of_mem List.nodup_range (List.mem_range.mpr hv))
  rw [List.count_cons] at hc
  by_cases hr : v = root.node
  · simpa [hr] using hc
  · simpa [hr, Ne.symm hr] using hc

/-- The nodes BUILD makes and their root (41_tree_build.md R79 to R83, R88). -/
theorem forest_buildTree {f : List (Word × Word)} (hf : 1 ≤ f.length) :
    ∃ root, (buildTree f).2 = root.node ∧ root.node = 2 * f.length - 2 ∧
      Merges (seedItems f) (seedNodes f) root (buildTree f).1 ∧ Forest f [root] (buildTree f).1 := by
  obtain ⟨root, hroot, hm⟩ := merges_buildTree hf
  have h := (forest_seed f).of_merges hm
  have hlen := buildTree_length hf
  exact ⟨root, hroot, by rw [h.root_node (by omega)]; omega, hm, h⟩

/-- The root is nobody's child, so every child fits the field `b` of a Branch (41_tree_build.md R84). -/
theorem buildTree_child_lt {f : List (Word × Word)} (hf : 1 ≤ f.length) {i : Nat} (hi : i < (buildTree f).1.length) :
    ∀ c ∈ nodeChildren (buildTree f).1[i], c < 2 * f.length - 2 := by
  intro c hc
  obtain ⟨root, -, -, -, hforest⟩ := forest_buildTree hf
  obtain ⟨j, hj, hjlt⟩ := hforest.child_lt (List.mem_flatMap.mpr ⟨_, List.getElem_mem hi, hc⟩)
  rw [buildTree_length hf] at hjlt
  omega

/-! ### The tree BUILD commits -/

theorem childNodes_commitTree (s : State) {r : List TreeNode × Nat} (hlen : r.1.length < 2 ^ 32)
    (hlt : ∀ i (hi : i < r.1.length), ∀ c ∈ nodeChildren r.1[i], c < 512) :
    childNodes (s.commitTree r) = r.1.flatMap nodeChildren := by
  have hkids : ∀ i (hi : i < r.1.length), childrenOf (s.commitTree r) i = nodeChildren r.1[i] := by
    intro i hi
    have hc := hlt i hi
    cases hn : r.1[i] with
    | leaf sym => exact childrenOf_leaf (by rw [commitTree_nodeKindAt, dif_pos hi, hn]; rfl)
    | branch a b =>
      rw [hn] at hc
      have ha : a < 512 := hc a (by simp [nodeChildren])
      have hb : b < 512 := hc b (by simp [nodeChildren])
      rw [childrenOf_branch (by rw [commitTree_nodeKindAt, dif_pos hi, hn]; rfl), commitTree_nodeAAt, dif_pos hi,
        commitTree_nodeBAt, dif_pos hi, hn]
      simp only [TreeNode.a, TreeNode.b, nodeChildren, word_toNat (show a < 2 ^ 32 by omega), BitVec.toNat_ofNat,
        Nat.mod_eq_of_lt hb]
  rw [childNodes_eq, commitTree_nNode, word_toNat hlen]
  calc
    (List.range r.1.length).flatMap (childrenOf (s.commitTree r))
      = ((List.range r.1.length).map (childrenOf (s.commitTree r))).flatten := rfl
    _ = (r.1.map nodeChildren).flatten := by
      congr 1
      exact List.ext_getElem (by simp) fun i h1 h2 => by simpa using hkids i (by simpa using h2)
    _ = r.1.flatMap nodeChildren := rfl

/-- A frequency list's nodes, committed, are a tree with its symbols at the leaves (41_tree_build.md R88). -/
theorem treeOf_commitTree (s : State) {f : List (Word × Word)} (h1 : 1 ≤ f.length) (hMax : f.length ≤ 256)
    (hsym : (f.map Prod.snd).Nodup) :
    TreeOf f.length (s.commitTree (buildTree f)) ∧
      firstOf f.length (s.commitTree (buildTree f)).nodeAAt = f.map Prod.snd := by
  obtain ⟨root, hroot, hnode, -, hforest⟩ := forest_buildTree h1
  have hlen := buildTree_length h1
  have hlt : ∀ i (hi : i < (buildTree f).1.length), ∀ c ∈ nodeChildren (buildTree f).1[i], c < 512 :=
    fun i hi c hc => (buildTree_child_lt h1 hi c hc).trans_le (by omega)
  have hsyms : firstOf f.length (s.commitTree (buildTree f)).nodeAAt = f.map Prod.snd := by
    have := eq_firstOf (l := f.map Prod.snd) (f := (s.commitTree (buildTree f)).nodeAAt) fun i hi => by
      obtain ⟨hit, hleaf⟩ := hforest.leaf (i := i) (by simpa using hi)
      rw [commitTree_nodeAAt, dif_pos hit, hleaf, List.getElem_map]
      rfl
    simpa using this
  refine ⟨⟨h1, hMax, ?_, ?_, fun i hi => ?_, fun i hi hn => ?_, fun v hv => ?_, ?_, by rwa [hsyms]⟩, hsyms⟩
  · rw [commitTree_nNode, word_toNat (by omega), hlen]
  · rw [commitTree_root, word_toNat (by omega), hroot, hnode]
  · obtain ⟨hit, hleaf⟩ := hforest.leaf hi
    rw [commitTree_nodeKindAt, dif_pos hit, commitTree_nodeBAt, dif_pos hit, hleaf]
    exact ⟨rfl, rfl⟩
  · have hit : i < (buildTree f).1.length := hlen ▸ hi
    obtain ⟨l, r, hbranch, hl, hr⟩ := hforest.branch i hit hn
    rw [commitTree_nodeKindAt, dif_pos hit, commitTree_nodeAAt, dif_pos hit, commitTree_nodeBAt, dif_pos hit, hbranch]
    refine ⟨rfl, ?_, ?_⟩
    · rwa [TreeNode.a, word_toNat (by omega)]
    · rwa [TreeNode.b, BitVec.toNat_ofNat, Nat.mod_eq_of_lt (by omega)]
  · rw [childNodes_commitTree s (by omega) hlt, hforest.count_child (by omega), if_neg (by omega)]
  · rw [childNodes_commitTree s (by omega) hlt, hforest.count_child (by omega), if_pos hnode.symm]

theorem leafCount_of_nNode {s : State} {n : Nat} (h1 : 1 ≤ n) (h : s.nNode.toNat = 2 * n - 1) : leafCount s = n := by
  rw [leafCount, h]
  omega

theorem treeOk_of_treeOf {s : State} {n : Nat} (h : TreeOf n s) : TreeOk s := by
  have hn : leafCount s = n := leafCount_of_nNode h.1 h.2.2.1
  rwa [TreeOk, hn]

/-! ### The operand checks -/

theorem freqOperand_length (s : State) : s.freqOperand.length = s.nFreq.toNat := firstOf_length _ _

/-- The lists of 41_tree_build.md R78 are those the checks pass. -/
theorem checkFreqs_iff (s : State) : checkFreqs s = .ok () ↔ FreqListOk s.freqOperand := by
  rw [checkFreqs_ok, FreqListOk, freqOperand_length]
  rfl

theorem exec_build (s : State) : exec .build s = completeWith s (buildOutcome s) State.commitTree := rfl

theorem exec_build_of_ok {s : State} (h : FreqListOk s.freqOperand) :
    exec .build s = .next (s.commitTree (buildTree s.freqOperand)).finish := by
  rw [exec_build, buildOutcome, (checkFreqs_iff s).mpr h, completeWith_ok]

/-- Check 3 goes on behind a list it passes (41_tree_build.md R78). -/
theorem checkFreqFrom_append {i total : Nat} {seen : List Word} {f : List (Word × Word)} (g : List (Word × Word))
    (h : checkFreqFrom i total seen f = .ok ()) :
    checkFreqFrom i total seen (f ++ g) =
      checkFreqFrom (i + f.length) (total + countSum f) (seen ++ f.map Prod.snd) g := by
  induction f generalizing i total seen with
  | nil => simp [countSum]
  | cons e f ih =>
    obtain ⟨count, sym⟩ := e
    rw [checkFreqFrom] at h
    split at h
    · cases h
    · next h0 =>
      split at h
      · cases h
      · next hs =>
        split at h
        · cases h
        · next hw =>
          rw [List.cons_append, checkFreqFrom, if_neg h0, if_neg hs, if_neg hw, ih h]
          simp [countSum, Nat.add_assoc, Nat.add_comm 1]

/-- The checks on entry `i`, when the entries before it pass (41_tree_build.md R78). -/
theorem checkFreqs_at {s : State} {i : Nat} (hMax : s.nFreq.toNat ≤ 256) (hi : i < s.nFreq.toNat)
    (hcount : ∀ e ∈ s.freqOperand.take i, e.1 ≠ 0) (hsym : ((s.freqOperand.take i).map Prod.snd).Nodup)
    (hsum : countSum (s.freqOperand.take i) ≤ 4294967295) :
    ∃ rest, checkFreqs s = checkFreqFrom i (countSum (s.freqOperand.take i)) ((s.freqOperand.take i).map Prod.snd)
      ((s.freqCountAt i, s.freqSymAt i) :: rest) := by
  have hlen := freqOperand_length s
  have hpass : checkFreqFrom 0 0 [] (s.freqOperand.take i) = .ok () :=
    checkFreqFrom_ok.mpr ⟨hcount, by simp, hsym, .inr (by rw [Nat.zero_add]; exact hsum)⟩
  have hsplit : s.freqOperand = s.freqOperand.take i ++
      (s.freqCountAt i, s.freqSymAt i) :: s.freqOperand.drop (i + 1) := firstOf_split _ hi
  have h0 : s.nFreq ≠ 0 := fun h => by simp [h] at hi
  refine ⟨s.freqOperand.drop (i + 1), ?_⟩
  rw [checkFreqs, if_neg h0, checkLength_ok hMax]
  show checkFreqFrom 0 0 [] s.freqOperand = _
  conv_lhs => rw [hsplit]
  rw [checkFreqFrom_append _ hpass]
  simp [hlen, hi.le]

theorem failsWith_of_checkFreqs {s : State} {k : ErrKind} {info : Word} (h : checkFreqs s = .error ⟨k, info⟩) :
    FailsWith .build s k info :=
  failsWith_of_error (exec_build s) (by rw [buildOutcome, h])

/-! ### The obligations on BUILD -/

/-- Settles O32: the tree's nodes come from the rounds, and each is committed at its index. -/
theorem buildMergesGreedily : Obligations.BuildMergesGreedily := by
  intro s h
  have ⟨h1, hMax, _, hsym, _⟩ := h
  have hMax : s.freqOperand.length ≤ 256 := hMax
  obtain ⟨root, -, hnode, hm, -⟩ := forest_buildTree h1
  obtain ⟨⟨-, -, hNode, hRoot, -⟩, -⟩ := treeOf_commitTree s h1 hMax hsym
  have hlen := buildTree_length h1
  have hkid := fun i => buildTree_child_lt h1 (i := i)
  rw [freqOperand_length] at h1 hMax hkid hnode hNode hRoot hlen
  refine ⟨_, root, _, exec_build_of_ok h, rfl, rfl, hm, hlen, hNode, hnode, hRoot, fun i hi => ?_⟩
  have hit : i < (buildTree s.freqOperand).1.length := hlen ▸ hi
  simp only [finish_nodeKindAt, finish_nodeAAt, finish_nodeBAt, commitTree_nodeKindAt, commitTree_nodeAAt,
    commitTree_nodeBAt, dif_pos hit, List.getElem?_eq_getElem hit]
  have hkid := hkid i hit
  cases hn : (buildTree s.freqOperand).1[i] with
  | leaf sym => exact ⟨rfl, rfl, rfl⟩
  | branch l r =>
    simp only [hn, nodeChildren, List.mem_cons, List.not_mem_nil, or_false, forall_eq_or_imp, forall_eq] at hkid
    obtain ⟨hl, hr⟩ := hkid
    refine ⟨rfl, ?_, ?_⟩
    · rw [TreeNode.a, word_toNat (by omega)]
    · rw [TreeNode.b, BitVec.toNat_ofNat, Nat.mod_eq_of_lt (by omega)]

/-- Settles O33: check 3 reaches entry `i` with the counts' sum and the symbols of the entries before it. -/
theorem buildOperandErrors : Obligations.BuildOperandErrors := by
  refine ⟨fun s h => ?empty, fun s h => ?long, fun s i hMax hi hcount hsym hsum => ?entry⟩
  case empty => exact failsWith_of_checkFreqs (by rw [checkFreqs, if_pos h])
  case long =>
    have h0 : s.nFreq ≠ 0 := fun h' => by simp [h'] at h
    exact failsWith_of_checkFreqs (by rw [checkFreqs, if_neg h0, checkLength_error h])
  case entry =>
    obtain ⟨rest, hc⟩ := checkFreqs_at hMax hi hcount hsym hsum
    rw [checkFreqFrom] at hc
    refine ⟨fun hbad => failsWith_of_checkFreqs ?_, fun h0 hs hover => failsWith_of_checkFreqs ?_⟩
    · rw [hc]
      by_cases h0 : s.freqCountAt i = 0
      · rw [if_pos h0]
      · rw [if_neg h0, if_pos (hbad.resolve_left h0)]
    · have hnext : countSum (s.freqOperand.take (i + 1)) =
          countSum (s.freqOperand.take i) + (s.freqCountAt i).toNat := by
        rw [← List.take_append_getElem (by rwa [freqOperand_length])]
        simp [countSum, State.freqOperand]
      rw [hc, if_neg h0, if_neg hs, if_pos (by rw [← hnext]; exact hover)]

/-! ### The priority queue -/

theorem before_iff {x y : Ranked} :
    x.before y = true ↔ x.weight < y.weight ∨ (x.weight = y.weight ∧ x.rank < y.rank) := by
  simp [Ranked.before]

/-- The queue is ordered: nothing stands before what it follows. -/
def QueueOrdered (q : List Ranked) : Prop := q.Pairwise fun x y => y.before x = false

theorem insertRanked_perm (x : Ranked) (q : List Ranked) : (insertRanked x q).Perm (x :: q) := by
  induction q with
  | nil => exact .refl _
  | cons y q ih =>
    rw [insertRanked]
    split
    · exact .refl _
    · exact (ih.cons y).trans (.swap x y q)

theorem QueueOrdered.insertRanked {x : Ranked} {q : List Ranked} (h : QueueOrdered q) :
    QueueOrdered (insertRanked x q) := by
  induction q with
  | nil => exact List.pairwise_singleton _ _
  | cons y q ih =>
    have ⟨hy, hq⟩ := List.pairwise_cons.mp h
    rw [Safety.insertRanked]
    split
    · next hxy =>
      refine List.pairwise_cons.mpr ⟨fun z hz => ?_, h⟩
      have hyz : z = y ∨ z.before y = false := (List.mem_cons.mp hz).imp id (hy z)
      rw [Bool.eq_false_iff, ne_eq, before_iff]
      rw [before_iff] at hxy
      rcases hyz with rfl | hyz
      · omega
      · rw [Bool.eq_false_iff, ne_eq, before_iff] at hyz
        omega
    · next hxy =>
      refine List.pairwise_cons.mpr ⟨fun z hz => ?_, ih hq⟩
      rcases List.mem_cons.mp ((insertRanked_perm x q).mem_iff.mp hz) with rfl | hz
      · simpa using hxy
      · exact hy z hz

/-- An item of the queue without its rank. -/
def rankedItem (x : Ranked) : Item := ⟨x.weight, x.node⟩

/-- The queue `q` holds the items of the working collection `w`, which stand in the order of their ranks
(41_tree_build.md R87): `l` is `w` with the ranks. -/
structure QueueHolds (l q : List Ranked) (w : List Item) : Prop where
  items : l.map rankedItem = w
  ranks : l.Pairwise fun x y => x.rank < y.rank
  perm : q.Perm l
  ordered : QueueOrdered q

theorem rank_lt_of_lt {l : List Ranked} (h : l.Pairwise fun x y => x.rank < y.rank) {i j : Nat} (hi : i < l.length)
    (hj : j < l.length) (hij : i < j) : l[i].rank < l[j].rank := List.pairwise_iff_getElem.mp h i j hi hj hij

/-- The item nothing stands before is the first of the lightest: at position `p`, when `p` is that of a lightest one
and of the first among them. Positions outside `cand` are passed over. -/
theorem position_of_first {l : List Ranked} (hr : l.Pairwise fun x y => x.rank < y.rank) {cand : Nat → Prop} {p k : Nat}
    (hp : p < l.length) (hk : k < l.length) (hpc : cand p) (hkc : cand k)
    (hle : ∀ j (hj : j < l.length), cand j → l[p].weight ≤ l[j].weight)
    (hlt : ∀ j (hj : j < l.length), j < p → cand j → l[p].weight < l[j].weight)
    (hfirst : ∀ j (hj : j < l.length), cand j → l[j].before l[k] = false) : k = p := by
  have hb := hfirst p hp hpc
  rw [Bool.eq_false_iff, ne_eq, before_iff] at hb
  have hwk := hle k hk hkc
  rcases Nat.lt_trichotomy k p with h | h | h
  · have := hlt k hk h hkc
    omega
  · exact h
  · have := rank_lt_of_lt hr hp hk h
    omega

/-- The first two of the queue are the two the scans select (41_tree_build.md R80, R81, R87). -/
theorem QueueHolds.selected {l q : List Ranked} {x y : Ranked} {w : List Item} (h : QueueHolds l (x :: y :: q) w)
    {lo hi : Nat} {a b : Item} (hlo : lowest w = some (lo, a)) (hhi : secondLowest w lo = some (hi, b)) :
    ∃ (h1 : lo < l.length) (h2 : hi < l.length), hi ≠ lo ∧ l[lo] = x ∧ l[hi] = y ∧ a = rankedItem x ∧ b = rankedItem y := by
  obtain ⟨rfl, hr, hperm, hord⟩ := h
  obtain ⟨h1, rfl, hle1, hlt1⟩ := lowest_some hlo
  obtain ⟨h2, rfl, hne, hle2, hlt2⟩ := secondLowest_some hhi
  have ⟨hx, hord⟩ := List.pairwise_cons.mp hord
  have ⟨hy, _⟩ := List.pairwise_cons.mp hord
  simp only [List.length_map] at h1 h2 hle1 hlt1 hle2 hlt2
  simp only [List.getElem_map, rankedItem] at hle1 hlt1 hle2 hlt2
  have irrefl : ∀ z : Ranked, z.before z = false := fun z => by
    rw [Bool.eq_false_iff, ne_eq, before_iff]
    omega
  have hnodup : (x :: y :: q).Nodup :=
    hperm.nodup_iff.mpr (hr.imp fun hlt heq => absurd (congrArg Ranked.rank heq) (Nat.ne_of_lt hlt))
  obtain ⟨k, hk, rfl⟩ := List.getElem_of_mem (hperm.subset (List.mem_cons_self (a := x)))
  obtain ⟨m, hm, rfl⟩ := List.getElem_of_mem (hperm.subset (List.mem_cons_of_mem _ (List.mem_cons_self (a := y))))
  have hkm : m ≠ k := by
    rintro rfl
    simp at hnodup
  obtain rfl : k = lo := by
    refine position_of_first hr (cand := fun _ => True) h1 hk trivial trivial (fun j hj _ => hle1 j hj)
      (fun j hj hjp _ => hlt1 j hj hjp) fun j hj _ => ?_
    rcases List.mem_cons.mp (hperm.mem_iff.mpr (List.getElem_mem hj)) with he | he
    · rw [he]; exact irrefl _
    · exact hx _ he
  obtain rfl : m = hi := by
    refine position_of_first hr (cand := fun j => j ≠ k) h2 hm hne hkm hle2 hlt2 fun j hj hjk => ?_
    rcases List.mem_cons.mp (hperm.mem_iff.mpr (List.getElem_mem hj)) with he | he
    · have hl : l.Nodup := hperm.nodup_iff.mp hnodup
      exact absurd ((hl.getElem_inj_iff).mp he) hjk
    · rcases List.mem_cons.mp he with he | he
      · rw [he]; exact irrefl _
      · exact hy _ he
  exact ⟨hk, hm, hkm, rfl, rfl, by simp, by simp⟩

theorem queueRound_cons (x y : Ranked) (q : List Ranked) (t : List TreeNode) :
    queueRound (x :: y :: q) t =
      (insertRanked ⟨x.weight + y.weight, x.rank, t.length⟩ q, t ++ [.branch x.node y.node]) := rfl

/-- A round over the queue follows the round over the working collection. -/
theorem QueueHolds.round {l q : List Ranked} {w : List Item} (h : QueueHolds l q w) (t : List TreeNode)
    (hw : 2 ≤ w.length) :
    (queueRound q t).2 = (mergeRound w t).2 ∧ ∃ l', QueueHolds l' (queueRound q t).1 (mergeRound w t).1 := by
  obtain ⟨lo, hi, a, b, hlo, hhi, hround⟩ := mergeRound_cases t hw
  have hlen : q.length = w.length := by rw [h.perm.length_eq, ← h.items, List.length_map]
  obtain ⟨x, y, q, rfl⟩ : ∃ x y q', q = x :: y :: q' := by
    match q, hlen with
    | x :: y :: q', _ => exact ⟨x, y, q', rfl⟩
    | [_], h' => simp at h'; omega
    | [], h' => simp at h'; omega
  obtain ⟨h1, h2, hne, hx, hy, rfl, rfl⟩ := h.selected hlo hhi
  obtain ⟨rfl, hr, hperm, hord⟩ := h
  rw [hround, queueRound_cons]
  refine ⟨rfl, (l.set lo ⟨x.weight + y.weight, x.rank, t.length⟩).eraseIdx hi, ?_, ?_, ?_, ?_⟩
  · rw [← List.eraseIdx_map, List.map_set]
    rfl
  · have hranks : (l.set lo ⟨x.weight + y.weight, x.rank, t.length⟩).map Ranked.rank = l.map Ranked.rank := by
      have hget : (l.map Ranked.rank)[lo]'(by simpa using h1) = x.rank := by rw [List.getElem_map, hx]
      rw [List.map_set, ← hget, List.set_getElem_self]
    have := List.pairwise_map.mpr hr
    rw [← hranks, List.pairwise_map] at this
    exact this.sublist (List.eraseIdx_sublist _ _)
  · have hp := set_eraseIdx_perm h1 h2 hne (⟨x.weight + y.weight, x.rank, t.length⟩ : Ranked)
    rw [hx, hy] at hp
    have hz := (hp.trans (hperm.symm.cons _)).trans (List.perm_middle (l₁ := [x, y])).symm
    exact (insertRanked_perm _ q).trans hz.cons_inv.cons_inv.symm
  · exact QueueOrdered.insertRanked (List.pairwise_cons.mp (List.pairwise_cons.mp hord).2).2

theorem QueueHolds.rounds {k : Nat} {l q : List Ranked} {w : List Item} (h : QueueHolds l q w) (t : List TreeNode)
    (hk : k < w.length) :
    (queueRounds k q t).2 = (mergeRounds k w t).2 ∧ ∃ l', QueueHolds l' (queueRounds k q t).1 (mergeRounds k w t).1 := by
  induction k generalizing l q w t with
  | zero => exact ⟨rfl, l, h⟩
  | succ k ih =>
    obtain ⟨ht, l', h'⟩ := h.round t (by omega)
    have hlen := (mergeRound_length t (w := w) (by omega)).1
    rw [queueRounds, mergeRounds, ht]
    exact ih h' _ (by omega)

theorem foldl_insertRanked {α : Type} (g : α → Ranked) (l : List α) {q : List Ranked} (hq : QueueOrdered q) :
    (l.foldl (fun q e => insertRanked (g e) q) q).Perm (q ++ l.map g) ∧
      QueueOrdered (l.foldl (fun q e => insertRanked (g e) q) q) := by
  induction l generalizing q with
  | nil => simpa using hq
  | cons e l ih =>
    obtain ⟨hperm, hord⟩ := ih (q := insertRanked (g e) q) hq.insertRanked
    refine ⟨hperm.trans (((insertRanked_perm (g e) q).append_right _).trans ?_), hord⟩
    exact List.perm_middle.symm

/-- Seeding (41_tree_build.md R87): the ranks are the positions. -/
theorem queueHolds_seed (f : List (Word × Word)) :
    QueueHolds (f.zipIdx.map fun e => ⟨e.1.1.toNat, e.2, e.2⟩) (seedQueue f) (seedItems f) where
  items := by simp [seedItems, Function.comp_def, rankedItem]
  ranks := by
    have h : (f.zipIdx.map Prod.snd).Pairwise (· < ·) := by
      rw [List.zipIdx_map_snd]
      exact List.pairwise_lt_range'
    exact List.pairwise_map.mpr (List.pairwise_map.mp h)
  perm := (foldl_insertRanked (fun e : (Word × Word) × Nat => ⟨e.1.1.toNat, e.2, e.2⟩) f.zipIdx .nil).1
  ordered := (foldl_insertRanked (fun e : (Word × Word) × Nat => ⟨e.1.1.toNat, e.2, e.2⟩) f.zipIdx .nil).2

/-- Settles O34: round by round the queue holds the items of the working collection. -/
theorem priorityQueueBuildsTheSameTree : Obligations.PriorityQueueBuildsTheSameTree := by
  intro f hf
  obtain ⟨ht, l, h⟩ := (queueHolds_seed f).rounds (k := f.length - 1) (seedNodes f) (by simp; omega)
  obtain ⟨root, hroot, -⟩ := merges_mergeRounds (k := f.length - 1) (w := seedItems f) (seedNodes f) (by simp; omega)
  obtain ⟨hitems, -, hperm, -⟩ := h
  rw [hroot, List.map_eq_singleton_iff] at hitems
  obtain ⟨x, rfl, hx⟩ := hitems
  have hq := List.perm_singleton.mp hperm
  refine Prod.ext ht ?_
  show ((queueRounds (f.length - 1) (seedQueue f) (seedNodes f)).1.head?.map Ranked.node).getD 0 =
    ((mergeRounds (f.length - 1) (seedItems f) (seedNodes f)).1.head?.map Item.node).getD 0
  rw [hq, hroot, ← hx]
  rfl

end Sys2Proof.Proofs
end

section
/-! PROOFS. The code table as the statements of 42_code_table.md see it: the rows of DERIVE as paths of the tree (R92,
R96, R97), the checks of INVERT row by row (R100, R101) and the condition they decide, TVALID's (10_state.md R27). -/

namespace Sys2Proof.Proofs

open Sys2Proof Sys2Proof.Machine Sys2Proof.Safety Sys2Proof.Laws

/-! ### The rows of DERIVE as paths -/

/-- All that one level of the walk can find (42_code_table.md R96). -/
theorem walk_succ_some {s : State} {fuel v : Nat} {p : List Bool} {rows : List (Word × List Bool)}
    (h : s.walk (fuel + 1) v p = some rows) :
    v < s.nNode.toNat ∧
      ((s.nodeKindAt v = .leaf ∧ rows = [(s.nodeAAt v, p)]) ∨
        (s.nodeKindAt v = .branch ∧ ∃ l r, s.walk fuel (s.nodeAAt v).toNat (p ++ [false]) = some l ∧
          s.walk fuel (s.nodeBAt v).toNat (p ++ [true]) = some r ∧ rows = l ++ r)) := by
  rw [State.walk] at h
  split at h
  · next hv =>
    refine ⟨hv, ?_⟩
    split at h
    · next hk => cases h; exact .inl ⟨hk, rfl⟩
    · next hk =>
      split at h
      · cases h
      · next l hl =>
        split at h
        · cases h
        · next r hr => cases h; exact .inr ⟨hk, l, r, hl, hr, rfl⟩
  · cases h

/-- Every row of a walk from `v` is a Leaf below `v`, with the turns that lead to it (42_code_table.md R92). -/
theorem walk_reaches {s : State} {fuel v : Nat} {p : List Bool} {rows : List (Word × List Bool)}
    (h : s.walk fuel v p = some rows) :
    ∀ e ∈ rows, ∃ l path, l < s.nNode.toNat ∧ s.nodeKindAt l = .leaf ∧ e = (s.nodeAAt l, p ++ path) ∧
      Reaches s l v path := by
  induction fuel generalizing v p rows with
  | zero => cases h
  | succ fuel ih =>
    obtain ⟨hv, ⟨hk, rfl⟩ | ⟨hk, l, r, hl, hr, rfl⟩⟩ := walk_succ_some h
    · intro e he
      rw [List.mem_singleton.mp he]
      exact ⟨v, [], hv, hk, by rw [List.append_nil], .leaf hk⟩
    · intro e he
      rcases List.mem_append.mp he with he | he
      · obtain ⟨u, path, hu, hku, rfl, hreach⟩ := ih hl e he
        exact ⟨u, false :: path, hu, hku, by simp, .left v path hk hreach⟩
      · obtain ⟨u, path, hu, hku, rfl, hreach⟩ := ih hr e he
        exact ⟨u, true :: path, hu, hku, by simp, .right v path hk hreach⟩

/-- In a tree of two or more leaves every row of DERIVE is a leaf with its path from the root. -/
theorem leafRows_reaches {s : State} {n : Nat} (h : TreeOf n s) (hn : 2 ≤ n) {rows : List (Word × List Bool)}
    (hr : s.leafRows = some rows) :
    ∀ e ∈ rows, ∃ l, l < n ∧ e.1 = s.nodeAAt l ∧ Reaches s l s.root.toNat e.2 := by
  obtain ⟨-, -, hNode, hRoot, -, hBranch, -⟩ := h
  have hk := (hBranch (2 * n - 2) (by omega) (by omega)).1
  rw [leafRows_of_branch (by omega) (by rwa [hRoot])] at hr
  intro e he
  obtain ⟨l, path, hl, hkl, rfl, hreach⟩ := walk_reaches hr e he
  refine ⟨l, ?_, rfl, by simpa using hreach⟩
  by_contra hge
  have := (hBranch l (by omega) (by omega)).1
  rw [hkl] at this
  cases this

/-- A tree of one leaf has one row, with the fixed "0" (42_code_table.md R93). -/
theorem leafRows_of_single {s : State} (h : TreeOf 1 s) : s.leafRows = some [(s.nodeAAt s.root.toNat, [false])] := by
  obtain ⟨-, -, hNode, hRoot, hLeaf, -⟩ := h
  exact leafRows_of_leaf (by omega) (by rw [hRoot]; exact (hLeaf 0 (by omega)).1)

/-- Row `k` of a committed table. -/
theorem commitTable_codeEntry (s : State) {t : List (Word × List Bool)} {k : Nat} (hk : k < t.length)
    (hl : t[k].2.length ≤ 256) :
    (s.commitTable t).codeSymAt k = t[k].1 ∧ (s.commitTable t).codeString k = t[k].2 ∧
      ((s.commitTable t).codeLenAt k).toNat = t[k].2.length := by
  refine ⟨?_, commitTable_codeString s hk hl, ?_⟩
  · rw [commitTable_codeSymAt, dif_pos hk]
  · rw [commitTable_codeLenAt, dif_pos hk, word_toNat (by omega)]

/-- Settles O35: the committed rows are those of the walk, and a walk's rows are the leaves with their paths. -/
theorem deriveWalksTheTree : Obligations.DeriveWalksTheTree := by
  intro s hv h
  obtain ⟨rows, hr, ht⟩ := leafRows_of_treeOf h
  have hMax : leafCount s ≤ 256 := h.2.1
  have hlen := ht.length
  have hfits := ht.path_fits hMax
  obtain ⟨hsym, hpart, hbits⟩ := ht
  have hentry : ∀ k (hk : k < leafCount s), _ := fun k hk =>
    commitTable_codeEntry s (t := rows) (hlen ▸ hk) ((hfits _ (List.getElem_mem _)).2.trans (by decide))
  refine ⟨(s.commitTable rows).finish,
    exec_derive_of_leafRows hv hr (hlen ▸ hMax) fun e he => (hfits e he).2, rfl, rfl, hv, ?count, fun h1 => ?single,
    fun h2 k hk => ?path, fun l hl => ?leaf, fun j k hjk hk => ?order, fun k hk => ⟨?pos, ?le, fun j hj hj' => ?slots⟩⟩
  case count => rw [finish_nCode, commitTable_nCode, word_toNat (by omega), hlen]
  case single =>
    rw [TreeOk, h1] at h
    obtain rfl : rows = _ := Option.some.inj (hr.symm.trans (leafRows_of_single h))
    exact commitTable_tableOperand s (by omega) fun e he => (hfits e he).2.trans (by decide)
  case path =>
    obtain ⟨hs, hb, -⟩ := hentry k hk
    obtain ⟨l, hl, hsl, hreach⟩ := leafRows_reaches h h2 hr _ (List.getElem_mem (hlen ▸ hk))
    exact ⟨l, hl, by rw [finish_codeSymAt, hs, hsl], by rwa [finish_codeString, hb]⟩
  case leaf =>
    obtain ⟨e, he, heq⟩ := List.mem_map.mp (hsym.mem_iff.mpr (mem_firstOf.mpr ⟨l, hl, rfl⟩))
    obtain ⟨k, hk, rfl⟩ := List.getElem_of_mem he
    exact ⟨k, hlen ▸ hk, by rw [finish_codeSymAt, (hentry k (hlen ▸ hk)).1, heq]⟩
  case order =>
    rw [finish_codeString, finish_codeString, (hentry j (hjk.trans hk)).2.1, (hentry k hk).2.1]
    exact List.pairwise_iff_getElem.mp hpart j k _ _ hjk
  case pos => rw [finish_codeLenAt, (hentry k hk).2.2]; exact (hbits _ (List.getElem_mem _)).1
  case le => rw [finish_codeLenAt, (hentry k hk).2.2]; exact (hbits _ (List.getElem_mem _)).2
  case slots =>
    rw [finish_codeLenAt, (hentry k hk).2.2] at hj
    rw [finish_codeBitAt, commitTable_codeBitAt s rows k hj', dif_pos (hlen ▸ hk)]
    exact List.getD_eq_default _ _ hj

/-! ### The checks of INVERT -/

/-- Row `i` passes the four checks of 42_code_table.md R100. -/
def RowOk (s : State) (i : Nat) : Prop :=
  (1 ≤ (s.codeLenAt i).toNat ∧ (s.codeLenAt i).toNat ≤ 255) ∧
    s.codeSymAt i ∉ firstOf i s.codeSymAt ∧ s.codeString i ∉ firstOf i s.codeString

theorem firstOf_codeEntry_fst (s : State) (n : Nat) : (firstOf n s.codeEntry).map Prod.fst = firstOf n s.codeSymAt :=
  firstOf_map _ _ _

theorem firstOf_codeEntry_snd (s : State) (n : Nat) : (firstOf n s.codeEntry).map Prod.snd = firstOf n s.codeString :=
  firstOf_map _ _ _

theorem checkRow_firstOf (s : State) (i : Nat) {row : Word × List Bool} :
    checkRow s i (firstOf i s.codeEntry) = .ok row ↔ row = s.codeEntry i ∧ RowOk s i := by
  rw [checkRow_ok, firstOf_codeEntry_fst, firstOf_codeEntry_snd, RowOk, and_assoc]

/-- The checks go on behind rows that pass them (42_code_table.md R101). -/
theorem checkRowsFrom_add {s : State} {k : Nat} (n : Nat) (h : ∀ j, j < k → RowOk s j) :
    checkRowsFrom s (k + n) 0 [] = checkRowsFrom s n k (firstOf k s.codeEntry) := by
  induction k generalizing n with
  | zero => rw [Nat.zero_add]; rfl
  | succ k ih =>
    have hrow := (checkRow_firstOf s k).mpr ⟨rfl, h k (Nat.lt_succ_self k)⟩
    rw [Nat.add_assoc, ih (1 + n) fun j hj => h j (hj.trans (Nat.lt_succ_self k)), Nat.add_comm 1 n, checkRowsFrom,
      hrow, firstOf_succ]

/-- They pass exactly when every row does. -/
theorem checkRowsFrom_ok_iff (s : State) (n i : Nat) :
    checkRowsFrom s n i (firstOf i s.codeEntry) = .ok () ↔ ∀ j, i ≤ j → j < i + n → RowOk s j := by
  induction n generalizing i with
  | zero => simp only [checkRowsFrom, true_iff]; omega
  | succ n ih =>
    rw [checkRowsFrom]
    split
    · next r hr =>
      simp only [reduceCtorEq, false_iff, not_forall]
      refine ⟨i, Nat.le_refl i, by omega, fun hok => ?_⟩
      rw [(checkRow_firstOf s i).mpr ⟨rfl, hok⟩] at hr
      cases hr
    · next row hrow =>
      obtain ⟨rfl, hok⟩ := (checkRow_firstOf s i).mp hrow
      rw [← firstOf_succ, ih]
      constructor
      · intro h j hij hj
        rcases Nat.lt_or_ge i j with hlt | hge
        · exact h j hlt (by omega)
        · obtain rfl : i = j := by omega
          exact hok
      · exact fun h j hij hj => h j (by omega) (by omega)

theorem nodup_firstOf {α : Type} (n : Nat) (f : Nat → α) :
    (firstOf n f).Nodup ↔ ∀ i, i < n → f i ∉ firstOf i f := by
  induction n with
  | zero => simp [firstOf]
  | succ n ih =>
    rw [firstOf_succ, List.nodup_append, ih]
    constructor
    · rintro ⟨h, -, hne⟩ i hi
      rcases Nat.lt_succ_iff_lt_or_eq.mp hi with hi | rfl
      · exact h i hi
      · exact fun hm => hne _ hm _ (List.mem_singleton_self _) rfl
    · refine fun h => ⟨fun i hi => h i (by omega), List.nodup_singleton _, ?_⟩
      rintro a ha b hb rfl
      rw [List.mem_singleton.mp hb] at ha
      exact h n (Nat.lt_succ_self n) ha

/-- The first rows all pass exactly when their lengths are in range and symbols and bit-strings differ. -/
theorem rowOk_iff_nodup (s : State) (n : Nat) :
    (∀ i, i < n → RowOk s i) ↔
      (∀ i, i < n → 1 ≤ (s.codeLenAt i).toNat ∧ (s.codeLenAt i).toNat ≤ 255) ∧
      ((firstOf n s.codeEntry).map Prod.fst).Nodup ∧ ((firstOf n s.codeEntry).map Prod.snd).Nodup := by
  rw [firstOf_codeEntry_fst, firstOf_codeEntry_snd, nodup_firstOf, nodup_firstOf]
  exact ⟨fun h => ⟨fun i hi => (h i hi).1, fun i hi => (h i hi).2.1, fun i hi => (h i hi).2.2⟩,
    fun ⟨h1, h2, h3⟩ i hi => ⟨h1 i hi, h2 i hi, h3 i hi⟩⟩

theorem tableOk_iff (s : State) : TableOk s ↔ s.nCode.toNat ≤ 256 ∧ ∀ i, i < s.nCode.toNat → RowOk s i := by
  rw [rowOk_iff_nodup]
  exact Iff.rfl

/-- The table passes INVERT's checks exactly when it meets TVALID's conditions (42_code_table.md R101). -/
theorem invertOutcome_ok_iff (s : State) : invertOutcome s = .ok () ↔ TableOk s := by
  rw [tableOk_iff, invertOutcome]
  obtain ⟨hle, hc⟩ | ⟨hlt, hc⟩ := checkLength_cases s.nCode Config.nMax <;> rw [hc]
  · have := checkRowsFrom_ok_iff s s.nCode.toNat 0
    simp only [Nat.zero_le, forall_const, Nat.zero_add] at this
    exact this.trans ⟨fun h => ⟨hle, h⟩, And.right⟩
  · simp only [reduceCtorEq, false_iff]
    exact fun h => absurd h.1 (Nat.not_le.mpr hlt)

theorem exec_invert (s : State) : exec .invert s = completeWith s (invertOutcome s) State.commitValid := rfl

theorem exec_invert_of_tableOk {s : State} (h : TableOk s) : exec .invert s = .next (s.commitValid ()).finish := by
  rw [exec_invert, (invertOutcome_ok_iff s).mpr h, completeWith_ok]

/-- Settles O38: the checks pass, and the commit sets TVALID. -/
theorem invertValidatesTheTable : Obligations.InvertValidatesTheTable := fun _ h => exec_invert_of_tableOk h

/-- The error of the first bad row decides (42_code_table.md R101). -/
theorem failsWith_of_checkRow {s : State} {i : Nat} {k : ErrKind} {info : Word} (hMax : s.nCode.toNat ≤ 256)
    (hi : i < s.nCode.toNat) (hok : ∀ j, j < i → RowOk s j)
    (h : checkRow s i (firstOf i s.codeEntry) = .error ⟨k, info⟩) : FailsWith .invert s k info := by
  have hn : s.nCode.toNat = i + ((s.nCode.toNat - i - 1) + 1) := by omega
  refine failsWith_of_error (exec_invert s) ?_
  rw [invertOutcome, checkLength_ok hMax, hn]
  show checkRowsFrom s (i + _) 0 [] = _
  rw [checkRowsFrom_add _ hok, checkRowsFrom, h]

/-- Settles O39: the rows before the bad one pass, so the checks reach it. -/
theorem invertReportsFirstDefect : Obligations.InvertReportsFirstDefect := by
  refine ⟨fun s h => ?long, fun s i hMax hi hlen hsym hcode => ?row⟩
  case long => exact failsWith_of_error (exec_invert s) (by rw [invertOutcome, checkLength_error h])
  case row =>
    have hok := (rowOk_iff_nodup s i).mpr ⟨hlen, hsym, hcode⟩
    have hzero : s.codeLenAt i = 0 → ¬ 1 ≤ (s.codeLenAt i).toNat := fun h => by simp [h]
    refine ⟨fun h0 => ?_, fun hlong => ?_, fun hpos hle hdup => ?_⟩ <;>
      refine failsWith_of_checkRow hMax hi hok ?_ <;> rw [checkRow]
    · rw [if_pos h0]
    · rw [if_neg (fun h => by simp [h] at hlong), if_pos hlong]
    · rw [if_neg fun h => hzero h hpos, if_neg (Nat.not_lt.mpr hle), firstOf_codeEntry_fst, firstOf_codeEntry_snd]
      obtain ⟨j, hj, hs | hb⟩ := hdup
      · rw [if_pos (mem_firstOf.mpr ⟨j, hj, hs⟩)]
      · rw [if_pos (mem_firstOf.mpr ⟨j, hj, hb⟩), ite_self]

/-! ### The tables DERIVE and PARSE make -/

/-- DERIVE's rows meet TVALID's conditions (42_code_table.md R98). -/
theorem tableOk_of_treeRows (s : State) {n : Nat} {rows : List (Word × List Bool)} (ht : TreeOf n s)
    (h : TreeRows n s rows) : TableOk (s.commitTable rows) := by
  obtain ⟨-, hMax, -, -, -, -, -, -, hNodup⟩ := ht
  have hMax : n ≤ 256 := hMax
  exact tableOk_commitTable s (h.length ▸ hMax) (h.path_fits hMax) (h.1.nodup_iff.mpr hNodup)
    (nodup_of_pairwise h.2.1)

/-- A valid tree's table, or a parsed one, meets TVALID's conditions (42_code_table.md R98; 43_transcode.md R120). -/
theorem exec_makesTableOk {i : Instr} {s t : State} (hi : i = .derive ∧ TreeOk s ∨ i = .parse)
    (h : exec i s = .next t) :
    (∃ r : Raise, r.kind ≠ .noError ∧ t = s.raise r) ∨
      ∃ l : List (Word × List Bool), TableOk (s.commitTable l) ∧ t = (s.commitTable l).finish := by
  refine (exec_next h).imp_right fun hc => ?_
  rcases hi with ⟨rfl, ht⟩ | rfl
  · obtain ⟨-, l, hl, -, -, rfl⟩ := hc
    obtain ⟨rows, hrows, htr⟩ := leafRows_of_treeOf ht
    obtain rfl : rows = l := Option.some.inj (hrows.symm.trans hl)
    exact ⟨rows, tableOk_of_treeRows s ht htr, rfl⟩
  · obtain ⟨l, hl, rfl⟩ := hc
    obtain ⟨-, hlen, hbits, hsym, hcode, -⟩ := parseOutcome_ok hl
    exact ⟨l, tableOk_commitTable s hlen hbits hsym hcode, rfl⟩

/-- Settles O60: the table passes the checks, and TVALID is set already. -/
theorem invertAcceptsMadeTables : Obligations.InvertAcceptsMadeTables := by
  intro i s t hi h he
  rcases exec_makesTableOk hi h with ⟨r, hr, rfl⟩ | ⟨l, hok, rfl⟩
  · exact absurd he hr
  · exact exec_invert_of_tableOk (s := (s.commitTable l).finish) hok

end Sys2Proof.Proofs
end

section
/-! PROOFS. A step as the statements of 10_state.md and 20_memory.md see it: which agent moves (R41, R57), what a held
or performed request does (R40, R42), what the resets do (70_reset_and_hazards.md R152). -/

namespace Sys2Proof.Proofs

open Sys2Proof Sys2Proof.Machine Sys2Proof.Safety Sys2Proof.Laws

/-! ### Which agent moves -/

/-- An accepted request is performed, or the engine moves, or the hard reset comes (20_memory.md R41, R57). -/
theorem agent_cases (s : State) :
    (∃ r rest, s.inputs = .request r :: rest ∧ s.accepts r = true) ∨ engineMoves s = true ∨ resets s = true := by
  rcases hi : s.inputs with _ | ⟨r | _ | _, rest⟩
  case nil => exact .inr (.inl (by simp [engineMoves, hi]))
  case cons.engine => exact .inr (.inl (by simp [engineMoves, hi]))
  case cons.hardReset => exact .inr (.inr (by simp [resets, hi]))
  case cons.request =>
    cases ha : s.accepts r with
    | true => exact .inl ⟨r, rest, rfl, ha⟩
    | false =>
      rcases rest with _ | ⟨q | _ | _, rest⟩
      · exact .inr (.inl (by simp [engineMoves, hi, ha]))
      · exact .inr (.inl (by simp [engineMoves, hi, ha]))
      · exact .inr (.inl (by simp [engineMoves, hi, ha]))
      · exact .inr (.inr (by simp [resets, hi, ha]))

/-- Where the engine moves no request is accepted (20_memory.md R41). -/
theorem not_accepts_of_engineMoves {s : State} (h : engineMoves s = true) :
    ∀ r rest, s.inputs = .request r :: rest → s.accepts r = false := by
  intro r rest hi
  rw [engineMoves, hi] at h
  rcases rest with _ | ⟨q | _ | _, rest⟩ <;> simp_all

theorem not_accepts_of_resets {s : State} (h : resets s = true) :
    ∀ r rest, s.inputs = .request r :: rest → s.accepts r = false := by
  obtain ⟨rest, hi | ⟨r, ha, hi⟩⟩ := inputs_of_resets h <;> intro q rest' hq <;> rw [hi] at hq <;> cases hq
  exact ha

theorem not_resets_of_engineMoves {s : State} (h : engineMoves s = true) : resets s = false := by
  by_contra hr
  obtain ⟨rest, hi | ⟨r, -, hi⟩⟩ := inputs_of_resets (Bool.eq_true_of_not_eq_false hr) <;> simp [engineMoves, hi] at h

/-- The hard reset uses up itself and the request it finds held (70_reset_and_hazards.md R152). -/
theorem inputs_step_of_resets {s : State} (h : resets s = true) :
    ∃ rest, (s.inputs = .hardReset :: rest ∨ ∃ r, s.inputs = .request r :: .hardReset :: rest) ∧
      step s = .next ({ s with inputs := rest } : State).hardReset := by
  obtain ⟨rest, hi | ⟨r, ha, hi⟩⟩ := inputs_of_resets h
  · exact ⟨rest, .inl hi, by simp [step, agentStep, hi]⟩
  · exact ⟨rest, .inr ⟨r, hi⟩, by simp [step, agentStep, hi, ha]⟩

/-! ### What a step can be -/

/-- All that performing a request can do (20_memory.md R42): answer it and nothing else, or write a location. -/
theorem perform_cases (s : State) (r : Request) :
    (∃ x, s.perform r = s.respond x) ∨
      ∃ a v l, r = .write a v ∧ locate a = some l ∧ l.readOnly = false ∧
        s.perform r = (s.writeLocation v l).respond .written := by
  rw [State.perform]
  cases r with
  | read a => exact .inl ⟨_, by rw [transact_read_state]⟩
  | write a v =>
    rcases transact_write_cases s a v with ⟨-, h⟩ | ⟨l, hl, hw, h⟩ <;> rw [h]
    · exact .inl ⟨_, rfl⟩
    · exact .inr ⟨a, v, l, rfl, hl, hw, rfl⟩

/-- What a step from `s` to `t` was. -/
inductive StepTo (s t : State) : Prop where
  /-- An accepted request, answered with no other effect. -/
  | answered (r : Request) (rest : List Input) (x : Response) (hi : s.inputs = .request r :: rest)
      (ha : s.accepts r = true) (ht : t = ({ s with inputs := rest } : State).respond x)
  /-- An accepted write to a location that may be written. -/
  | written (a : Addr) (v : Word) (rest : List Input) (l : Location) (hi : s.inputs = .request (.write a v) :: rest)
      (hb : s.busy = false) (hl : locate a = some l)
      (ht : t = (({ s with inputs := rest } : State).writeLocation v l).respond .written)
  /-- The hard reset. -/
  | reset (rest : List Input) (hr : resets s = true)
      (hi : s.inputs = .hardReset :: rest ∨ ∃ r, s.inputs = .request r :: .hardReset :: rest)
      (ht : t = ({ s with inputs := rest } : State).hardReset)
  /-- The engine's turn while no command runs. -/
  | idle (hm : engineMoves s = true) (hb : s.busy = false)
      (ht : t = { s with inputs := inputsAfterEngine s })
  /-- The completion of a command. -/
  | completed (i : Instr) (hc : Completes s i) (hx : exec i { s with inputs := inputsAfterEngine s } = .next t)
  /-- The completion of an illegal word. -/
  | illegal (hm : engineMoves s = true) (hb : s.busy = true)
      (ht : t = ({ s with inputs := inputsAfterEngine s } : State).raise ⟨.badCommand, 0⟩)

/-- While a command runs only reads are accepted (20_memory.md R41). -/
theorem not_busy_of_accepts_write {s : State} {a : Addr} {v : Word} (h : s.accepts (.write a v) = true) :
    s.busy = false := by
  simpa [State.accepts] using h

/-- All that a step that goes on can be. -/
theorem stepTo_of_step {s t : State} (h : step s = .next t) : StepTo s t := by
  rcases agent_cases s with ⟨r, rest, hi, ha⟩ | hm | hr
  · cases (step_of_accepts hi ha).symm.trans h
    rcases perform_cases { s with inputs := rest } r with ⟨x, hx⟩ | ⟨a, v, l, rfl, hl, -, hx⟩ <;> rw [hx]
    · exact .answered r rest x hi ha rfl
    · exact .written a v rest l hi (not_busy_of_accepts_write ha) hl rfl
  · rw [step_of_engineMoves hm] at h
    rcases engineTurn_cases { s with inputs := inputsAfterEngine s } with ⟨hb, he⟩ | ⟨hb, i, hd, he⟩ | ⟨hb, -, he⟩ <;>
      rw [he] at h
    · cases h; exact .idle hm hb rfl
    · exact .completed i ⟨hb, hm, hd⟩ h
    · cases h; exact .illegal hm hb rfl
  · obtain ⟨rest, hi, hs⟩ := inputs_step_of_resets hr
    cases hs.symm.trans h
    exact .reset rest hr hi rfl

/-! ### The port -/

theorem writeStatus_of_not_bit1 (s : State) {w : Word} (h : w.getLsbD 1 = false) : s.writeStatus w = s := by
  rw [State.writeStatus, h]
  rfl

/-- A write uses no input. -/
theorem writeLocation_inputs (s : State) (inputs : List Input) (v : Word) (l : Location) :
    ({ s with inputs := inputs } : State).writeLocation v l = { s.writeLocation v l with inputs := inputs } := by
  cases l
  case ctrl =>
    rw [State.writeLocation, State.writeLocation]
    cases h : v.getLsbD 1
    · rw [writeCtrl_of_not_bit1 _ h, writeCtrl_of_not_bit1 _ h]
    · rw [writeCtrl_of_bit1 _ h, writeCtrl_of_bit1 _ h]
      rfl
  case status =>
    rw [State.writeLocation, State.writeLocation]
    cases h : v.getLsbD 1
    · rw [writeStatus_of_not_bit1 _ h, writeStatus_of_not_bit1 _ h]
    · rw [writeStatus_of_bit1 _ h, writeStatus_of_bit1 _ h]
  all_goals rfl

/-- Neither does a transaction. -/
theorem transact_inputs (s : State) (inputs : List Input) (r : Request) :
    ({ s with inputs := inputs } : State).transact r =
      ({ (s.transact r).1 with inputs := inputs }, (s.transact r).2) := by
  cases r with
  | read a =>
    rcases transact_read_cases s a with ⟨hl, h⟩ | ⟨l, hl, h⟩ <;> rw [h] <;> simp only [State.transact, hl]
    cases l <;> rfl
  | write a v =>
    rcases transact_write_cases s a v with ⟨hl | ⟨l, hl, hw⟩, h⟩ | ⟨l, hl, hw, h⟩ <;> rw [h] <;>
      simp [State.transact, *, writeLocation_inputs]

theorem transact_responses (s : State) (r : Request) : (s.transact r).1.responses = s.responses := by
  cases r with
  | read a => rw [transact_read_state]
  | write a v =>
    rcases transact_write_cases s a v with ⟨-, h⟩ | ⟨l, -, -, h⟩ <;> rw [h]
    exact (writeLocation_own s v l).2.1

/-- Settles O16: an accepted request is answered once; the engine and the hard reset answer nothing. -/
theorem eachAcceptedRequestGetsOneResponse : Obligations.EachAcceptedRequestGetsOneResponse := by
  intro s t h
  cases stepTo_of_step h with
  | answered r rest x hi ha ht =>
    subst ht
    exact .inl ⟨r, rest, x, hi, ha, rfl, rfl⟩
  | written a v rest l hi hb hl ht =>
    subst ht
    obtain ⟨hin, hre, -⟩ := writeLocation_own { s with inputs := rest } v l
    exact .inl ⟨_, rest, .written, hi, by simp [State.accepts, hb], hin, congrArg (Response.written :: ·) hre⟩
  | reset rest hr hi ht =>
    subst ht
    exact .inr ⟨not_accepts_of_resets hr, rfl, .inr ⟨hr, hi⟩⟩
  | idle hm hb ht =>
    subst ht
    exact .inr ⟨not_accepts_of_engineMoves hm, rfl, .inl ⟨hm, not_resets_of_engineMoves hm, rfl⟩⟩
  | completed i hc hx =>
    obtain ⟨-, hm, -⟩ := hc
    have hown := exec_keepsOwn hx
    exact .inr ⟨not_accepts_of_engineMoves hm, hown.responses, .inl ⟨hm, not_resets_of_engineMoves hm, hown.inputs⟩⟩
  | illegal hm hb ht =>
    subst ht
    exact .inr ⟨not_accepts_of_engineMoves hm, rfl, .inl ⟨hm, not_resets_of_engineMoves hm, rfl⟩⟩

/-- Settles O3: the engine's turn, with the two values of BUSY. -/
theorem stepRunsTheDecodedCommand : Obligations.StepRunsTheDecodedCommand := by
  refine ⟨fun s i hb hm hd => ?_, fun s hb hm => ?_⟩ <;> rw [step_of_engineMoves hm, engineTurn]
  · rw [if_pos hb, complete, hd]
  · rw [if_neg (by simp [hb])]

/-- Settles O17: the hard reset comes next, and its state is the one after reset but for the model's own fields. -/
theorem hardResetClearsRegisters : Obligations.HardResetClearsRegisters := by
  rintro s rest (hi | ⟨r, ha, hi⟩)
  · simp only [step, agentStep, hi]
    rfl
  · simp only [step, agentStep, hi, ha]
    rfl

/-- With a command running, a step at which a held request stands first is the engine's turn. -/
theorem engineMoves_of_held {s : State} {r : Request} {rest : List Input} (hb : s.busy = true)
    (hi : s.inputs = .request r :: rest) (hr : r ≠ .read 0x0000C) (hn : resets s = false) : engineMoves s = true := by
  rcases agent_cases s with ⟨q, rest', hq, ha⟩ | hm | hr'
  · rw [hi] at hq
    cases hq
    simp only [State.accepts, hb, Bool.not_true, Bool.false_or, beq_iff_eq] at ha
    exact absurd ha hr
  · exact hm
  · rw [hn] at hr'; cases hr'

theorem inputsAfterEngine_head {s : State} {r : Request} {rest : List Input} (hi : s.inputs = .request r :: rest) :
    (inputsAfterEngine s).head? = some (.request r) := by
  rw [inputsAfterEngine, hi]
  rcases rest with _ | ⟨q | _ | _, rest⟩ <;> rfl

/-- The engine's turn while a command runs answers nothing and ends the command. -/
theorem engineTurn_ends {s t : State} (hb : s.busy = true) (h : engineTurn s = .next t) :
    t.busy = false ∧ t.responses = s.responses := by
  rcases engineTurn_cases s with ⟨hb', -⟩ | ⟨-, i, -, he⟩ | ⟨-, -, he⟩
  · rw [hb] at hb'; cases hb'
  · rw [he] at h
    exact ⟨(exec_status h).1, (exec_keepsOwn h).responses⟩
  · rw [he] at h
    cases h
    exact ⟨rfl, rfl⟩

/-- Settles O8: a STATUS read is accepted while BUSY = 1, any other request leaves the turn to the engine, which reads
no input; with BUSY = 0 every request is accepted. -/
theorem requestsAreHeldWhileBusy : Obligations.RequestsAreHeldWhileBusy := by
  refine ⟨fun s rest hb hi => ?status, fun s t r rest hb hi hr hn h => ?held, fun s r rest hb hi => ?performed⟩
  case status =>
    have ha : s.accepts (.read 0x0000C) = true := by simp [State.accepts, statusAddr]
    rw [step_of_accepts hi ha, State.perform, transact_read_of_locate _ (l := .status) rfl]
    rfl
  case held =>
    have hm := engineMoves_of_held hb hi hr hn
    rw [step_of_engineMoves hm] at h
    obtain ⟨hbusy, hresponses⟩ := engineTurn_ends (s := { s with inputs := inputsAfterEngine s }) hb h
    rw [engineTurn_inputs] at h
    have hempty : step { s with inputs := [] } = withInputs [] (engineTurn s) := engineTurn_inputs s []
    cases he : engineTurn s with
    | next u =>
      rw [he] at h hempty
      cases h
      exact ⟨hresponses, inputsAfterEngine_head hi, hbusy, _, hempty, rfl⟩
    | fault f => rw [he] at h; cases h
    | refused f => rw [he] at h; cases h
  case performed =>
    have ha : s.accepts r = true := by simp [State.accepts, hb]
    rw [step_of_accepts hi ha, State.perform, transact_inputs, State.respond]
    simp only [transact_responses]

end Sys2Proof.Proofs
end

section
/-! PROOFS. The rules about every step: which host writes act on the flags (10_state.md R19, R21, R25, R27), which steps
set, clear or keep them, and the invariant of registers, memories, tree and table that every step keeps. -/

namespace Sys2Proof.Proofs

open Sys2Proof Sys2Proof.Machine Sys2Proof.Safety Sys2Proof.Laws

/-! ### The addresses of the writes that act on flags -/

/-- A word of a window, not a register (20_memory.md R43). -/
def inWindow : Location → Bool
  | .id | .ctrl | .cmd | .status | .errInfo | .textLen | .nFreq | .nNode | .root | .nCode | .bitLen | .byteLen
  | .schLen => false
  | _ => true

/-- A word of the CODE window (20_memory.md R47). -/
def inCodeWindow : Location → Bool
  | .codeSym _ | .codeLen _ | .codeBits _ _ | .codeReserved _ => true
  | _ => false

theorem freqLocation_window (o : Nat) :
    inWindow (freqLocation o) = true ∧ inCodeWindow (freqLocation o) = false := by
  unfold freqLocation
  split <;> exact ⟨rfl, rfl⟩

theorem nodeLocation_window (o : Nat) :
    inWindow (nodeLocation o) = true ∧ inCodeWindow (nodeLocation o) = false := by
  unfold nodeLocation
  (repeat' split) <;> exact ⟨rfl, rfl⟩

theorem codeLocation_window (o : Nat) : inWindow (codeLocation o) = true := by
  unfold codeLocation
  (repeat' split) <;> rfl

/-- A register's address is the one of its table row (10_state.md R17). -/
theorem addr_of_registerAt {a : Nat} {l : Location} (h : registerAt a = some l) :
    l.addr.toNat = a ∧ inCodeWindow l = false := by
  unfold registerAt at h
  split at h <;> cases h <;> exact ⟨rfl, rfl⟩

/-- An address of the map names a register, or a word of the CODE window, or a word of another window. -/
theorem mapAddress_cases {a : Nat} {l : Location} (h : mapAddress a = some l) :
    registerAt a = some l ∨
      (inWindow l = true ∧ (inCodeWindow l = true → 0x04000 ≤ a ∧ a < 0x08000)) := by
  unfold mapAddress at h
  split at h
  · exact .inl h
  · refine .inr ?_
    (repeat' split at h) <;> simp only [Option.some.injEq, reduceCtorEq] at h <;> subst h
    · simp [freqLocation_window]
    · simp [nodeLocation_window]
    · exact ⟨codeLocation_window _, fun _ => by omega⟩
    all_goals exact ⟨rfl, nofun⟩

theorem mapAddress_of_locate {a : Addr} {l : Location} (h : locate a = some l) :
    a.toNat % 4 = 0 ∧ mapAddress a.toNat = some l := by
  unfold locate at h
  split at h
  · next h4 => exact ⟨h4, h⟩
  · cases h

/-- The address of a register (10_state.md R17). -/
theorem addr_of_locate_register {a : Addr} {l : Location} (h : locate a = some l) (hl : inWindow l = false) :
    a = l.addr := by
  rcases mapAddress_cases (mapAddress_of_locate h).2 with hr | ⟨hw, -⟩
  · exact BitVec.eq_of_toNat_eq (addr_of_registerAt hr).1.symm
  · rw [hl] at hw; cases hw

/-- The addresses of the CODE window (20_memory.md R43). -/
theorem addr_of_locate_code {a : Addr} {l : Location} (h : locate a = some l) (hl : inCodeWindow l = true) :
    a.toNat % 4 = 0 ∧ 0x04000 ≤ a.toNat ∧ a.toNat < 0x08000 := by
  obtain ⟨h4, hm⟩ := mapAddress_of_locate h
  rcases mapAddress_cases hm with hr | ⟨-, hc⟩
  · rw [(addr_of_registerAt hr).2] at hl; cases hl
  · exact ⟨h4, hc hl⟩

/-! ### What a write keeps -/

/-- BUSY, DONE, ERR and ERRINFO are kept. -/
structure KeepsStatus (s t : State) : Prop where
  busy : t.busy = s.busy
  done : t.done = s.done
  err : t.err = s.err
  errInfo : t.errInfo = s.errInfo

/-- The registers of the tree are kept. -/
structure KeepsTreeRegs (s t : State) : Prop where
  treeValid : t.treeValid = s.treeValid
  nNode : t.nNode = s.nNode
  root : t.root = s.root

/-- NODE memory is kept. -/
structure KeepsNodes (s t : State) : Prop where
  kind : t.mem.nodeKind = s.mem.nodeKind
  a : t.mem.nodeA = s.mem.nodeA
  b : t.mem.nodeB = s.mem.nodeB
  epoch : t.epoch = s.epoch

/-- The table is kept: TVALID, NCODE and CODE memory. -/
structure KeepsTable (s t : State) : Prop where
  tableValid : t.tableValid = s.tableValid
  nCode : t.nCode = s.nCode
  sym : t.mem.codeSym = s.mem.codeSym
  len : t.mem.codeLen = s.mem.codeLen
  bits : t.mem.codeBits = s.mem.codeBits
  epoch : t.epoch = s.epoch

/-- All that a write can do to the flags (10_state.md R19, R21; 20_memory.md R55): it is the soft reset, starts a
command, clears DONE, clears TVALID, or keeps them. -/
theorem writeLocation_cases (s : State) (v : Word) (l : Location) :
    (l = .ctrl ∧ v.getLsbD 1 = true ∧ s.writeLocation v l = s.softReset) ∨
    (l = .cmd ∧ s.writeLocation v l = s.startCommand v) ∨
    (l = .status ∧ v.getLsbD 1 = true ∧ s.writeLocation v l = { s with done := false }) ∨
    (KeepsStatus s (s.writeLocation v l) ∧ KeepsTreeRegs s (s.writeLocation v l) ∧
      (KeepsTable s (s.writeLocation v l) ∨
        ((l = .nCode ∨ inCodeWindow l = true) ∧ (s.writeLocation v l).tableValid = false))) := by
  cases l
  case ctrl =>
    rcases writeCtrl_cases s v with ⟨-, h⟩ | ⟨h1, h⟩
    · rw [State.writeLocation, h]
      exact .inr (.inr (.inr ⟨⟨rfl, rfl, rfl, rfl⟩, ⟨rfl, rfl, rfl⟩, .inl ⟨rfl, rfl, rfl, rfl, rfl, rfl⟩⟩))
    · exact .inl ⟨rfl, h1, h⟩
  case cmd => exact .inr (.inl ⟨rfl, rfl⟩)
  case status =>
    rcases writeStatus_cases s v with ⟨-, h⟩ | ⟨h1, h⟩
    · rw [State.writeLocation, h]
      exact .inr (.inr (.inr ⟨⟨rfl, rfl, rfl, rfl⟩, ⟨rfl, rfl, rfl⟩, .inl ⟨rfl, rfl, rfl, rfl, rfl, rfl⟩⟩))
    · exact .inr (.inr (.inl ⟨rfl, h1, h⟩))
  case nCode => exact .inr (.inr (.inr ⟨⟨rfl, rfl, rfl, rfl⟩, ⟨rfl, rfl, rfl⟩, .inr ⟨.inl rfl, rfl⟩⟩))
  case codeSym => exact .inr (.inr (.inr ⟨⟨rfl, rfl, rfl, rfl⟩, ⟨rfl, rfl, rfl⟩, .inr ⟨.inr rfl, rfl⟩⟩))
  case codeLen => exact .inr (.inr (.inr ⟨⟨rfl, rfl, rfl, rfl⟩, ⟨rfl, rfl, rfl⟩, .inr ⟨.inr rfl, rfl⟩⟩))
  case codeBits => exact .inr (.inr (.inr ⟨⟨rfl, rfl, rfl, rfl⟩, ⟨rfl, rfl, rfl⟩, .inr ⟨.inr rfl, rfl⟩⟩))
  case codeReserved => exact .inr (.inr (.inr ⟨⟨rfl, rfl, rfl, rfl⟩, ⟨rfl, rfl, rfl⟩, .inr ⟨.inr rfl, rfl⟩⟩))
  all_goals
    exact .inr (.inr (.inr ⟨⟨rfl, rfl, rfl, rfl⟩, ⟨rfl, rfl, rfl⟩, .inl ⟨rfl, rfl, rfl, rfl, rfl, rfl⟩⟩))

theorem keepsNodes_writeLocation (s : State) (v : Word) (l : Location) : KeepsNodes s (s.writeLocation v l) := by
  obtain ⟨h1, h2, h3⟩ := writeLocation_node s v l
  exact ⟨h1, h2, h3, (writeLocation_own s v l).2.2⟩

/-! ### What a command keeps -/

/-- Only BUILD writes the tree (30_encoding.md R63). -/
theorem exec_keepsTree {i : Instr} {s t : State} (hi : i ≠ .build) (h : exec i s = .next t) :
    KeepsNodes s t ∧ KeepsTreeRegs s t := by
  rcases exec_next h with ⟨r, -, rfl⟩ | hc
  · exact ⟨⟨rfl, rfl, rfl, rfl⟩, ⟨rfl, rfl, rfl⟩⟩
  · cases i
    case build => exact absurd rfl hi
    case derive => obtain ⟨-, _, -, -, -, rfl⟩ := hc; exact ⟨⟨rfl, rfl, rfl, rfl⟩, ⟨rfl, rfl, rfl⟩⟩
    case invert => obtain ⟨-, rfl⟩ := hc; exact ⟨⟨rfl, rfl, rfl, rfl⟩, ⟨rfl, rfl, rfl⟩⟩
    all_goals obtain ⟨_, -, rfl⟩ := hc; exact ⟨⟨rfl, rfl, rfl, rfl⟩, ⟨rfl, rfl, rfl⟩⟩

/-- A command that sets TVALID (10_state.md R25). -/
def validatesTable (i : Instr) : Prop := i = .derive ∨ i = .invert ∨ i = .parse

/-- A command keeps the table, or validates one and reports no error (30_encoding.md R63). -/
theorem exec_table {i : Instr} {s t : State} (h : exec i s = .next t) :
    KeepsTable s t ∨ (validatesTable i ∧ t.err = .noError ∧ t.tableValid = true) := by
  rcases exec_next h with ⟨r, -, rfl⟩ | hc
  · exact .inl ⟨rfl, rfl, rfl, rfl, rfl, rfl⟩
  · cases i
    case derive => obtain ⟨-, _, -, -, -, rfl⟩ := hc; exact .inr ⟨.inl rfl, rfl, rfl⟩
    case invert => obtain ⟨-, rfl⟩ := hc; exact .inr ⟨.inr (.inl rfl), rfl, rfl⟩
    case parse => obtain ⟨_, -, rfl⟩ := hc; exact .inr ⟨.inr (.inr rfl), rfl, rfl⟩
    case build => obtain ⟨-, rfl⟩ := hc; exact .inl ⟨rfl, rfl, rfl, rfl, rfl, rfl⟩
    all_goals obtain ⟨_, -, rfl⟩ := hc; exact .inl ⟨rfl, rfl, rfl, rfl, rfl, rfl⟩

/-- BUILD makes a tree, or changes nothing of the tree. -/
theorem exec_build_cases {s t : State} (h : exec .build s = .next t) :
    (KeepsNodes s t ∧ KeepsTreeRegs s t) ∨ (t.err = .noError ∧ t.treeValid = true ∧ TreeOk t) := by
  rcases exec_next h with ⟨r, -, rfl⟩ | ⟨hc, rfl⟩
  · exact .inl ⟨⟨rfl, rfl, rfl, rfl⟩, ⟨rfl, rfl, rfl⟩⟩
  · obtain ⟨h1, hMax, -, hsym, -⟩ := (checkFreqs_iff s).mp hc
    exact .inr ⟨rfl, rfl, treeOk_of_treeOf (treeOf_commitTree s h1 hMax hsym).1⟩

/-! ### What a step does to status, tree and table -/

theorem acceptedWrite_of_inputs {s : State} {a : Addr} {v : Word} {rest : List Input}
    (hi : s.inputs = .request (.write a v) :: rest) (hb : s.busy = false) : acceptedWrite s = some (a, v) := by
  simp [acceptedWrite, hi, hb]

/-- What a step can do to BUSY, DONE, ERR and ERRINFO (10_state.md R25). -/
inductive StatusStep (s t : State) : Prop where
  | kept (h : KeepsStatus s t)
  | cleared (hs : softResets s ∨ resets s = true) (hb : t.busy = false) (hd : t.done = false) (he : t.err = .noError)
      (hi : t.errInfo = 0)
  | started (w : Word) (hw : acceptedWrite s = some (0x00008, w)) (hb : t.busy = true) (hd : t.done = false)
      (he : t.err = .noError) (hi : t.errInfo = 0)
  | acknowledged (w : Word) (hw : acceptedWrite s = some (0x0000C, w)) (h1 : w.getLsbD 1 = true)
      (hb : t.busy = s.busy) (hd : t.done = false) (he : t.err = s.err) (hi : t.errInfo = s.errInfo)
  | completed (hb : s.busy = true) (hm : engineMoves s = true) (hb' : t.busy = false) (hd : t.done = true)
      (hi : t.err = .noError → t.errInfo = 0)

theorem statusStep_of_step {s t : State} (h : step s = .next t) : StatusStep s t := by
  cases stepTo_of_step h with
  | answered r rest x hi ha ht => subst ht; exact .kept ⟨rfl, rfl, rfl, rfl⟩
  | written a v rest l hi hb hl ht =>
    subst ht
    have hw := acceptedWrite_of_inputs hi hb
    rcases writeLocation_cases { s with inputs := rest } v l with ⟨rfl, h1, he⟩ | ⟨rfl, he⟩ | ⟨rfl, h1, he⟩ | ⟨hk, -⟩
    · rw [addr_of_locate_register hl rfl] at hw
      rw [he]
      exact .cleared (.inl ⟨v, hw, h1⟩) rfl rfl rfl rfl
    · rw [addr_of_locate_register hl rfl] at hw
      rw [he]
      exact .started v hw rfl rfl rfl rfl
    · rw [addr_of_locate_register hl rfl] at hw
      rw [he]
      exact .acknowledged v hw h1 rfl rfl rfl rfl
    · exact .kept ⟨hk.busy, hk.done, hk.err, hk.errInfo⟩
  | reset rest hr hi ht => subst ht; exact .cleared (.inr hr) rfl rfl rfl rfl
  | idle hm hb ht => subst ht; exact .kept ⟨rfl, rfl, rfl, rfl⟩
  | completed i hc hx =>
    obtain ⟨hb, hm, -⟩ := hc
    obtain ⟨h1, h2, h3⟩ := exec_status hx
    exact .completed hb hm h1 h2 h3
  | illegal hm hb ht => subst ht; exact .completed hb hm rfl rfl nofun

/-- What a step can do to the tree (10_state.md R24, R26, R29). -/
inductive TreeStep (s t : State) : Prop where
  | kept (hn : KeepsNodes s t) (hr : KeepsTreeRegs s t)
  | softReset (hs : softResets s) (hn : KeepsNodes s t) (hv : t.treeValid = false)
  | hardReset (hr : resets s = true) (hv : t.treeValid = false)
  | built (hc : Completes s .build) (he : t.err = .noError) (hv : t.treeValid = true) (ht : TreeOk t)

theorem treeStep_of_step {s t : State} (h : step s = .next t) : TreeStep s t := by
  cases stepTo_of_step h with
  | answered r rest x hi ha ht => subst ht; exact .kept ⟨rfl, rfl, rfl, rfl⟩ ⟨rfl, rfl, rfl⟩
  | written a v rest l hi hb hl ht =>
    subst ht
    have hw := acceptedWrite_of_inputs hi hb
    obtain ⟨h1, h2, h3, h4⟩ := keepsNodes_writeLocation { s with inputs := rest } v l
    have hn : KeepsNodes s ((({ s with inputs := rest } : State).writeLocation v l).respond .written) :=
      ⟨h1, h2, h3, h4⟩
    rcases writeLocation_cases { s with inputs := rest } v l with ⟨rfl, h1, he⟩ | ⟨rfl, he⟩ | ⟨rfl, h1, he⟩ | ⟨-, hk, -⟩
    · rw [addr_of_locate_register hl rfl] at hw
      rw [he] at hn ⊢
      exact .softReset ⟨v, hw, h1⟩ hn rfl
    · rw [he]
      exact .kept ⟨rfl, rfl, rfl, rfl⟩ ⟨rfl, rfl, rfl⟩
    · rw [he]
      exact .kept ⟨rfl, rfl, rfl, rfl⟩ ⟨rfl, rfl, rfl⟩
    · exact .kept hn ⟨hk.treeValid, hk.nNode, hk.root⟩
  | reset rest hr hi ht => subst ht; exact .hardReset hr rfl
  | idle hm hb ht => subst ht; exact .kept ⟨rfl, rfl, rfl, rfl⟩ ⟨rfl, rfl, rfl⟩
  | completed i hc hx =>
    by_cases hi : i = .build
    · subst hi
      rcases exec_build_cases hx with ⟨hn, hr⟩ | ⟨he, hv, ht⟩
      · exact .kept ⟨hn.kind, hn.a, hn.b, hn.epoch⟩ ⟨hr.treeValid, hr.nNode, hr.root⟩
      · exact .built hc he hv ht
    · obtain ⟨hn, hr⟩ := exec_keepsTree hi hx
      exact .kept ⟨hn.kind, hn.a, hn.b, hn.epoch⟩ ⟨hr.treeValid, hr.nNode, hr.root⟩
  | illegal hm hb ht => subst ht; exact .kept ⟨rfl, rfl, rfl, rfl⟩ ⟨rfl, rfl, rfl⟩

/-- What a step can do to the table (10_state.md R27). -/
inductive TableStep (s t : State) : Prop where
  | kept (h : KeepsTable s t)
  | reset (hs : softResets s ∨ resets s = true) (hv : t.tableValid = false)
  | overwritten (a : Addr) (w : Word) (hw : acceptedWrite s = some (a, w))
      (ha : a = 0x00030 ∨ (a.toNat % 4 = 0 ∧ 0x04000 ≤ a.toNat ∧ a.toNat < 0x08000)) (hv : t.tableValid = false)
  | validated (i : Instr) (hi : validatesTable i) (hc : Completes s i)
      (hx : exec i { s with inputs := inputsAfterEngine s } = .next t) (he : t.err = .noError)
      (hv : t.tableValid = true)

theorem tableStep_of_step {s t : State} (h : step s = .next t) : TableStep s t := by
  cases stepTo_of_step h with
  | answered r rest x hi ha ht => subst ht; exact .kept ⟨rfl, rfl, rfl, rfl, rfl, rfl⟩
  | written a v rest l hi hb hl ht =>
    subst ht
    have hw := acceptedWrite_of_inputs hi hb
    rcases writeLocation_cases { s with inputs := rest } v l with
      ⟨rfl, h1, he⟩ | ⟨rfl, he⟩ | ⟨rfl, -, he⟩ | ⟨-, -, hk | ⟨hloc, hv⟩⟩
    · rw [addr_of_locate_register hl rfl] at hw
      rw [he]
      exact .reset (.inl ⟨v, hw, h1⟩) rfl
    · rw [he]
      exact .kept ⟨rfl, rfl, rfl, rfl, rfl, rfl⟩
    · rw [he]
      exact .kept ⟨rfl, rfl, rfl, rfl, rfl, rfl⟩
    · exact .kept ⟨hk.tableValid, hk.nCode, hk.sym, hk.len, hk.bits, hk.epoch⟩
    · refine .overwritten a v hw ?_ hv
      rcases hloc with rfl | hcode
      · exact .inl (addr_of_locate_register hl rfl)
      · exact .inr (addr_of_locate_code hl hcode)
  | reset rest hr hi ht => subst ht; exact .reset (.inr hr) rfl
  | idle hm hb ht => subst ht; exact .kept ⟨rfl, rfl, rfl, rfl, rfl, rfl⟩
  | completed i hc hx =>
    rcases exec_table hx with hk | ⟨hi, he, hv⟩
    · exact .kept ⟨hk.tableValid, hk.nCode, hk.sym, hk.len, hk.bits, hk.epoch⟩
    · exact .validated i hi hc hx he hv
  | illegal hm hb ht => subst ht; exact .kept ⟨rfl, rfl, rfl, rfl, rfl, rfl⟩

/-! ### The flags -/

/-- Settles O20: each row's events are the steps that set the flag. -/
theorem flagsAreSetOnlyAsTabulated : Obligations.FlagsAreSetOnlyAsTabulated := by
  intro s t h
  refine ⟨?busy, ?done, ?err, ?tree, ?table⟩
  case busy =>
    intro h0 h1
    cases statusStep_of_step h with
    | started w hw => exact ⟨w, hw⟩
    | kept hk => rw [hk.busy, h0] at h1; cases h1
    | cleared hs hb => rw [hb] at h1; cases h1
    | acknowledged w hw hw1 hb => rw [hb, h0] at h1; cases h1
    | completed hb => rw [h0] at hb; cases hb
  case done =>
    intro h0 h1
    cases statusStep_of_step h with
    | completed hb hm => exact ⟨hb, hm⟩
    | kept hk => rw [hk.done, h0] at h1; cases h1
    | cleared hs hb hd => rw [hd] at h1; cases h1
    | started w hw hb hd => rw [hd] at h1; cases h1
    | acknowledged w hw hw1 hb hd => rw [hd] at h1; cases h1
  case err =>
    intro h0 h1
    cases statusStep_of_step h with
    | completed hb hm => exact ⟨hb, hm⟩
    | kept hk => exact absurd (hk.err.trans h0) h1
    | cleared hs hb hd he => exact absurd he h1
    | started w hw hb hd he => exact absurd he h1
    | acknowledged w hw hw1 hb hd he => exact absurd (he.trans h0) h1
  case tree =>
    intro h0 h1
    cases treeStep_of_step h with
    | built hc he => exact ⟨hc, he⟩
    | kept hn hr => rw [hr.treeValid, h0] at h1; cases h1
    | softReset hs hn hv => rw [hv] at h1; cases h1
    | hardReset hr hv => rw [hv] at h1; cases h1
  case table =>
    intro h0 h1
    cases tableStep_of_step h with
    | validated i hi hc hx he =>
      refine ⟨?_, he⟩
      rcases hi with rfl | rfl | rfl
      · exact .inl hc
      · exact .inr (.inl hc)
      · exact .inr (.inr hc)
    | kept hk => rw [hk.tableValid, h0] at h1; cases h1
    | reset hs hv => rw [hv] at h1; cases h1
    | overwritten a w hw ha hv => rw [hv] at h1; cases h1

/-- Settles O21: each row's events are the steps that clear the flag; a completion finds ERR clear already. -/
theorem flagsAreClearedOnlyAsTabulated : Obligations.FlagsAreClearedOnlyAsTabulated := by
  rintro s t ⟨-, hbusyErr, -⟩ h
  refine ⟨?busy, ?done, ?err, ?tree, ?table⟩
  case busy =>
    intro h0 h1
    cases stepTo_of_step h with
    | reset rest hr => exact .inr hr
    | completed i hc => exact .inl hc.2.1
    | illegal hm => exact .inl hm
    | answered r rest x hi ha ht => subst ht; rw [respond_busy] at h1; exact absurd (h0.symm.trans h1) (by decide)
    | written a v rest l hi hb => rw [h0] at hb; cases hb
    | idle hm hb => rw [h0] at hb; cases hb
  case done =>
    intro h0 h1
    cases statusStep_of_step h with
    | started w hw => exact .inl ⟨w, hw⟩
    | acknowledged w hw hw1 => exact .inr (.inl ⟨w, hw, hw1⟩)
    | cleared hs => exact .inr (.inr hs)
    | kept hk => rw [hk.done, h0] at h1; cases h1
    | completed hb hm hb' hd => rw [hd] at h1; cases h1
  case err =>
    intro h0 h1
    cases statusStep_of_step h with
    | started w hw => exact .inl ⟨w, hw⟩
    | cleared hs => exact .inr hs
    | kept hk => exact absurd (hk.err.symm.trans h1) h0
    | acknowledged w hw hw1 hb hd he => exact absurd (he.symm.trans h1) h0
    | completed hb => exact absurd (hbusyErr hb) h0
  case tree =>
    intro h0 h1
    cases treeStep_of_step h with
    | softReset hs => exact .inl hs
    | hardReset hr => exact .inr hr
    | kept hn hr => rw [hr.treeValid, h0] at h1; cases h1
    | built hc he hv => rw [hv] at h1; cases h1
  case table =>
    intro h0 h1
    cases tableStep_of_step h with
    | reset hs => exact hs.imp_right .inl
    | overwritten a w hw ha => exact .inr (.inr ⟨a, w, hw, ha⟩)
    | kept hk => rw [hk.tableValid, h0] at h1; cases h1
    | validated i hi hc hx he hv => rw [hv] at h1; cases h1

/-- Settles O22: of the steps that touch the tree BUILD and the hard reset are excluded, and the soft reset keeps NODE
memory. -/
theorem treeChangesOnlyByBuildOrReset : Obligations.TreeChangesOnlyByBuildOrReset := by
  intro s t h hbuild hreset
  cases treeStep_of_step h with
  | kept hn hr => exact ⟨⟨hn.kind, hn.a, hn.b, hn.epoch⟩, fun _ => ⟨hr.nNode, hr.root⟩⟩
  | softReset hs hn => exact ⟨⟨hn.kind, hn.a, hn.b, hn.epoch⟩, fun hns => absurd hs hns⟩
  | hardReset hr => rw [hreset] at hr; cases hr
  | built hc => exact absurd hc hbuild

/-! ### The invariant -/

/-- Settles O23: after reset the flags are 0 and no element is written. -/
theorem resetMeetsInvariant : Obligations.ResetMeetsInvariant :=
  ⟨⟨by decide, fun _ => rfl, fun _ => rfl⟩, reset_wf, nofun, nofun⟩

/-- Settles O24, by what a step can do to the status registers. -/
theorem stepKeepsStatusRegisters : Obligations.StepKeepsStatusRegisters := by
  rintro s t ⟨hbd, hbe, hei⟩ h
  cases statusStep_of_step h with
  | kept hk => rw [StatusOk, hk.busy, hk.done, hk.err, hk.errInfo]; exact ⟨hbd, hbe, hei⟩
  | cleared hs hb hd he hi => simp [StatusOk, hb, hd, he, hi]
  | started w hw hb hd he hi => simp [StatusOk, hb, hd, he, hi]
  | acknowledged w hw h1 hb hd he hi => rw [StatusOk, hb, hd, he, hi]; exact ⟨by simp, hbe, hei⟩
  | completed hb hm hb' hd hi => rw [StatusOk, hb', hd]; exact ⟨by simp, nofun, hi⟩

/-- Every command keeps the memories' canonical form: its output fits its memory (30_encoding.md R68). -/
theorem exec_wf {i : Instr} {s t : State} (hw : s.mem.wf) (h : exec i s = .next t) : t.mem.wf := by
  rcases exec_next h with ⟨r, -, rfl⟩ | hc
  · exact hw
  · cases i
    case freq => obtain ⟨l, hl, rfl⟩ := hc; exact commitFreq_wf (freqOutcome_ok hl).2.1 hw
    case build =>
      obtain ⟨hc, rfl⟩ := hc
      obtain ⟨h1, hMax, -⟩ := (checkFreqs_iff s).mp hc
      have hMax : s.freqOperand.length ≤ 256 := hMax
      exact commitTree_wf (by rw [buildTree_length h1]; omega) hw
    case derive => obtain ⟨-, l, -, hlen, -, rfl⟩ := hc; exact commitTable_wf hlen hw
    case invert => obtain ⟨-, rfl⟩ := hc; exact hw
    case encode => obtain ⟨b, hb, rfl⟩ := hc; exact commitBits_wf (encodeOutcome_ok hb).2.2.1 hw
    case decode => obtain ⟨l, hl, rfl⟩ := hc; exact commitText_wf (decodeOutcome_ok hl).2.2.1 hw
    case ser => obtain ⟨c, hc, rfl⟩ := hc; exact commitScheme_wf (serOutcome_ok hc).2.2.1 hw
    case parse => obtain ⟨l, hl, rfl⟩ := hc; exact commitTable_wf (parseOutcome_ok hl).2.1 hw
    case pack =>
      obtain ⟨y, hy, rfl⟩ := hc
      obtain ⟨hle, -, hlen⟩ := packOutcome_ok hy
      exact commitBytes_wf (by omega) hw
    case unpack =>
      obtain ⟨b, hb, rfl⟩ := hc
      obtain ⟨hle, -, hlt⟩ := unpackOutcome_ok hb
      exact commitBits_wf (by omega) hw

/-- Settles O25: a host write reaches an element that exists, a command's output fits, the hard reset leaves none. -/
theorem stepKeepsMemoryCanonical : Obligations.StepKeepsMemoryCanonical := by
  intro s t hw h
  cases stepTo_of_step h with
  | answered r rest x hi ha ht => subst ht; exact hw
  | written a v rest l hi hb hl ht => subst ht; exact writeLocation_wf v (locate_exists hl) hw
  | reset rest hr hi ht => subst ht; exact wf_unwritten
  | idle hm hb ht => subst ht; exact hw
  | completed i hc hx => exact exec_wf (s := { s with inputs := inputsAfterEngine s }) hw hx
  | illegal hm hb ht => subst ht; exact hw

/-- TREEVALID's promise is about NODE memory, NNODE and ROOT alone (10_state.md R26). -/
theorem treeOk_congr {s t : State} (hn : KeepsNodes s t) (hr : KeepsTreeRegs s t) (h : TreeOk s) : TreeOk t := by
  have hkind : t.nodeKindAt = s.nodeKindAt := by funext i; rw [State.nodeKindAt, hn.kind, hn.epoch]; rfl
  have ha : t.nodeAAt = s.nodeAAt := by funext i; rw [State.nodeAAt, hn.a, hn.epoch]; rfl
  have hb : t.nodeBAt = s.nodeBAt := by funext i; rw [State.nodeBAt, hn.b, hn.epoch]; rfl
  have hchild : childNodes t = childNodes s := by rw [childNodes, hkind, ha, hb, hr.nNode]; rfl
  rw [TreeOk, TreeOf, leafCount, hr.nNode, hr.root, hkind, ha, hb, hchild]
  exact h

/-- TVALID's promise is about CODE memory and NCODE alone (10_state.md R27). -/
theorem tableOk_congr {s t : State} (hk : KeepsTable s t) (h : TableOk s) : TableOk t := by
  have hsym : t.codeSymAt = s.codeSymAt := by funext i; rw [State.codeSymAt, hk.sym, hk.epoch]; rfl
  have hlen : t.codeLenAt = s.codeLenAt := by funext i; rw [State.codeLenAt, hk.len, hk.epoch]; rfl
  have hword : t.codeWordAt = s.codeWordAt := by funext i k; rw [State.codeWordAt, hk.bits, hk.epoch]; rfl
  have hbit : t.codeBitAt = s.codeBitAt := by funext i j; rw [State.codeBitAt, hword]; rfl
  have hentry : t.codeEntry = s.codeEntry := by
    funext i; rw [State.codeEntry, State.codeString, hsym, hlen, hbit]; rfl
  rw [TableOk, State.tableOperand, hk.nCode, hlen, hentry]
  exact h

/-- Settles O26: a step keeps the tree, invalidates it, or is a BUILD that makes one. -/
theorem stepKeepsTreeInvariant : Obligations.StepKeepsTreeInvariant := by
  intro s t hs h hv
  cases treeStep_of_step h with
  | kept hn hr => exact treeOk_congr hn hr (hs (hr.treeValid.symm.trans hv))
  | softReset hs hn hv' => rw [hv'] at hv; cases hv
  | hardReset hr hv' => rw [hv'] at hv; cases hv
  | built hc he hv' ht => exact ht

/-- What a command that sets TVALID leaves meets TVALID's conditions, DERIVE's from a valid tree. -/
theorem tableOk_of_validates {i : Instr} {s t : State} (hi : validatesTable i)
    (htree : s.treeValid = true → TreeOk s) (h : exec i s = .next t) (he : t.err = .noError) : TableOk t := by
  have made : (i = .derive ∧ TreeOk s ∨ i = .parse) → TableOk t := fun hi => by
    rcases exec_makesTableOk hi h with ⟨r, hr, rfl⟩ | ⟨l, hok, rfl⟩
    · exact absurd he hr
    · exact hok
  rcases hi with rfl | rfl | rfl
  · rcases exec_next h with ⟨r, hr, rfl⟩ | ⟨hv, -⟩
    · exact absurd he hr
    · exact made (.inl ⟨rfl, htree hv⟩)
  · rcases exec_next h with ⟨r, hr, rfl⟩ | ⟨hok, rfl⟩
    · exact absurd he hr
    · exact (invertOutcome_ok_iff s).mp hok
  · exact made (.inr rfl)

/-- The tree does not depend on the inputs. -/
theorem treeOk_inputs {s : State} (l : List Input) (h : s.treeValid = true → TreeOk s) :
    s.treeValid = true → TreeOk { s with inputs := l } :=
  fun hv => treeOk_congr ⟨rfl, rfl, rfl, rfl⟩ ⟨rfl, rfl, rfl⟩ (h hv)

/-- Settles O27: a step keeps the table, invalidates it, or completes a command that makes or checks one. -/
theorem stepKeepsTableInvariant : Obligations.StepKeepsTableInvariant := by
  intro s t htree hs h hv
  cases tableStep_of_step h with
  | kept hk => exact tableOk_congr hk (hs (hk.tableValid.symm.trans hv))
  | reset hs hv' => rw [hv'] at hv; cases hv
  | overwritten a w hw ha hv' => rw [hv'] at hv; cases hv
  | validated i hi hc hx he =>
    exact tableOk_of_validates (s := { s with inputs := inputsAfterEngine s }) hi (treeOk_inputs _ htree) hx he

/-! ### Progress -/

theorem completeWith_total {α : Type} (s : State) (o : Except Raise α) (c : α → State → State) :
    ∃ t, completeWith s o c = .next t := by
  cases o <;> exact ⟨_, rfl⟩

/-- Every command completes, DERIVE for lack of a wrong tree. -/
theorem exec_total (i : Instr) {s : State} (htree : s.treeValid = true → TreeOk s) : ∃ t, exec i s = .next t := by
  cases i
  case derive =>
    cases hv : s.treeValid with
    | true =>
      obtain ⟨rows, -, h⟩ := exec_derive_of_treeOk hv (htree hv)
      exact ⟨_, h⟩
    | false => exact ⟨_, (notReadyBeforeAnythingElse s).1 hv⟩
  all_goals exact completeWith_total _ _ _

/-- No step stops where NODE memory holds a tree whenever TREEVALID = 1. -/
theorem step_total {s : State} (htree : s.treeValid = true → TreeOk s) : ∃ t, step s = .next t := by
  rcases agent_cases s with ⟨r, rest, hi, ha⟩ | hm | hr
  · exact ⟨_, step_of_accepts hi ha⟩
  · rw [step_of_engineMoves hm]
    rcases engineTurn_cases { s with inputs := inputsAfterEngine s } with ⟨-, he⟩ | ⟨-, i, -, he⟩ | ⟨-, -, he⟩ <;> rw [he]
    · exact ⟨_, rfl⟩
    · exact exec_total i (treeOk_inputs _ htree)
    · exact ⟨_, rfl⟩
  · obtain ⟨rest, h⟩ := step_of_resets hr
    exact ⟨_, h⟩

/-- Settles O28: a step goes on, and each part of the invariant is kept. -/
theorem invariantStatesStepForever : Obligations.InvariantStatesStepForever := by
  rintro s ⟨hstatus, hmem, htree, htable⟩
  obtain ⟨t, h⟩ := step_total htree
  exact ⟨t, h, stepKeepsStatusRegisters s t hstatus h, stepKeepsMemoryCanonical s t hmem h,
    stepKeepsTreeInvariant s t htree h, stepKeepsTableInvariant s t htree htable h⟩

theorem run_succ (M : Host.Core) {s t : M.State} (k : Nat) (h : M.step s = .next t) : M.run (k + 1) s = M.run k t := by
  rw [Host.Core.run, h]

/-- A running command ends in the next step, or a STATUS read is answered before it. -/
theorem step_of_busy {s t : State} (hb : s.busy = true) (h : step s = .next t) :
    (t.busy = false ∧ (Input.hardReset ∉ s.inputs → t.done = true)) ∨
      (t.busy = true ∧ ∃ r, s.inputs = .request r :: t.inputs) := by
  cases stepTo_of_step h with
  | answered r rest x hi ha ht => subst ht; exact .inr ⟨hb, r, hi⟩
  | written a v rest l hi hb' => rw [hb] at hb'; cases hb'
  | reset rest hr hi ht =>
    subst ht
    refine .inl ⟨rfl, fun hn => absurd ?_ hn⟩
    rcases hi with hi | ⟨r, hi⟩ <;> simp [hi]
  | idle hm hb' => rw [hb] at hb'; cases hb'
  | completed i hc hx =>
    obtain ⟨h1, h2, -⟩ := exec_status hx
    exact .inl ⟨h1, fun _ => h2⟩
  | illegal hm hb ht => subst ht; exact .inl ⟨rfl, fun _ => rfl⟩

/-- Settles O29, by induction on the number of inputs: only a STATUS read delays the engine, and it is used up. -/
theorem everyStartedCommandCompletes : Obligations.EveryStartedCommandCompletes := by
  intro s hinv hb
  induction hn : s.inputs.length using Nat.strong_induction_on generalizing s with
  | _ n ih =>
    obtain ⟨t, h, ht⟩ := invariantStatesStepForever s hinv
    rcases step_of_busy hb h with ⟨hbt, hdone⟩ | ⟨hbt, r, hi⟩
    · exact ⟨1, t, by omega, run_succ core 0 h, hbt, hdone⟩
    · have hlen : t.inputs.length + 1 = n := by rw [← hn, hi, List.length_cons]
      obtain ⟨k, u, hk, hrun, hbu, hdone⟩ := ih t.inputs.length (by omega) t ht hbt rfl
      refine ⟨k + 1, u, by omega, (run_succ core k h).trans hrun, hbu, fun hnot => hdone fun hmem => hnot ?_⟩
      rw [hi]
      exact List.mem_cons_of_mem _ hmem

end Sys2Proof.Proofs
end

section
/-! PROOFS. Host reads and writes as the statements of 20_memory.md section 3 and 10_state.md sections 3 and 8 see them:
the address of each word (R43 to R51), what a read of it returns, what a write to it stores (R55). -/

namespace Sys2Proof.Proofs

open Sys2Proof Sys2Proof.Machine Sys2Proof.Safety Sys2Proof.Laws

/-! ### The address of each word -/

theorem mapAddress_freq {o : Nat} (ho : o < 0x00800) : mapAddress (0x01000 + o) = some (freqLocation o) := by
  rw [mapAddress, if_neg (by omega), if_pos (by omega), Nat.add_sub_cancel_left]

theorem mapAddress_text {o : Nat} (ho : o < 0x04000) : mapAddress (0x08000 + o) = some (.text (o / 4)) := by
  rw [mapAddress, if_neg (by omega), if_neg (by omega), if_neg (by omega), if_neg (by omega), if_neg (by omega),
    if_neg (by omega), if_pos (by omega), Nat.add_sub_cancel_left]

theorem mapAddress_bit {o : Nat} (ho : o < 0x02000) : mapAddress (0x0C000 + o) = some (.bitWord (o / 4)) := by
  rw [mapAddress, if_neg (by omega), if_neg (by omega), if_neg (by omega), if_neg (by omega), if_neg (by omega),
    if_neg (by omega), if_neg (by omega), if_pos (by omega), Nat.add_sub_cancel_left]

theorem mapAddress_byte {o : Nat} (ho : o < 0x02000) : mapAddress (0x0E000 + o) = some (.byteWord (o / 4)) := by
  rw [mapAddress, if_neg (by omega), if_neg (by omega), if_neg (by omega), if_neg (by omega), if_neg (by omega),
    if_neg (by omega), if_neg (by omega), if_neg (by omega), if_pos (by omega), Nat.add_sub_cancel_left]

theorem mapAddress_sch (o : Nat) : mapAddress (0x10000 + o) = some (.schWord (o / 4)) := by
  rw [mapAddress, if_neg (by omega), if_neg (by omega), if_neg (by omega), if_neg (by omega), if_neg (by omega),
    if_neg (by omega), if_neg (by omega), if_neg (by omega), if_neg (by omega), Nat.add_sub_cancel_left]

theorem freqLocation_entry (i : Nat) : freqLocation (8 * i) = .freqCount i ∧ freqLocation (8 * i + 4) = .freqSym i := by
  have h0 : 8 * i % 8 = 0 := by omega
  have h4 : (8 * i + 4) % 8 = 4 := by omega
  have hd0 : 8 * i / 8 = i := by omega
  have hd4 : (8 * i + 4) / 8 = i := by omega
  simp [freqLocation, h0, h4, hd0, hd4]

/-- A word of a NODE entry by its offset in the entry (20_memory.md R46). -/
theorem nodeLocation_entry (i : Nat) {c : Nat} (hc : c < 16) :
    nodeLocation (16 * i + c) =
      if c = 0 then .nodeKind i else if c = 4 then .nodeA i else if c = 8 then .nodeB i else .nodeReserved i := by
  have hm : (16 * i + c) % 16 = c := by omega
  have hd : (16 * i + c) / 16 = i := by omega
  rw [nodeLocation, hm, hd]

/-- A word of a CODE entry by its offset in the entry (20_memory.md R47). -/
theorem codeLocation_entry (i : Nat) {c : Nat} (hc : c < 64) :
    codeLocation (64 * i + c) =
      if c = 0 then .codeSym i else if c = 4 then .codeLen i else if c < 40 then .codeBits i ((c - 8) / 4)
      else .codeReserved i := by
  have hm : (64 * i + c) % 64 = c := by omega
  have hd : (64 * i + c) / 64 = i := by omega
  rw [codeLocation, hm, hd]

/-- The address of a location names it (20_memory.md R43 to R51). -/
theorem locate_addr {l : Location} (h : l.exists = true) : locate l.addr = some l := by
  cases l <;> simp only [Location.exists, decide_eq_true_eq, Config.nMax, Config.nodeMax, Config.codeWords,
    Config.textMax, Config.bitsMax, Config.bytesMax, Config.schMax] at h
  case freqCount i =>
    rw [Location.addr, locate_ofNat (by omega) (by omega), mapAddress_freq (by omega), (freqLocation_entry i).1]
  case freqSym i =>
    rw [Location.addr, locate_ofNat (by omega) (by omega), Nat.add_assoc, mapAddress_freq (by omega),
      (freqLocation_entry i).2]
  case nodeKind i =>
    rw [Location.addr, locate_ofNat (by omega) (by omega), mapAddress_node (by omega)]
    exact congrArg some (nodeLocation_entry i (c := 0) (by decide))
  case nodeA i =>
    rw [Location.addr, locate_ofNat (by omega) (by omega), Nat.add_assoc, mapAddress_node (by omega)]
    exact congrArg some (nodeLocation_entry i (c := 4) (by decide))
  case nodeB i =>
    rw [Location.addr, locate_ofNat (by omega) (by omega), Nat.add_assoc, mapAddress_node (by omega)]
    exact congrArg some (nodeLocation_entry i (c := 8) (by decide))
  case nodeReserved i =>
    rw [Location.addr, locate_ofNat (by omega) (by omega), Nat.add_assoc, mapAddress_node (by omega)]
    exact congrArg some (nodeLocation_entry i (c := 12) (by decide))
  case codeSym i =>
    rw [Location.addr, locate_ofNat (by omega) (by omega), mapAddress_code (by omega)]
    exact congrArg some (codeLocation_entry i (c := 0) (by decide))
  case codeLen i =>
    rw [Location.addr, locate_ofNat (by omega) (by omega), Nat.add_assoc, mapAddress_code (by omega)]
    exact congrArg some (codeLocation_entry i (c := 4) (by decide))
  case codeBits i k =>
    have ha : 0x04000 + 64 * i + 8 + 4 * k = 0x04000 + (64 * i + (8 + 4 * k)) := by omega
    have hk : (8 + 4 * k - 8) / 4 = k := by omega
    rw [Location.addr, locate_ofNat (by omega) (by omega), ha, mapAddress_code (by omega),
      codeLocation_entry i (by omega), if_neg (by omega), if_neg (by omega), if_pos (by omega), hk]
  case codeReserved i =>
    rw [Location.addr, locate_ofNat (by omega) (by omega), Nat.add_assoc, mapAddress_code (by omega)]
    exact congrArg some (codeLocation_entry i (c := 40) (by decide))
  case text i =>
    rw [Location.addr, locate_ofNat (by omega) (by omega), mapAddress_text (by omega),
      Nat.mul_div_cancel_left i (by decide)]
  case bitWord k =>
    rw [Location.addr, locate_ofNat (by omega) (by omega), mapAddress_bit (by omega),
      Nat.mul_div_cancel_left k (by decide)]
  case byteWord k =>
    rw [Location.addr, locate_ofNat (by omega) (by omega), mapAddress_byte (by omega),
      Nat.mul_div_cancel_left k (by decide)]
  case schWord k =>
    rw [Location.addr, locate_ofNat (by omega) (by omega), mapAddress_sch,
      Nat.mul_div_cancel_left k (by decide)]
  all_goals rfl

/-- A read of a location's address. -/
theorem readsAs_location (s : State) {a : Nat} (l : Location) (hl : l.exists = true)
    (ha : BitVec.ofNat 17 a = l.addr) : ReadsAs s a (s.readLocation l) := by
  rw [ReadsAs, ha, transact_read_of_locate s (locate_addr hl)]

/-- A write to a location's address. -/
theorem writesTo_location (s : State) {a : Nat} (v : Word) (l : Location) (hl : l.exists = true)
    (hw : l.readOnly = false) (ha : BitVec.ofNat 17 a = l.addr) : WritesTo s a v (s.writeLocation v l) := by
  rw [WritesTo, ha, transact_write_of_locate s v (locate_addr hl) hw]
  rfl

/-! ### Elements in words -/

/-- Byte `m` of a host word of bytes (20_memory.md R44). -/
theorem wordOfBytes_extract (f : Nat → Byte) {m : Nat} (hm : m < 4) : (wordOfBytes f).extractLsb' (8 * m) 8 = f m := by
  refine BitVec.eq_of_getLsbD_eq fun j hj => ?_
  rw [BitVec.getLsbD_extractLsb', wordOfBytes]
  match m, hm with
  | 0, _ =>
    rw [BitVec.getLsbD_append, if_pos (by omega), show 8 * 0 + j = j by omega]
    simp [hj]
  | 1, _ =>
    rw [BitVec.getLsbD_append, if_neg (by omega), BitVec.getLsbD_append, if_pos (by omega)]
    simp [hj]
  | 2, _ =>
    rw [BitVec.getLsbD_append, if_neg (by omega), BitVec.getLsbD_append, if_neg (by omega), BitVec.getLsbD_append,
      if_pos (by omega), show 8 * 2 + j - 8 - 8 = j by omega]
    simp [hj]
  | 3, _ =>
    rw [BitVec.getLsbD_append, if_neg (by omega), BitVec.getLsbD_append, if_neg (by omega), BitVec.getLsbD_append,
      if_neg (by omega), show 8 * 3 + j - 8 - 8 - 8 = j by omega]
    simp [hj]

/-- Slot `32k + j` of a CODE entry is bit `j` of its word `k` (20_memory.md R47). -/
theorem codeBitAt_word (s : State) (i k : Nat) {j : Nat} (hj : j < 32) :
    s.codeBitAt i (32 * k + j) = (s.codeWordAt i k).getLsbD j := by
  rw [State.codeBitAt, show (32 * k + j) / 32 = k by omega, show (32 * k + j) % 32 = j by omega]

/-! ### Reads -/

/-- Settles O10: each address is that of its word, and each word holds its elements. -/
theorem hostReadsSeeElements : Obligations.HostReadsSeeElements := by
  intro s i
  refine ⟨fun hi => ?freq, fun hi => ?node, fun hi => ?code, fun hi => ?text, fun hi => ?bit, fun hi => ?byte,
    fun hi => ?sch⟩
  case freq =>
    have he : decide (i < 256) = true := decide_eq_true hi
    exact ⟨readsAs_location s (.freqCount i) he rfl,
      readsAs_location s (.freqSym i) he (congrArg (BitVec.ofNat 17) (by omega))⟩
  case node =>
    have he : decide (i < 511) = true := decide_eq_true hi
    have hkind : ReadsAs s (0x02000 + 16 * i) ((bitField (s.nodeKindAt i).bit).setWidth 32) :=
      readsAs_location s (.nodeKind i) he rfl
    have hb : ReadsAs s (0x02008 + 16 * i) ((s.nodeBAt i).setWidth 32) :=
      readsAs_location s (.nodeB i) he (congrArg (BitVec.ofNat 17) (by omega))
    refine ⟨fun hk => ?_, fun hk => ?_, readsAs_location s (.nodeA i) he (congrArg (BitVec.ofNat 17) (by omega)), ?_,
      readsAs_location s (.nodeReserved i) he (congrArg (BitVec.ofNat 17) (by omega))⟩
    · rw [hk] at hkind; exact hkind
    · rw [hk] at hkind; exact hkind
    · rwa [word, BitVec.ofNat_toNat]
  case code =>
    have he : decide (i < 256) = true := decide_eq_true hi
    refine ⟨readsAs_location s (.codeSym i) he rfl,
      readsAs_location s (.codeLen i) he (congrArg (BitVec.ofNat 17) (by omega)),
      fun k hk => ⟨s.codeWordAt i k, ?_, fun j hj => (codeBitAt_word s i k hj).symm⟩, fun k hk => ?_⟩
    · exact readsAs_location s (.codeBits i k) (decide_eq_true ⟨hi, hk⟩) (congrArg (BitVec.ofNat 17) (by omega))
    · exact congrArg Prod.snd (transact_read_of_locate s (locate_codeReserved hi hk))
  case text => exact readsAs_location s (.text i) (decide_eq_true hi) rfl
  case bit =>
    refine ⟨wordOfSlots fun j => s.bitAt (32 * i + j),
      readsAs_location s (.bitWord i) (decide_eq_true (show 32 * i < 65536 by omega)) rfl, fun j hj => ?_⟩
    rw [wordOfSlots_getLsbD, decide_eq_true hj, Bool.true_and]
  case byte =>
    exact ⟨wordOfBytes fun m => s.byteAt (4 * i + m),
      readsAs_location s (.byteWord i) (decide_eq_true (show 4 * i < 8192 by omega)) rfl,
      fun m hm => wordOfBytes_extract _ hm⟩
  case sch =>
    exact ⟨wordOfBytes fun m => s.schAt (4 * i + m),
      readsAs_location s (.schWord i) (decide_eq_true (show 4 * i < 65536 by omega)) rfl,
      fun m hm => wordOfBytes_extract _ hm⟩

/-! ### Writes -/

/-- An element after a write of one element. -/
theorem getD_read_set {α : Type} (i : Nat) (v : α) (m : Memory α) (j : Nat) (d : α) :
    (Memory.read (Memory.set i v m) j).getD d = if j = i then v else (Memory.read m j).getD d := by
  rw [read_set]
  split <;> rfl

/-- An element after a write of a host word that holds `n` elements (20_memory.md R44). -/
theorem getD_read_store_word {α : Type} (n k : Nat) (f : Nat → α) (m : Memory α) (j : Nat) (d : α) (hn : 0 < n) :
    (Memory.read (Memory.store (n * k) ((List.range n).map f) m) j).getD d =
      if j / n = k then f (j % n) else (Memory.read m j).getD d := by
  have hj := Nat.div_add_mod j n
  have hlt := Nat.mod_lt j hn
  rw [read_store, List.length_map, List.length_range]
  by_cases h : j / n = k
  · subst h
    have hsub : j - n * (j / n) = j % n := by omega
    rw [if_pos ⟨by omega, by omega⟩, if_pos rfl, hsub]
    simp [hlt]
  · rw [if_neg h, if_neg]
    rintro ⟨h1, h2⟩
    refine h (Nat.div_eq_of_lt_le (by rwa [Nat.mul_comm]) ?_)
    rw [Nat.succ_mul, Nat.mul_comm]
    exact h2

theorem eq_at_and_elsewhere {α : Type} {f g : Nat → α} {i : Nat} {v : α} (h : ∀ j, f j = if j = i then v else g j) :
    f i = v ∧ ∀ j, j ≠ i → f j = g j :=
  ⟨by rw [h, if_pos rfl], fun j hj => by rw [h, if_neg hj]⟩

/-- The element words of a group: the elements of the word, and those of every other word. -/
theorem eq_word_and_elsewhere {α : Type} {n k : Nat} {f g w : Nat → α}
    (h : ∀ j, f j = if j / n = k then w (j % n) else g j) :
    (∀ m, m < n → f (n * k + m) = w m) ∧ ∀ j, j / n ≠ k → f j = g j := by
  refine ⟨fun m hm => ?_, fun j hj => by rw [h, if_neg hj]⟩
  have hd : (n * k + m) / n = k := by
    rw [Nat.mul_add_div (by omega), Nat.div_eq_of_lt hm, Nat.add_zero]
  rw [h, if_pos hd, Nat.mul_add_mod, Nat.mod_eq_of_lt hm]

/-- Settles O11: each address is that of its word, and each write sets that word's elements. -/
theorem hostWritesStoreElements : Obligations.HostWritesStoreElements := by
  intro s i v
  refine ⟨fun hi => ?freqCount, fun hi => ?freqSym, fun hi => ?codeSym, fun hi => ?codeLen, fun k hi hk => ?codeBits,
    fun hi => ?text, fun hi => ?bit, fun hi => ?byte, fun hi => ?sch⟩
  case freqCount =>
    exact ⟨_, writesTo_location s v (.freqCount i) (decide_eq_true hi) rfl rfl, rfl,
      eq_at_and_elsewhere fun j => getD_read_set _ _ _ _ _⟩
  case freqSym =>
    exact ⟨_, writesTo_location s v (.freqSym i) (decide_eq_true hi) rfl (congrArg (BitVec.ofNat 17) (by omega)), rfl,
      eq_at_and_elsewhere fun j => getD_read_set _ _ _ _ _⟩
  case codeSym =>
    exact ⟨_, writesTo_location s v (.codeSym i) (decide_eq_true hi) rfl rfl, rfl,
      eq_at_and_elsewhere fun j => getD_read_set _ _ _ _ _⟩
  case codeLen =>
    exact ⟨_, writesTo_location s v (.codeLen i) (decide_eq_true hi) rfl (congrArg (BitVec.ofNat 17) (by omega)), rfl,
      eq_at_and_elsewhere fun j => getD_read_set _ _ _ _ _⟩
  case codeBits =>
    have hword : ∀ i' k', (s.writeLocation v (.codeBits i k)).codeWordAt i' k' =
        if 8 * i' + k' = 8 * i + k then v else s.codeWordAt i' k' := fun i' k' => getD_read_set _ _ _ _ _
    refine ⟨_, writesTo_location s v (.codeBits i k) (decide_eq_true ⟨hi, hk⟩) rfl
      (congrArg (BitVec.ofNat 17) (by omega)), rfl,
      fun j hj => ?_, fun i' j hi' hj hne => ?_⟩
    · rw [codeBitAt_word _ _ _ hj, hword, if_pos rfl]
    · rw [State.codeBitAt, hword, if_neg (by omega)]
      rfl
  case text =>
    exact ⟨_, writesTo_location s v (.text i) (decide_eq_true hi) rfl rfl, rfl,
      eq_at_and_elsewhere fun j => getD_read_set _ _ _ _ _⟩
  case bit =>
    exact ⟨_, writesTo_location s v (.bitWord i) (decide_eq_true (show 32 * i < 65536 by omega)) rfl rfl, rfl,
      eq_word_and_elsewhere fun j => getD_read_store_word 32 i _ _ _ _ (by decide)⟩
  case byte =>
    exact ⟨_, writesTo_location s v (.byteWord i) (decide_eq_true (show 4 * i < 8192 by omega)) rfl rfl, rfl,
      eq_word_and_elsewhere fun j => getD_read_store_word 4 i _ _ _ _ (by decide)⟩
  case sch =>
    exact ⟨_, writesTo_location s v (.schWord i) (decide_eq_true (show 4 * i < 65536 by omega)) rfl rfl, rfl,
      eq_word_and_elsewhere fun j => getD_read_store_word 4 i _ _ _ _ (by decide)⟩

/-! ### Registers -/

/-- Settles O12: each register is the location at its address. -/
theorem lengthRegistersStoreAnyValue : Obligations.LengthRegistersStoreAnyValue := fun s v =>
  ⟨writesTo_location s v .textLen rfl rfl rfl, writesTo_location s v .nFreq rfl rfl rfl,
    writesTo_location s v .nCode rfl rfl rfl, writesTo_location s v .bitLen rfl rfl rfl,
    writesTo_location s v .byteLen rfl rfl rfl, writesTo_location s v .schLen rfl rfl rfl,
    readsAs_location s .textLen rfl rfl, readsAs_location s .nFreq rfl rfl, readsAs_location s .nCode rfl rfl,
    readsAs_location s .bitLen rfl rfl, readsAs_location s .byteLen rfl rfl, readsAs_location s .schLen rfl rfl,
    readsAs_location s .id rfl rfl, readsAs_location s .cmd rfl rfl, readsAs_location s .errInfo rfl rfl,
    readsAs_location s .nNode rfl rfl, readsAs_location s .root rfl rfl⟩

/-- The flags and ERR in the STATUS word (10_state.md R21). -/
theorem statusWord_fields (s : State) :
    s.statusWord.getLsbD 0 = s.busy ∧ s.statusWord.extractLsb' 4 4 = s.err.code ∧
      s.statusWord.getLsbD 8 = s.treeValid ∧ s.statusWord.getLsbD 9 = s.tableValid := by
  refine ⟨?_, BitVec.eq_of_getLsbD_eq fun j hj => ?_, ?_, ?_⟩
  · simp only [State.statusWord, BitVec.getLsbD_append]
    simp [bitField]
  · rw [BitVec.getLsbD_extractLsb', State.statusWord]
    rw [BitVec.getLsbD_append, if_neg (by omega), BitVec.getLsbD_append, if_neg (by omega), BitVec.getLsbD_append,
      if_neg (by omega), BitVec.getLsbD_append, if_pos (by omega), show 4 + j - 1 - 1 - 2 = j by omega]
    simp [hj]
  · simp only [State.statusWord, BitVec.getLsbD_append]
    simp [bitField]
  · simp only [State.statusWord, BitVec.getLsbD_append]
    simp [bitField]

/-- A write to STATUS clears DONE if bit 1 is set, and does nothing else (10_state.md R21). -/
theorem writeStatus_eq (s : State) (w : Word) : s.writeStatus w = { s with done := s.done && !w.getLsbD 1 } := by
  rcases writeStatus_cases s w with ⟨h1, h⟩ | ⟨h1, h⟩ <;> rw [h, h1] <;> simp

/-- Settles O14: the STATUS word field by field, and the write that acts on DONE alone. -/
theorem statusReadAndWrite : Obligations.StatusReadAndWrite := by
  refine ⟨fun s => ?_, fun s w => ?_, rfl, rfl, rfl, rfl, rfl, rfl, rfl, rfl, rfl, rfl⟩
  · obtain ⟨hbusy, herr, htree, htable⟩ := statusWord_fields s
    exact ⟨s.statusWord, readsAs_location s .status rfl rfl, hbusy, statusWord_bit1 s,
      statusWord_reserved s (.inl rfl), statusWord_reserved s (.inr (.inl rfl)), herr, htree, htable,
      fun j hj => statusWord_reserved s (.inr (.inr hj))⟩
  · rw [← writeStatus_eq]
    exact writesTo_location s w .status rfl rfl rfl

/-- Settles O18: every register is 0 but ID, and no element is written. -/
theorem resetStateValues : Obligations.ResetStateValues := by
  refine ⟨readsAs_location _ .id rfl rfl, ?_, rfl, fun i => ⟨rfl, rfl, rfl, rfl, rfl, rfl, rfl, rfl, rfl, rfl, rfl,
    fun k hk => ⟨rfl, fun j hj => codeBitAt_word _ i k hj⟩⟩⟩
  simp only [List.forall_mem_cons]
  exact ⟨readsAs_location _ .ctrl rfl rfl, readsAs_location _ .cmd rfl rfl, readsAs_location _ .status rfl rfl,
    readsAs_location _ .errInfo rfl rfl, readsAs_location _ .textLen rfl rfl, readsAs_location _ .nFreq rfl rfl,
    readsAs_location _ .nNode rfl rfl, readsAs_location _ .root rfl rfl, readsAs_location _ .nCode rfl rfl,
    readsAs_location _ .bitLen rfl rfl, readsAs_location _ .byteLen rfl rfl, readsAs_location _ .schLen rfl rfl,
    List.forall_mem_nil _⟩

end Sys2Proof.Proofs
end

section
/-! PROOFS. FREQ as the statements of 40_freq.md see it: the local list of R73 holds, at every point of the text, the
distinct symbols so far with their numbers of occurrences. -/

namespace Sys2Proof.Proofs

open Sys2Proof Sys2Proof.Machine Sys2Proof.Safety Sys2Proof.Laws

/-! ### Distinct symbols -/

theorem eraseDups_concat (p : List Word) (x : Word) :
    (p ++ [x]).eraseDups = if x ∈ p then p.eraseDups else p.eraseDups ++ [x] := by
  rw [List.eraseDups_append]
  by_cases h : x ∈ p <;> simp [List.removeAll, List.eraseDups_cons, h]

theorem nodup_eraseDups (p : List Word) : p.eraseDups.Nodup := by
  induction p using List.reverseRecOn with
  | nil => simp
  | append_singleton p x ih =>
    rw [eraseDups_concat]
    split
    · exact ih
    · next h =>
      refine List.nodup_append.mpr ⟨ih, List.nodup_singleton x, ?_⟩
      rintro a ha b hb rfl
      rw [List.mem_singleton.mp hb, List.mem_eraseDups] at ha
      exact h ha

theorem eraseDups_length_le_append (p q : List Word) : p.eraseDups.length ≤ (p ++ q).eraseDups.length := by
  rw [List.eraseDups_append, List.length_append]
  exact Nat.le_add_right _ _

/-! ### The local list -/

/-- The distinct symbols of a text in the order of their first occurrences, each with how often it occurs. -/
def countsOf (p : List Word) : List (Nat × Word) := p.eraseDups.map fun x => (p.count x, x)

theorem countsOf_length (p : List Word) : (countsOf p).length = p.eraseDups.length := List.length_map _

theorem countsOf_symbols (p : List Word) : (countsOf p).map Prod.snd = p.eraseDups := by
  simp [countsOf, Function.comp_def]

/-- Bumping a symbol of a list that has each symbol once (40_freq.md R73). -/
theorem bumpCount_of_mem {x : Word} {l : List Word} (g : Word → Nat) (hl : l.Nodup) (hx : x ∈ l) :
    bumpCount x (l.map fun y => (g y, y)) = some (l.map fun y => (g y + [x].count y, y)) := by
  induction l with
  | nil => cases hx
  | cons y l ih =>
    rw [List.nodup_cons] at hl
    rw [List.map_cons, bumpCount]
    by_cases hy : y = x
    · subst hy
      have hrest : ∀ z ∈ l, (g z, z) = (g z + [y].count z, z) := by
        intro z hz
        have : y ≠ z := fun h => hl.1 (h ▸ hz)
        simp [this]
      simp [List.map_congr_left hrest]
    · have hx : x ∈ l := (List.mem_cons.mp hx).resolve_left fun h => hy h.symm
      simp [hy, ih hl.2 hx, Ne.symm hy]

/-- One symbol of the text (40_freq.md R73): it is counted in its entry, or it has none and gets one. -/
theorem bumpCount_countsOf (p : List Word) (x : Word) :
    (x ∈ p ∧ bumpCount x (countsOf p) = some (countsOf (p ++ [x]))) ∨
      (x ∉ p ∧ bumpCount x (countsOf p) = none ∧ countsOf (p ++ [x]) = countsOf p ++ [(1, x)]) := by
  by_cases hx : x ∈ p
  · refine .inl ⟨hx, ?_⟩
    rw [countsOf, bumpCount_of_mem _ (nodup_eraseDups p) (List.mem_eraseDups.mpr hx), countsOf, eraseDups_concat,
      if_pos hx]
    simp only [List.count_append]
  · refine .inr ⟨hx, bumpCount_none.mpr (by rwa [countsOf_symbols, List.mem_eraseDups]), ?_⟩
    have hrest : ∀ y ∈ p.eraseDups, ((p ++ [x]).count y, y) = (p.count y, y) := by
      intro y hy
      have : x ≠ y := fun h => hx (h ▸ List.mem_eraseDups.mp hy)
      simp [this]
    rw [countsOf, eraseDups_concat, if_neg hx, List.map_append, List.map_congr_left hrest, ← countsOf]
    simp [List.count_eq_zero_of_not_mem hx]

/-- The loop reaches what follows a text of at most 256 distinct symbols with the counts of the text. -/
theorem countFrom_countsOf (i : Nat) (done text rest : List Word) (h : (done ++ text).eraseDups.length ≤ 256) :
    countFrom i (text ++ rest) (countsOf done) = countFrom (i + text.length) rest (countsOf (done ++ text)) := by
  induction text generalizing i done with
  | nil => simp
  | cons x text ih =>
    rw [← List.singleton_append, ← List.append_assoc] at h
    have hnext := ih (i + 1) (done ++ [x]) h
    have hlen : (countsOf (done ++ [x])).length ≤ 256 := by
      rw [countsOf_length]
      exact (eraseDups_length_le_append _ _).trans h
    have hgoal : i + 1 + text.length = i + (x :: text).length := by rw [List.length_cons]; omega
    rw [List.append_assoc, List.singleton_append, hgoal] at hnext
    rw [← hnext, List.cons_append, countFrom]
    rcases bumpCount_countsOf done x with ⟨-, hb⟩ | ⟨-, hb, hc⟩
    · rw [hb]
    · rw [hc, List.length_append, List.length_singleton] at hlen
      have hne : (countsOf done).length ≠ 256 := by omega
      rw [hb, hc]
      exact if_neg hne

theorem exec_freq (s : State) : exec .freq s = completeWith s (freqOutcome s) State.commitFreq := rfl

/-- FREQ of a text it accepts commits the text's counts (40_freq.md R73). -/
theorem exec_freq_of_le {s : State} (hlen : s.textLen.toNat ≤ 4096) (h : s.textOperand.eraseDups.length ≤ 256) :
    exec .freq s = .next (s.commitFreq (countsOf s.textOperand)).finish := by
  have hcount := countFrom_countsOf 0 [] s.textOperand [] h
  rw [List.append_nil, List.nil_append] at hcount
  have hfreq : freqOutcome s = .ok (countsOf s.textOperand) := by
    rw [freqOutcome, checkLength_ok hlen]
    exact hcount
  rw [exec_freq, hfreq, completeWith_ok]

/-- The frequency list after FREQ (40_freq.md R73). -/
theorem commitFreq_countsOf (s : State) {text : List Word} (h : text.eraseDups.length ≤ 256) :
    (s.commitFreq (countsOf text)).nFreq.toNat = text.eraseDups.length ∧
      (s.commitFreq (countsOf text)).freqOperand = text.eraseDups.map fun x => (word (text.count x), x) := by
  have hlen := countsOf_length text
  refine ⟨?_, ?_⟩
  · rw [commitFreq_nFreq, word_toNat (by omega), hlen]
  · rw [commitFreq_freqOperand s (by omega), countsOf, List.map_map]
    rfl

/-- Settles O30: the loop ends with the counts of the whole text. -/
theorem freqCountsTheText : Obligations.FreqCountsTheText := by
  intro s hlen h
  obtain ⟨hn, hop⟩ := commitFreq_countsOf s h
  exact ⟨_, exec_freq_of_le hlen h, rfl, hn, hop⟩

/-- Settles O31: the loop reaches the 257th distinct symbol with a list of 256 entries, none of them its own. -/
theorem freqCapacityErrors : Obligations.FreqCapacityErrors := by
  refine ⟨fun s h => failsWith_of_error (exec_freq s) ?_, fun s i hlen hi hfull hnew =>
    failsWith_of_error (exec_freq s) ?_⟩
  · rw [freqOutcome, checkLength_error h]
  · have hsplit := textOperand_split hi
    have hreach := countFrom_countsOf 0 [] (s.textOperand.take i) (s.textAt i :: s.textOperand.drop (i + 1)) hfull.le
    have htake := textOperand_take_length hi
    rw [List.nil_append, Nat.zero_add, htake, countFrom,
      bumpCount_none.mpr (by rwa [countsOf_symbols, List.mem_eraseDups])] at hreach
    rw [freqOutcome, checkLength_ok hlen, hsplit]
    exact hreach.trans (if_pos (by rw [countsOf_length, hfull]))

end Sys2Proof.Proofs
end

section
/-! PROOFS. ENCODE and DECODE as the statements of 43_transcode.md see them: the two lookups (42_code_table.md R103,
R104), the loop of R109 code by code, the shortest-first scan (R111, R112), DECODE after ENCODE (R122). -/

namespace Sys2Proof.Proofs

open Sys2Proof Sys2Proof.Machine Sys2Proof.Safety Sys2Proof.Laws

/-! ### Lookups -/

/-- The forward lookup finds the first row with the symbol (42_code_table.md R103). -/
theorem lookupSym_some_iff {t : List (Word × List Bool)} {sym : Word} {b : List Bool} :
    lookupSym t sym = some b ↔ CodeOf t sym b := by
  rw [lookupSym, Option.map_eq_some_iff]
  constructor
  · rintro ⟨⟨x, y⟩, hfind, rfl⟩
    obtain ⟨hx, k, hk, he, hbefore⟩ := List.find?_eq_some_iff_getElem.mp hfind
    obtain rfl : x = sym := by simpa using hx
    refine ⟨k, by rw [List.getElem?_eq_getElem hk, he], fun j e hj hje => ?_⟩
    obtain ⟨hjl, rfl⟩ := List.getElem?_eq_some_iff.mp hje
    simpa using hbefore j hj
  · rintro ⟨k, hk, hbefore⟩
    obtain ⟨hkl, he⟩ := List.getElem?_eq_some_iff.mp hk
    refine ⟨(sym, b), List.find?_eq_some_iff_getElem.mpr ⟨by simp, k, hkl, he, fun j hj => ?_⟩, rfl⟩
    simpa using hbefore j _ hj (List.getElem?_eq_getElem (hj.trans hkl))

theorem lookupSym_none_iff {t : List (Word × List Bool)} {sym : Word} :
    lookupSym t sym = none ↔ ∀ e ∈ t, e.1 ≠ sym := by
  simp [lookupSym]

/-- The inverse lookup finds the first row with the bit-string (42_code_table.md R104). -/
theorem lookupCode_of_symbolOf {t : List (Word × List Bool)} {sym : Word} {b : List Bool} (h : SymbolOf t b sym) :
    lookupCode t b = some sym := by
  obtain ⟨k, hk, hbefore⟩ := h
  obtain ⟨hkl, he⟩ := List.getElem?_eq_some_iff.mp hk
  rw [lookupCode, Option.map_eq_some_iff]
  refine ⟨(sym, b), List.find?_eq_some_iff_getElem.mpr ⟨by simp, k, hkl, he, fun j hj => ?_⟩, rfl⟩
  simpa using hbefore j _ hj (List.getElem?_eq_getElem (hj.trans hkl))

theorem lookupCode_none_iff {t : List (Word × List Bool)} {b : List Bool} :
    lookupCode t b = none ↔ ∀ e ∈ t, e.2 ≠ b := by
  simp [lookupCode]

/-! ### ENCODE -/

/-- The loop of R109 goes on behind a text whose codes are found and fit. -/
theorem encodeFrom_append {t : List (Word × List Bool)} (code : Word → List Bool) {i n : Nat} {text : List Word}
    (rest : List Word) (hcode : ∀ sym ∈ text, CodeOf t sym (code sym))
    (hlen : n + (text.flatMap code).length ≤ 65536) :
    encodeFrom t i n (text ++ rest) =
      (encodeFrom t (i + text.length) (n + (text.flatMap code).length) rest).map (text.flatMap code ++ ·) := by
  induction text generalizing i n with
  | nil =>
    simp only [List.nil_append, List.flatMap_nil, List.length_nil, Nat.add_zero]
    cases encodeFrom t i n rest <;> rfl
  | cons sym text ih =>
    rw [List.forall_mem_cons] at hcode
    rw [List.flatMap_cons, List.length_append] at hlen
    have hfits : ¬ Config.bitsMax < n + (code sym).length := Nat.not_lt.mpr (by show _ ≤ 65536; omega)
    have hi : i + 1 + text.length = i + (sym :: text).length := by rw [List.length_cons]; omega
    rw [List.cons_append, encodeFrom, lookupSym_some_iff.mpr hcode.1, List.flatMap_cons, List.length_append]
    simp only [if_neg hfits]
    rw [ih hcode.2 (by omega), hi, Nat.add_assoc]
    cases encodeFrom t _ _ rest <;> simp [Except.map]

theorem exec_encode (s : State) : exec .encode s = completeWith s (encodeOutcome s) State.commitBits := rfl

theorem needTable_of_tableValid {s : State} (hv : s.tableValid = true) : needTable s = .ok () := by
  simp [needTable, hv]

theorem encodeOutcome_of_valid {s : State} (hv : s.tableValid = true) (hlen : s.textLen.toNat ≤ 4096) :
    encodeOutcome s = encodeFrom s.tableOperand 0 0 s.textOperand := by
  rw [encodeOutcome, needTable_of_tableValid hv, checkLength_ok hlen]

/-- Settles O40: the loop appends the code of every symbol. -/
theorem encodeConcatenatesCodes : Obligations.EncodeConcatenatesCodes := by
  intro s code hv hlen hcode hfits
  have hloop := encodeFrom_append code (i := 0) (n := 0) [] hcode (by omega)
  rw [List.append_nil, encodeFrom] at hloop
  have hout : encodeOutcome s = .ok (s.textOperand.flatMap code) := by
    rw [encodeOutcome_of_valid hv hlen, hloop]
    simp [Except.map]
  refine ⟨(s.commitBits (s.textOperand.flatMap code)).finish, by rw [exec_encode, hout, completeWith_ok], rfl, ?_, ?_⟩
  · rw [finish_bitLen, commitBits_bitLen, word_toNat (by omega)]
  · rw [finish_bitOperand, commitBits_bitOperand s (by omega)]

/-- Settles O41: the loop reaches symbol `i` with the codes of the symbols before it. -/
theorem encodeReportsFirstError : Obligations.EncodeReportsFirstError := by
  refine ⟨fun s hv h => failsWith_of_error (exec_encode s) ?long, fun s code i hv hlen hi hcode hfits => ?symbol⟩
  case long => rw [encodeOutcome, needTable_of_tableValid hv, checkLength_error h]
  case symbol =>
    have hsplit := textOperand_split hi
    have hloop := encodeFrom_append code (i := 0) (n := 0) (s.textAt i :: s.textOperand.drop (i + 1)) hcode (by omega)
    have htake := textOperand_take_length hi
    rw [← hsplit, Nat.zero_add, Nat.zero_add, htake, encodeFrom] at hloop
    refine ⟨fun hunknown => failsWith_of_error (exec_encode s) ?_, fun b hb hlong =>
      failsWith_of_error (exec_encode s) ?_⟩ <;> rw [encodeOutcome_of_valid hv hlen, hloop]
    · rw [lookupSym_none_iff.mpr hunknown]
      rfl
    · rw [lookupSym_some_iff.mpr hb]
      simp only [if_pos (show Config.bitsMax < _ from hlong)]
      rfl

/-! ### DECODE -/

theorem findSome?_range {α : Type} {f : Nat → Option α} {m k : Nat} {a : α} (hk : k < m) (ha : f k = some a)
    (hbefore : ∀ j, j < k → f j = none) : (List.range m).findSome? f = some a := by
  obtain ⟨d, rfl⟩ : ∃ d, m = k + (d + 1) := ⟨m - k - 1, by omega⟩
  have hnone : (List.range k).findSome? f = none :=
    List.findSome?_eq_none_iff.mpr fun j hj => hbefore j (List.mem_range.mp hj)
  rw [List.range_add, List.findSome?_append, hnone, List.range_succ_eq_map]
  simp [ha]

/-- The lengths are tried from the shortest (43_transcode.md R111). -/
theorem firstMatch_of_shortestMatch {t : List (Word × List Bool)} {rest b : List Bool} {sym : Word}
    (h : ShortestMatch t rest b sym) : firstMatch t rest = some (b.length, sym) := by
  obtain ⟨hpre, hne, hle, hsym, hshort⟩ := h
  have hle : b.length ≤ 255 := hle
  have hpos : 0 < b.length := List.length_pos_of_ne_nil hne
  have hlen := hpre.length_le
  have hk : b.length - 1 + 1 = b.length := by omega
  refine findSome?_range (k := b.length - 1) (by show _ < min _ 255; omega) ?_ fun j hj => ?_
  · rw [hk, ← List.prefix_iff_eq_take.mp hpre, lookupCode_of_symbolOf hsym, Option.map_some]
  · have htake : (rest.take (j + 1)).length = j + 1 := by rw [List.length_take]; omega
    rw [lookupCode_none_iff.mpr (hshort _ (List.take_prefix _ _) ?_ (by omega)), Option.map_none]
    exact List.ne_nil_of_length_pos (by omega)

theorem firstMatch_of_noMatch {t : List (Word × List Bool)} {rest : List Bool} (h : NoMatch t rest) :
    firstMatch t rest = none := by
  refine List.findSome?_eq_none_iff.mpr fun j hj => ?_
  have hj : j < min rest.length 255 := List.mem_range.mp hj
  have htake : (rest.take (j + 1)).length = j + 1 := by rw [List.length_take]; omega
  rw [lookupCode_none_iff.mpr (h _ (List.take_prefix _ _) ?_ (by show _ ≤ 255; omega)), Option.map_none]
  exact List.ne_nil_of_length_pos (by omega)

/-- One pass of the loop of R112 that finds a match. -/
theorem decodeFrom_of_shortestMatch {t : List (Word × List Bool)} {rest b : List Bool} {sym : Word} (fuel pos n : Nat)
    (h : ShortestMatch t rest b sym) :
    decodeFrom t (fuel + 1) pos n rest =
      if n = 4096 then .error ⟨.capacity, word pos⟩
      else (decodeFrom t fuel (pos + b.length) (n + 1) (rest.drop b.length)).map (sym :: ·) := by
  have hm := firstMatch_of_shortestMatch h
  obtain ⟨hpre, hne, -⟩ := h
  cases rest with
  | nil => exact absurd (List.prefix_nil.mp hpre) hne
  | cons x rest =>
    rw [decodeFrom, hm]
    show (if n = 4096 then _ else _) = _
    split
    · rfl
    · cases decodeFrom t fuel (pos + b.length) (n + 1) ((x :: rest).drop b.length) <;> rfl

/-- One pass of the loop of R112 that finds none. -/
theorem decodeFrom_of_noMatch {t : List (Word × List Bool)} {rest : List Bool} (fuel pos n : Nat) (hne : rest ≠ [])
    (h : NoMatch t rest) : decodeFrom t (fuel + 1) pos n rest = .error ⟨.undecodableSequence, word pos⟩ := by
  cases rest with
  | nil => exact absurd rfl hne
  | cons x rest => rw [decodeFrom, firstMatch_of_noMatch h]

theorem decodeFrom_nil (t : List (Word × List Bool)) (fuel pos n : Nat) : decodeFrom t fuel pos n [] = .ok [] := by
  cases fuel <;> rfl

/-- The loop of R112 goes on behind bits the scan takes, with fuel for the bits left. -/
theorem decodeFrom_of_scans {t : List (Word × List Bool)} {rest used : List Bool} {out : List Word} {fuel pos n : Nat}
    (h : Scans t rest used out) (hfuel : (used ++ rest).length ≤ fuel) (hn : n + out.length ≤ 4096) :
    ∃ fuel', rest.length ≤ fuel' ∧ decodeFrom t fuel pos n (used ++ rest) =
      (decodeFrom t fuel' (pos + used.length) (n + out.length) rest).map (out ++ ·) := by
  induction h generalizing fuel pos n with
  | done =>
    refine ⟨fuel, hfuel, ?_⟩
    simp only [List.nil_append, List.length_nil, Nat.add_zero]
    cases decodeFrom t fuel pos n rest <;> rfl
  | emit b used sym out hshort _ ih =>
    have hpos : 0 < b.length := List.length_pos_of_ne_nil hshort.2.1
    rw [List.append_assoc, List.length_append] at hfuel
    rw [List.length_cons] at hn
    obtain ⟨fuel, rfl⟩ : ∃ f, fuel = f + 1 := ⟨fuel - 1, by omega⟩
    obtain ⟨fuel', hle, hloop⟩ := ih (fuel := fuel) (pos := pos + b.length) (n := n + 1) (by omega) (by omega)
    have hn' : n + 1 + out.length = n + (sym :: out).length := by rw [List.length_cons]; omega
    rw [List.append_assoc] at hshort
    refine ⟨fuel', hle, ?_⟩
    rw [List.append_assoc, decodeFrom_of_shortestMatch fuel pos n hshort, if_neg (by omega), List.drop_left, hloop, hn',
      Nat.add_assoc, ← List.length_append]
    cases decodeFrom t fuel' _ _ rest <;> rfl

theorem exec_decode (s : State) : exec .decode s = completeWith s (decodeOutcome s) State.commitText := rfl

theorem decodeOutcome_of_valid {s : State} (hv : s.tableValid = true) (hlen : s.bitLen.toNat ≤ 65536) :
    decodeOutcome s = decodeFrom s.tableOperand s.bitLen.toNat 0 0 s.bitOperand := by
  rw [decodeOutcome, needTable_of_tableValid hv, checkLength_ok hlen]

theorem bitOperand_length (s : State) : s.bitOperand.length = s.bitLen.toNat := firstOf_length _ _

/-- Settles O42: the loop emits what the scan emits. -/
theorem decodeTakesShortestMatches : Obligations.DecodeTakesShortestMatches := by
  intro s out hv hlen hscan hout
  obtain ⟨fuel, -, hloop⟩ := decodeFrom_of_scans (fuel := s.bitLen.toNat) (pos := 0) (n := 0) hscan
    (by rw [List.append_nil, bitOperand_length]) (by omega)
  rw [List.append_nil, decodeFrom_nil] at hloop
  have hdecode : decodeOutcome s = .ok out := by
    rw [decodeOutcome_of_valid hv hlen, hloop]
    simp [Except.map]
  refine ⟨(s.commitText out).finish, by rw [exec_decode, hdecode, completeWith_ok], rfl, ?_, ?_⟩
  · rw [finish_textLen, commitText_textLen, word_toNat (by omega)]
  · rw [finish_textOperand, commitText_textOperand s (by omega)]

/-- Settles O43: the loop reaches the bits the scan leaves, and one more pass decides. -/
theorem decodeReportsPosition : Obligations.DecodeReportsPosition := by
  refine ⟨fun s hv h => failsWith_of_error (exec_decode s) ?long,
    fun s used rest out hv hlen hsplit hscan hne hout => ?position⟩
  case long => rw [decodeOutcome, needTable_of_tableValid hv, checkLength_error h]
  case position =>
    obtain ⟨fuel, hfuel, hloop⟩ := decodeFrom_of_scans (fuel := s.bitLen.toNat) (pos := 0) (n := 0) hscan
      (by rw [← hsplit, bitOperand_length]) (by omega)
    have hpos := List.length_pos_of_ne_nil hne
    obtain ⟨fuel, rfl⟩ : ∃ f, fuel = f + 1 := ⟨fuel - 1, by omega⟩
    rw [← hsplit, Nat.zero_add, Nat.zero_add] at hloop
    refine ⟨fun hno => failsWith_of_error (exec_decode s) ?_, fun b sym hfull hshort =>
      failsWith_of_error (exec_decode s) ?_⟩ <;> rw [decodeOutcome_of_valid hv hlen, hloop]
    · rw [decodeFrom_of_noMatch fuel _ _ hne hno]
      rfl
    · rw [decodeFrom_of_shortestMatch fuel _ _ hshort, if_pos hfull]
      rfl

/-! ### DECODE after ENCODE -/

/-- In a prefix-free table the code of a symbol is the shortest match wherever it stands first (42_code_table.md R98;
43_transcode.md R111). -/
theorem shortestMatch_of_codeOf {t : List (Word × List Bool)} {sym : Word} {b : List Bool} (rest : List Bool)
    (hfree : PrefixFree t) (hbits : ∀ e ∈ t, 1 ≤ e.2.length ∧ e.2.length ≤ 255) (h : CodeOf t sym b) :
    ShortestMatch t (b ++ rest) b sym := by
  obtain ⟨k, hk, -⟩ := h
  obtain ⟨hpos, hle⟩ := hbits _ (List.mem_of_getElem? hk)
  refine ⟨List.prefix_append b rest, List.ne_nil_of_length_pos hpos, hle, ⟨k, hk, fun j e hj hje heq => ?_⟩,
    fun c hc _ hlt e he heq => ?_⟩
  · exact hfree j k e _ hje hk (by omega) (heq ▸ List.prefix_refl _)
  · obtain ⟨j, hje⟩ := List.mem_iff_getElem?.mp he
    have hcb : c <+: b := List.prefix_of_prefix_length_le hc (List.prefix_append b rest) hlt.le
    refine hfree j k e _ hje hk ?_ (heq ▸ hcb)
    rintro rfl
    cases hje.symm.trans hk
    subst heq
    exact absurd hlt (Nat.lt_irrefl _)

/-- The scan takes what ENCODE made back to the text. -/
theorem scans_of_encodeFrom {t : List (Word × List Bool)} {i n : Nat} {text : List Word} {out : List Bool}
    (hfree : PrefixFree t) (hbits : ∀ e ∈ t, 1 ≤ e.2.length ∧ e.2.length ≤ 255)
    (h : encodeFrom t i n text = .ok out) : Scans t [] out text := by
  induction text generalizing i n out with
  | nil => cases h; exact .done
  | cons sym text ih =>
    rw [encodeFrom] at h
    split at h
    · cases h
    · next b hb =>
      split at h
      · cases h
      · split at h
        · cases h
        · next out' h' =>
          cases h
          refine .emit b out' sym text ?_ (ih h')
          rw [List.append_assoc]
          exact shortestMatch_of_codeOf _ hfree hbits (lookupSym_some_iff.mp hb)

/-- The rows of a table that meets TVALID's conditions have 1 to 255 bits (10_state.md R27). -/
theorem tableOk_bits {s : State} (h : TableOk s) : ∀ e ∈ s.tableOperand, 1 ≤ e.2.length ∧ e.2.length ≤ 255 := by
  intro e he
  obtain ⟨i, hi, rfl⟩ := mem_firstOf.mp he
  have hlen : (s.codeEntry i).2.length = (s.codeLenAt i).toNat := firstOf_length _ _
  rw [hlen]
  exact h.2.1 i hi

/-- Settles O57: DECODE scans the bits ENCODE committed, and the scan takes them back to the text. -/
theorem decodeAfterEncodeIsIdentity : Obligations.DecodeAfterEncodeIsIdentity := by
  intro s t hv hok hfree h he
  rcases exec_next h with ⟨r, hr, rfl⟩ | ⟨b, hb, rfl⟩
  · exact absurd he hr
  obtain ⟨-, hlen, hfits, hloop⟩ := encodeOutcome_ok hb
  have hscan : Scans s.tableOperand [] b s.textOperand := scans_of_encodeFrom hfree (tableOk_bits hok) hloop
  have hlen' := textOperand_length s
  have hop : ((s.startCommand (encode .encode)).commitBits b).finish.bitOperand = b :=
    commitBits_bitOperand _ (by omega)
  obtain ⟨u, hu, herr, htl, htext⟩ := decodeTakesShortestMatches
    ((((s.startCommand (encode .encode)).commitBits b).finish).startCommand (encode .decode)) s.textOperand hv
    (by rw [← bitOperand_length, startCommand_bitOperand, hop]; exact hfits)
    (by rw [startCommand_bitOperand, hop]; exact hscan) (hlen'.trans_le hlen)
  exact ⟨u, hu, herr, BitVec.eq_of_toNat_eq (htl.trans hlen'), htext⟩

end Sys2Proof.Proofs
end

section
/-! PROOFS. SER and PARSE as the statements of 43_transcode.md see them: the text of the rows (R114, R116), its division
into entries and fields (R118), the values of the fields (R119), the checks of PARSE (R120), PARSE after SER (R122). -/

namespace Sys2Proof.Proofs

open Sys2Proof Sys2Proof.Machine Sys2Proof.Safety Sys2Proof.Laws

/-! ### Decimal digits -/

theorem digitString_concat (cs : List Byte) (c : Byte) :
    digitString (cs ++ [c]) = 10 * digitString cs + (c.toNat - 0x30) := by
  simp [digitString, Nat.ofDigits_cons, Nat.add_comm]

theorem digitString_cons (c : Byte) (cs : List Byte) :
    digitString (c :: cs) = (c.toNat - 0x30) * 10 ^ cs.length + digitString cs := by
  simp [digitString, Nat.ofDigits_append, Nat.add_comm, Nat.mul_comm]

theorem digitChar_toNat {d : Nat} (h : d < 10) : (digitChar d).toNat = 0x30 + d := by
  rw [digitChar, BitVec.toNat_ofNat, Nat.mod_eq_of_lt (by omega)]

/-- The library's digits, one level deep. -/
theorem decimalChars_of_lt {n : Nat} (h : n < 10) : decimalChars n = [digitChar n] := by
  rw [decimalChars, Nat.toDigits_of_lt_base h]
  interval_cases n <;> rfl

theorem decimalChars_of_ge {n : Nat} (h : 10 ≤ n) : decimalChars n = decimalChars (n / 10) ++ [digitChar (n % 10)] := by
  have hlast : n % 10 < 10 := Nat.mod_lt n (by decide)
  have hdiv := Nat.div_add_mod n 10
  rw [← decimalChars_of_lt hlast, decimalChars, decimalChars, decimalChars, ← List.map_append,
    Nat.toDigits_append_toDigits (by decide) (by omega) hlast, hdiv]

/-- SER's digits are the library's (43_transcode.md R116). -/
theorem decimalWithin_eq {fuel n : Nat} (h : n < 10 ^ fuel) (hf : 0 < fuel) : decimalWithin fuel n = decimalChars n := by
  induction fuel generalizing n with
  | zero => omega
  | succ fuel ih =>
    rw [decimalWithin]
    split
    · next hn => exact (decimalChars_of_lt hn).symm
    · next hn =>
      rw [Nat.pow_succ] at h
      have hq : n / 10 < 10 ^ fuel := Nat.div_lt_of_lt_mul (by omega)
      have hf : 0 < fuel := by
        rcases Nat.eq_zero_or_pos fuel with rfl | hf
        · omega
        · exact hf
      rw [ih hq hf]
      exact (decimalChars_of_ge (Nat.le_of_not_lt hn)).symm

theorem decimal_eq (sym : Word) : decimal sym = decimalChars sym.toNat :=
  decimalWithin_eq (by have := sym.isLt; omega) (by decide)

/-- The digits of a number, read back (43_transcode.md R119). -/
theorem decimalWithin_digits {fuel n : Nat} (h : n < 10 ^ fuel) (hf : 0 < fuel) :
    decimalWithin fuel n ≠ [] ∧ (∀ c ∈ decimalWithin fuel n, IsDigit c) ∧ digitString (decimalWithin fuel n) = n := by
  induction fuel generalizing n with
  | zero => omega
  | succ fuel ih =>
    have hdigit : ∀ {d : Nat}, d < 10 → IsDigit (digitChar d) := fun hd => by
      rw [IsDigit, digitChar_toNat hd]
      omega
    rw [decimalWithin]
    split
    · next hn =>
      refine ⟨List.cons_ne_nil _ _, fun c hc => ?_, ?_⟩
      · rw [List.mem_singleton.mp hc]; exact hdigit hn
      · rw [digitString_cons, digitChar_toNat hn]; simp [digitString]
    · next hn =>
      have hlast : n % 10 < 10 := Nat.mod_lt n (by decide)
      rw [Nat.pow_succ] at h
      have hq : n / 10 < 10 ^ fuel := Nat.div_lt_of_lt_mul (by omega)
      have hf : 0 < fuel := by
        rcases Nat.eq_zero_or_pos fuel with rfl | hf
        · omega
        · exact hf
      obtain ⟨-, hdigits, hvalue⟩ := ih hq hf
      refine ⟨by simp, fun c hc => ?_, ?_⟩
      · rcases List.mem_append.mp hc with hc | hc
        · exact hdigits c hc
        · rw [List.mem_singleton.mp hc]; exact hdigit hlast
      · rw [digitString_concat, hvalue, digitChar_toNat hlast]
        omega

theorem integerField_decimal (sym : Word) : IntegerField (decimal sym) sym :=
  decimalWithin_digits (by have := sym.isLt; omega) (by decide)

/-! ### SER -/

/-- What SER appends from entry `i` on (43_transcode.md R116). -/
def renderedFrom : Nat → List (Word × List Bool) → List Byte
  | _, [] => []
  | i, e :: t => entryText i e ++ renderedFrom (i + 1) t

theorem renderedFrom_append (i : Nat) (t u : List (Word × List Bool)) :
    renderedFrom i (t ++ u) = renderedFrom i t ++ renderedFrom (i + t.length) u := by
  induction t generalizing i with
  | nil => rfl
  | cons e t ih =>
    have hi : i + 1 + t.length = i + (e :: t).length := by rw [List.length_cons]; omega
    rw [List.cons_append, renderedFrom, renderedFrom, ih, hi, List.append_assoc]

theorem joinEntries_cons (e : List Byte) (es : List (List Byte)) :
    joinEntries (e :: es) = e ++ es.flatMap (dash :: ·) := by
  rw [joinEntries]
  induction es generalizing e with
  | nil => simp
  | cons f es ih => rw [List.intercalate_cons_cons, ih, List.flatMap_cons]; simp [dash]

theorem renderedFrom_succ (i : Nat) (t : List (Word × List Bool)) :
    renderedFrom (i + 1) t = (t.map rowText).flatMap (dash :: ·) := by
  induction t generalizing i with
  | nil => rfl
  | cons e t ih =>
    rw [renderedFrom, ih, entryText, if_neg (Nat.succ_ne_zero i)]
    rfl

/-- From entry 0 on it appends the rows' texts, joined (43_transcode.md R114). -/
theorem renderedFrom_zero (t : List (Word × List Bool)) : renderedFrom 0 t = joinEntries (t.map rowText) := by
  cases t with
  | nil => rfl
  | cons e t => rw [renderedFrom, renderedFrom_succ, List.map_cons, joinEntries_cons, entryText, if_pos rfl]

/-- The loop of R116 goes on behind rows whose text fits. -/
theorem renderFrom_append {i n : Nat} {t : List (Word × List Bool)} (u : List (Word × List Bool))
    (h : n + (renderedFrom i t).length ≤ 65536) :
    renderFrom i n (t ++ u) =
      (renderFrom (i + t.length) (n + (renderedFrom i t).length) u).map (renderedFrom i t ++ ·) := by
  induction t generalizing i n with
  | nil =>
    simp only [List.nil_append, renderedFrom, List.length_nil, Nat.add_zero]
    cases renderFrom i n u <;> rfl
  | cons e t ih =>
    rw [renderedFrom, List.length_append] at h
    have hi : i + 1 + t.length = i + (e :: t).length := by rw [List.length_cons]; omega
    have hfits : ¬ Config.schMax < n + (entryText i e).length := Nat.not_lt.mpr (by show _ ≤ 65536; omega)
    rw [List.cons_append, renderFrom, if_neg hfits, ih (by omega), renderedFrom, List.length_append, hi, Nat.add_assoc]
    cases renderFrom _ _ u <;> simp [Except.map]

/-- A text SER makes is that of its rows. -/
theorem renderFrom_ok {i n : Nat} {t : List (Word × List Bool)} {out : List Byte} (h : renderFrom i n t = .ok out) :
    out = renderedFrom i t := by
  induction t generalizing i n out with
  | nil => cases h; rfl
  | cons e t ih =>
    rw [renderFrom] at h
    split at h
    · cases h
    · split at h
      · cases h
      · next out' h' => cases h; rw [renderedFrom, ih h']

theorem exec_ser (s : State) : exec .ser s = completeWith s (serOutcome s) State.commitScheme := rfl

theorem serOutcome_of_valid {s : State} (hv : s.tableValid = true) (hn : s.nCode ≠ 0) :
    serOutcome s = renderFrom 0 0 s.tableOperand := by
  rw [serOutcome, needTable_of_tableValid hv]
  exact if_neg hn

/-- The rows' texts, written with the library's digits. -/
theorem map_rowText (t : List (Word × List Bool)) :
    (t.map fun e => decimalChars e.1.toNat ++ [0x3A] ++ e.2.map fun x => if x then (0x31 : Byte) else 0x30) =
      t.map rowText :=
  List.map_congr_left fun e _ => by rw [rowText, decimal_eq]; rfl

/-- Settles O44: the loop appends the text of every row. -/
theorem serRendersTheTable : Obligations.SerRendersTheTable := by
  intro s scheme hscheme hv hn hfits
  rw [map_rowText, ← renderedFrom_zero] at hscheme
  subst hscheme
  have hloop := renderFrom_append (i := 0) (n := 0) (t := s.tableOperand) [] (by omega)
  rw [List.append_nil, renderFrom] at hloop
  have hser : serOutcome s = .ok (renderedFrom 0 s.tableOperand) := by
    rw [serOutcome_of_valid hv hn, hloop]
    simp [Except.map]
  refine ⟨(s.commitScheme (renderedFrom 0 s.tableOperand)).finish, by rw [exec_ser, hser, completeWith_ok], rfl, ?_, ?_⟩
  · rw [finish_schLen, commitScheme_schLen, word_toNat (by omega)]
  · rw [finish_schOperand, commitScheme_schOperand s (by omega)]

theorem tableOperand_split {s : State} {i : Nat} (hi : i < s.nCode.toNat) :
    s.tableOperand = s.tableOperand.take i ++ s.codeEntry i :: s.tableOperand.drop (i + 1) := firstOf_split _ hi

/-- Settles O45: the loop reaches entry `i` with the text of the entries before it. -/
theorem serReportsFirstError : Obligations.SerReportsFirstError := by
  refine ⟨fun s hv h => failsWith_of_error (exec_ser s) ?empty, fun s entries i he hv hi hfits hlong =>
    failsWith_of_error (exec_ser s) ?entry⟩
  case empty =>
    rw [serOutcome, needTable_of_tableValid hv]
    exact if_pos h
  case entry =>
    have hlen : s.tableOperand.length = s.nCode.toNat := firstOf_length _ _
    have htake : (s.tableOperand.take i).length = i := by rw [List.length_take, hlen, min_eq_left hi.le]
    have hget : s.tableOperand[i]'(by omega) = s.codeEntry i := firstOf_getElem _ _ _ _
    have hnext : s.tableOperand.take (i + 1) = s.tableOperand.take i ++ [s.codeEntry i] := by
      rw [← hget, List.take_append_getElem]
    rw [map_rowText] at he
    rw [he, ← List.map_take, ← renderedFrom_zero] at hfits hlong
    rw [hnext, renderedFrom_append, htake, Nat.zero_add, renderedFrom, renderedFrom, List.append_nil,
      List.length_append] at hlong
    have hloop := renderFrom_append (i := 0) (n := 0) (s.codeEntry i :: s.tableOperand.drop (i + 1))
      (t := s.tableOperand.take i) (by omega)
    rw [← tableOperand_split hi, htake, Nat.zero_add, Nat.zero_add, renderFrom,
      if_pos (show Config.schMax < _ from hlong)] at hloop
    rw [serOutcome_of_valid hv (fun h => by simp [h] at hi), hloop]
    rfl

/-! ### Pieces of a text -/

/-- The pieces with the positions of their first characters, the first at `pos` (43_transcode.md R118). -/
def piecesFrom : Nat → List (List Byte) → List (Nat × List Byte)
  | _, [] => []
  | pos, e :: es => (pos, e) :: piecesFrom (pos + e.length + 1) es

theorem piecesFrom_append (pos : Nat) (es fs : List (List Byte)) :
    piecesFrom pos (es ++ fs) = piecesFrom pos es ++ piecesFrom (pos + (es.map fun e => e.length + 1).sum) fs := by
  induction es generalizing pos with
  | nil => rfl
  | cons e es ih =>
    rw [List.cons_append, piecesFrom, piecesFrom, ih, List.map_cons, List.sum_cons, List.cons_append,
      ← Nat.add_assoc pos (e.length + 1), Nat.add_assoc pos e.length 1]

theorem splitAt_cons_sep (sep : Byte) (pos : Nat) (cs : List Byte) :
    splitAt sep pos (sep :: cs) = (pos, []) :: splitAt sep (pos + 1) cs := by
  rw [splitAt, if_pos rfl]

/-- A character that is no separator joins the first piece. -/
theorem splitAt_cons_of_ne {sep c : Byte} {pos pos' : Nat} {cs piece : List Byte} {rest : List (Nat × List Byte)}
    (hc : c ≠ sep) (h : splitAt sep (pos + 1) cs = (pos', piece) :: rest) :
    splitAt sep pos (c :: cs) = (pos, c :: piece) :: rest := by
  rw [splitAt, if_neg hc, h]

/-- A text without the separator is one piece. -/
theorem splitAt_of_not_mem {sep : Byte} {piece : List Byte} (pos : Nat) (h : sep ∉ piece) :
    splitAt sep pos piece = [(pos, piece)] := by
  induction piece generalizing pos with
  | nil => rfl
  | cons c cs ih =>
    rw [List.mem_cons, not_or] at h
    exact splitAt_cons_of_ne (Ne.symm h.1) (ih (pos + 1) h.2)

/-- A separator ends the piece before it. -/
theorem splitAt_append_sep {sep : Byte} {piece : List Byte} (pos : Nat) (cs : List Byte) (h : sep ∉ piece) :
    splitAt sep pos (piece ++ sep :: cs) = (pos, piece) :: splitAt sep (pos + piece.length + 1) cs := by
  induction piece generalizing pos with
  | nil => exact splitAt_cons_sep sep pos cs
  | cons c piece ih =>
    rw [List.mem_cons, not_or] at h
    have hpos : pos + 1 + piece.length + 1 = pos + (c :: piece).length + 1 := by rw [List.length_cons]; omega
    rw [← hpos]
    exact splitAt_cons_of_ne (Ne.symm h.1) (ih (pos + 1) h.2)

/-- Pieces joined by the separator are the pieces of the text (43_transcode.md R118). -/
theorem splitAt_intercalate {sep : Byte} {es : List (List Byte)} (pos : Nat) (hne : es ≠ []) (h : ∀ e ∈ es, sep ∉ e) :
    splitAt sep pos (List.intercalate [sep] es) = piecesFrom pos es := by
  induction es generalizing pos with
  | nil => exact absurd rfl hne
  | cons e es ih =>
    rw [List.forall_mem_cons] at h
    cases es with
    | nil => rw [List.intercalate_singleton, splitAt_of_not_mem pos h.1]; rfl
    | cons f es =>
      rw [List.intercalate_cons_cons, List.append_assoc, List.singleton_append, splitAt_append_sep pos _ h.1,
        ih _ (List.cons_ne_nil f es) h.2]
      rfl

/-- Every text is its pieces, joined. -/
theorem splitAt_pieces (sep : Byte) (pos : Nat) (text : List Byte) :
    ∃ es, es ≠ [] ∧ (∀ e ∈ es, sep ∉ e) ∧ text = List.intercalate [sep] es ∧ splitAt sep pos text = piecesFrom pos es := by
  induction text generalizing pos with
  | nil => exact ⟨[[]], by simp, by simp, by simp, rfl⟩
  | cons c cs ih =>
    obtain ⟨es, hne, hsep, rfl, hsplit⟩ := ih (pos + 1)
    obtain ⟨e, es, rfl⟩ := List.exists_cons_of_ne_nil hne
    by_cases hc : c = sep
    · subst hc
      refine ⟨[] :: e :: es, List.cons_ne_nil _ _, ?_, by simp [List.intercalate_cons_cons], ?_⟩
      · exact List.forall_mem_cons.mpr ⟨List.not_mem_nil, hsep⟩
      · rw [splitAt_cons_sep, hsplit]
        rfl
    · rw [List.forall_mem_cons] at hsep
      have hpos : pos + 1 + e.length + 1 = pos + (c :: e).length + 1 := by rw [List.length_cons]; omega
      refine ⟨(c :: e) :: es, List.cons_ne_nil _ _, List.forall_mem_cons.mpr ⟨?_, hsep.2⟩, ?_, ?_⟩
      · rw [List.mem_cons, not_or]
        exact ⟨Ne.symm hc, hsep.1⟩
      · rw [List.intercalate_cons_cons_left]
      · rw [piecesFrom] at hsplit
        rw [splitAt_cons_of_ne hc hsplit, piecesFrom, hpos]

/-! ### The fields of an entry -/

/-- An entry has two fields exactly when it has one separator (43_transcode.md R118). -/
theorem entryFields_iff {entry key value : List Byte} :
    entryFields entry = some (key, value) ↔ entry = key ++ [0x3A] ++ value ∧ colon ∉ key ∧ colon ∉ value := by
  constructor
  · intro h
    obtain ⟨es, -, hsep, rfl, hsplit⟩ := splitAt_pieces colon 0 entry
    rw [entryFields, hsplit] at h
    match es, h, hsep with
    | [e, f], h, hsep =>
      simp only [piecesFrom, Option.some.injEq, Prod.mk.injEq] at h
      obtain ⟨rfl, rfl⟩ := h
      exact ⟨by simp [List.intercalate_cons_cons, colon], hsep _ (by simp), hsep _ (by simp)⟩
    | [], h, _ => simp [piecesFrom] at h
    | [_], h, _ => simp [piecesFrom] at h
    | _ :: _ :: _ :: _, h, _ => simp [piecesFrom] at h
  · rintro ⟨rfl, hk, hv⟩
    have hsplit : splitAt colon 0 (key ++ [0x3A] ++ value) = [(0, key), (0 + key.length + 1, value)] := by
      rw [List.append_assoc, List.singleton_append]
      exact (splitAt_append_sep 0 value hk).trans (by rw [splitAt_of_not_mem _ hv])
    rw [entryFields, hsplit]

theorem digitValue_iff {c : Byte} {d : Nat} : digitValue c = some d ↔ IsDigit c ∧ d = c.toNat - 0x30 := by
  rw [digitValue]
  split
  · next h => simp only [Option.some.injEq]; exact ⟨fun hd => ⟨h, hd.symm⟩, fun hd => hd.2.symm⟩
  · next h => simp only [reduceCtorEq, false_iff]; exact fun hd => h hd.1

/-- The value of a digit string behind `v` (43_transcode.md R119). -/
theorem digitsValue_iff {v x : Nat} {cs : List Byte} :
    digitsValue v cs = some x ↔ (∀ c ∈ cs, IsDigit c) ∧ x = v * 10 ^ cs.length + digitString cs := by
  induction cs generalizing v with
  | nil => simp [digitsValue, digitString, eq_comm]
  | cons c cs ih =>
    rw [digitsValue, List.forall_mem_cons, digitString_cons, List.length_cons]
    cases hc : digitValue c with
    | none =>
      simp only [reduceCtorEq, false_iff]
      rintro ⟨⟨hd, -⟩, -⟩
      rw [digitValue_iff.mpr ⟨hd, rfl⟩] at hc
      cases hc
    | some d =>
      obtain ⟨hd, rfl⟩ := digitValue_iff.mp hc
      have hv : (v * 10 + (c.toNat - 0x30)) * 10 ^ cs.length + digitString cs =
          v * 10 ^ (cs.length + 1) + ((c.toNat - 0x30) * 10 ^ cs.length + digitString cs) := by ring
      rw [ih, hv, and_assoc]
      exact ⟨fun h => ⟨hd, h⟩, And.right⟩

/-- The integer field parses to the symbol it denotes, if that has 32 bits (43_transcode.md R119). -/
theorem parseInteger_iff {field : List Byte} {sym : Word} : parseInteger field = some sym ↔ IntegerField field sym := by
  have hlt : sym.toNat < 4294967296 := sym.isLt
  rw [parseInteger]
  split
  · next h => simp [h]
  · next hne =>
    cases hv : digitsValue 0 field with
    | none =>
      simp only [reduceCtorEq, false_iff]
      rintro ⟨-, hd, -⟩
      rw [digitsValue_iff.mpr ⟨hd, rfl⟩] at hv
      cases hv
    | some v =>
      obtain ⟨hd, hv⟩ := digitsValue_iff.mp hv
      rw [Nat.zero_mul, Nat.zero_add] at hv
      subst hv
      simp only
      split
      · next hle =>
        have hword : (word (digitString field)).toNat = digitString field :=
          word_toNat (by have : digitString field ≤ 4294967295 := hle; omega)
        rw [Option.some.injEq, IntegerField, ← BitVec.toNat_inj, hword]
        exact ⟨fun h => ⟨hne, hd, h⟩, fun h => h.2.2⟩
      · next hgt =>
        simp only [reduceCtorEq, false_iff]
        rintro ⟨-, -, h⟩
        exact hgt (by show _ ≤ 4294967295; omega)

theorem charsBits_iff {cs : List Byte} {b : List Bool} : charsBits cs = some b ↔ cs = bitChars b := by
  induction cs generalizing b with
  | nil => cases b <;> simp [charsBits, bitChars]
  | cons c cs ih =>
    constructor
    · intro h
      rw [charsBits] at h
      split at h
      · cases h
      · next bs hbs =>
        have hcs := ih.mp hbs
        split at h
        · next hc => cases h; simp [bitChars, hc, hcs]
        · split at h
          · next hc => cases h; simp [bitChars, hc, hcs]
          · cases h
    · intro h
      cases b with
      | nil => cases h
      | cons x b =>
        rw [bitChars, List.map_cons, List.cons.injEq] at h
        obtain ⟨rfl, hcs⟩ := h
        rw [charsBits, ih.mpr hcs]
        cases x <;> rfl

/-- The bit-string field parses to the bits it denotes (43_transcode.md R119). -/
theorem parseBits_iff {field : List Byte} {b : List Bool} : parseBits field = some b ↔ BitField field b := by
  rw [parseBits]
  split
  · next h => simp [h]
  · next h => rw [charsBits_iff]; exact ⟨fun hb => ⟨h, hb⟩, And.right⟩

theorem colon_not_mem_digits {cs : List Byte} (h : ∀ c ∈ cs, IsDigit c) : colon ∉ cs :=
  fun hc => absurd (h _ hc) (by decide)

theorem not_mem_bitChars (b : List Bool) : colon ∉ bitChars b ∧ dash ∉ bitChars b := by
  simp only [bitChars, List.mem_map, not_exists, not_and]
  exact ⟨fun x _ => by cases x <;> decide, fun x _ => by cases x <;> decide⟩

/-- An entry parses to a row exactly when it has two fields that do (43_transcode.md R118, R119). -/
theorem entryParses_iff {entry : List Byte} {sym : Word} {b : List Bool} :
    EntryParses entry (sym, b) ↔
      ∃ key value, entryFields entry = some (key, value) ∧ parseInteger key = some sym ∧ parseBits value = some b := by
  constructor
  · rintro ⟨key, value, rfl, hkey, hvalue⟩
    refine ⟨key, value, entryFields_iff.mpr ⟨rfl, colon_not_mem_digits hkey.2.1, ?_⟩, parseInteger_iff.mpr hkey,
      parseBits_iff.mpr hvalue⟩
    rw [hvalue.2]
    exact (not_mem_bitChars b).1
  · rintro ⟨key, value, hfields, hkey, hvalue⟩
    exact ⟨key, value, (entryFields_iff.mp hfields).1, parseInteger_iff.mp hkey, parseBits_iff.mp hvalue⟩

/-- The row of an entry that parses, or Capacity for a bit-string too long (43_transcode.md R120). -/
theorem parseEntry_of_parses {entry : List Byte} {sym : Word} {b : List Bool} (h : EntryParses entry (sym, b)) :
    parseEntry entry = if 255 < b.length then .error .capacity else .ok (sym, b) := by
  obtain ⟨key, value, hfields, hkey, hvalue⟩ := entryParses_iff.mp h
  simp only [parseEntry, hfields, hkey, hvalue]

/-- An entry that parses to no row is malformed (43_transcode.md R120). -/
theorem parseEntry_of_not {entry : List Byte} (h : ∀ row, ¬ EntryParses entry row) :
    parseEntry entry = .error .malformedScheme := by
  rw [parseEntry]
  split
  · rfl
  · next key value hfields =>
    split
    · rfl
    · next sym hkey =>
      split
      · rfl
      · next b hvalue => exact absurd (entryParses_iff.mpr ⟨key, value, hfields, hkey, hvalue⟩) (h (sym, b))

/-! ### PARSE -/

/-- The loop of R120 goes on behind entries that parse to new rows. -/
theorem parseFrom_append {entries : List (List Byte)} {rows : List (Word × List Bool)} (pos : Nat)
    (seen : List (Word × List Bool)) (rest : List (Nat × List Byte)) (h : List.Forall₂ EntryParses entries rows)
    (hbits : ∀ e ∈ rows, e.2.length ≤ 255) (hlen : (seen ++ rows).length ≤ 256)
    (hsym : ((seen ++ rows).map Prod.fst).Nodup) (hcode : ((seen ++ rows).map Prod.snd).Nodup) :
    parseFrom (piecesFrom pos entries ++ rest) seen = parseFrom rest (seen ++ rows) := by
  induction h generalizing pos seen with
  | nil => rw [List.append_nil]; rfl
  | @cons entry row entries rows he hrest ih =>
    obtain ⟨sym, b⟩ := row
    rw [List.forall_mem_cons] at hbits
    have happ : seen ++ (sym, b) :: rows = seen ++ [(sym, b)] ++ rows := by simp
    have hfull : ¬ seen.length = Config.nMax := by
      rw [List.length_append, List.length_cons] at hlen
      show ¬ seen.length = 256
      omega
    have hnewSym : sym ∉ seen.map Prod.fst := fun hm => by
      rw [List.map_append, List.nodup_append] at hsym
      exact hsym.2.2 sym hm sym (by simp) rfl
    have hnewCode : b ∉ seen.map Prod.snd := fun hm => by
      rw [List.map_append, List.nodup_append] at hcode
      exact hcode.2.2 b hm b (by simp) rfl
    rw [happ] at hlen hsym hcode ⊢
    rw [← ih (pos + entry.length + 1) (seen ++ [(sym, b)]) hbits.2 hlen hsym hcode, piecesFrom, List.cons_append,
      parseFrom, if_neg hfull, parseEntry_of_parses he, if_neg (Nat.not_lt.mpr hbits.1)]
    simp only [if_neg hnewSym, if_neg hnewCode]

theorem exec_parse (s : State) : exec .parse s = completeWith s (parseOutcome s) State.commitTable := rfl

/-- PARSE sees the entries of a joined text (43_transcode.md R118). -/
theorem parseOutcome_of_entries {s : State} {entries : List (List Byte)} (hlen : s.schLen.toNat ≤ 65536)
    (hop : s.schOperand = joinEntries entries) (hne : entries ≠ []) (hdash : NoDash entries) :
    parseOutcome s = parseFrom (piecesFrom 0 entries) [] := by
  rw [parseOutcome, checkLength_ok hlen, hop]
  exact congrArg (parseFrom · []) (splitAt_intercalate 0 hne hdash)

/-- An entry that parses holds no delimiter. -/
theorem dash_not_mem_of_parses {entry : List Byte} {row : Word × List Bool} (h : EntryParses entry row) :
    (0x2D : Byte) ∉ entry := by
  obtain ⟨key, value, rfl, hkey, hvalue⟩ := h
  rw [hvalue.2, List.mem_append, List.mem_append, not_or, not_or]
  exact ⟨⟨fun hc => absurd (hkey.2.1 _ hc) (by decide), by decide⟩, (not_mem_bitChars row.2).2⟩

theorem noDash_of_parses {entries : List (List Byte)} {rows : List (Word × List Bool)}
    (h : List.Forall₂ EntryParses entries rows) : NoDash entries := by
  induction h with
  | nil => exact List.forall_mem_nil _
  | cons he _ ih => exact List.forall_mem_cons.mpr ⟨dash_not_mem_of_parses he, ih⟩

/-- Settles O46: the loop makes a row of every entry. -/
theorem parseReadsTheScheme : Obligations.ParseReadsTheScheme := by
  intro s entries rows hlen hop h1 hMax hparses hbits hsym hcode
  have hne : entries ≠ [] := by
    rintro rfl
    cases hparses
    exact absurd h1 (by decide)
  have hloop := parseFrom_append 0 [] [] hparses hbits hMax hsym hcode
  rw [List.append_nil, List.nil_append] at hloop
  have hparse : parseOutcome s = .ok rows :=
    (parseOutcome_of_entries hlen hop hne (noDash_of_parses hparses)).trans hloop
  refine ⟨(s.commitTable rows).finish, by rw [exec_parse, hparse, completeWith_ok], rfl, rfl, ?_, ?_⟩
  · rw [finish_nCode, commitTable_nCode, word_toNat (by omega)]
  · rw [finish_tableOperand,
      commitTable_tableOperand s (by omega) fun e he => (hbits e he).trans (by decide)]

/-- Settles O47: the loop reaches entry `k` with the rows before it, and its checks on that entry decide. -/
theorem parseReportsFirstDefect : Obligations.ParseReportsFirstDefect := by
  refine ⟨fun s h => failsWith_of_error (exec_parse s) ?long,
    fun s entries rows k hlen hop hdash hk hparses hbits hsym hcode hMax => ?entry⟩
  case long => rw [parseOutcome, checkLength_error h]
  case entry =>
    have hrows : rows.length = k := by rw [← hparses.length_eq, List.length_take, min_eq_left hk.le]
    have hget : entries.getD k [] = entries[k] := List.getD_eq_getElem _ _ hk
    have hsplit : entries = entries.take k ++ entries[k] :: entries.drop (k + 1) := by
      rw [List.getElem_cons_drop, List.take_append_drop]
    have hne : entries ≠ [] := List.ne_nil_of_length_pos (by omega)
    have hpieces : piecesFrom 0 entries = piecesFrom 0 (entries.take k)
        ++ piecesFrom (entryOffset entries k) (entries[k] :: entries.drop (k + 1)) := by
      conv_lhs => rw [hsplit, piecesFrom_append, Nat.zero_add]
      rfl
    obtain ⟨rest, hloop⟩ : ∃ rest, parseOutcome s = parseFrom ((entryOffset entries k, entries[k]) :: rest) rows := by
      refine ⟨piecesFrom (entryOffset entries k + entries[k].length + 1) (entries.drop (k + 1)), ?_⟩
      have h := parseFrom_append 0 [] (piecesFrom (entryOffset entries k) (entries[k] :: entries.drop (k + 1))) hparses
        hbits (by simpa [hrows] using hMax) hsym hcode
      rw [parseOutcome_of_entries hlen hop hne hdash, hpieces]
      exact h
    rw [parseFrom] at hloop
    refine ⟨fun hfull => failsWith_of_error (exec_parse s) ?_, fun hlt hbad => failsWith_of_error (exec_parse s) ?_,
      fun hlt sym b he => ⟨fun hlong => failsWith_of_error (exec_parse s) ?_, fun hle hdup =>
        failsWith_of_error (exec_parse s) ?_⟩⟩ <;> rw [hloop]
    · exact if_pos (hrows.trans hfull)
    all_goals rw [if_neg (show ¬ rows.length = 256 by omega)]
    · rw [parseEntry_of_not (hget ▸ hbad)]
    · rw [parseEntry_of_parses (hget ▸ he), if_pos hlong]
    · rw [parseEntry_of_parses (hget ▸ he), if_neg (Nat.not_lt.mpr hle)]
      simp only
      rcases hdup with hs | hb
      · rw [if_pos hs]
      · rw [if_pos hb, ite_self]

/-! ### PARSE after SER -/

/-- The text of a row parses to the row (43_transcode.md R122). -/
theorem entryParses_rowText {e : Word × List Bool} (h : 1 ≤ e.2.length) : EntryParses (rowText e) e := by
  refine ⟨decimal e.1, bitChars e.2, rfl, integerField_decimal e.1, ?_, rfl⟩
  exact List.ne_nil_of_length_pos (by rw [bitChars, List.length_map]; exact h)

/-- Settles O58: SER's text is the rows' texts, joined, and each parses to its row. -/
theorem parseAfterSerIsIdentity : Obligations.ParseAfterSerIsIdentity := by
  intro s t hv hok h he
  rcases exec_next h with ⟨r, hr, rfl⟩ | ⟨c, hc, rfl⟩
  · exact absurd he hr
  obtain ⟨-, hn, hfits, hloop⟩ := serOutcome_ok hc
  have htext : c = joinEntries (s.tableOperand.map rowText) := (renderFrom_ok hloop).trans (renderedFrom_zero _)
  have hbits := tableOk_bits hok
  obtain ⟨hMax, -, hsym, hcode⟩ := hok
  have hMax : s.nCode.toNat ≤ 256 := hMax
  have hpos : 1 ≤ s.nCode.toNat := Nat.one_le_iff_ne_zero.mpr fun h0 => hn (BitVec.eq_of_toNat_eq (by simpa using h0))
  have hlen : s.tableOperand.length = s.nCode.toNat := firstOf_length _ _
  have hschLen : (word c.length).toNat = c.length := word_toNat (by omega)
  have hparses : List.Forall₂ EntryParses (s.tableOperand.map rowText) s.tableOperand :=
    List.forall₂_map_left_iff.mpr (List.forall₂_same.mpr fun e he => entryParses_rowText (hbits e he).1)
  obtain ⟨u, hu, herr, hvalid, hnCode, hop⟩ := parseReadsTheScheme
    (((s.startCommand (encode .ser)).commitScheme c).finish.startCommand (encode .parse)) _ s.tableOperand
    (by show (word c.length).toNat ≤ 65536; omega)
    ((commitScheme_schOperand _ (by omega)).trans htext) (hlen ▸ hpos) (hlen ▸ hMax) hparses
    (fun e he => (hbits e he).2) hsym hcode
  exact ⟨u, hu, herr, hvalid, BitVec.eq_of_toNat_eq (hnCode.trans hlen), hop⟩

end Sys2Proof.Proofs
end

section
/-! PROOFS. PACK and UNPACK undo each other (44_bitpack.md section 4): on bit-strings the sentinel is the last 1, on byte
streams whose last byte is not 0 the last 1 stands in that byte. -/

namespace Sys2Proof.Proofs

open Sys2Proof Sys2Proof.Machine Sys2Proof.Safety Sys2Proof.Laws

/-! ### UNPACK after PACK -/

theorem lastOne_append {bits : List Bool} {q : Nat} (front : List Bool) (h : lastOne bits = some q) :
    lastOne (front ++ bits) = some (front.length + q) := by
  induction front with
  | nil => rw [List.nil_append, h, List.length_nil, Nat.zero_add]
  | cons x front ih => rw [List.cons_append, lastOne, ih, List.length_cons, Nat.add_right_comm]

theorem lastOne_true_zeros (n : Nat) : lastOne (true :: List.replicate n false) = some 0 := by
  rw [lastOne, lastOne_none.mpr fun x hx => List.eq_of_mem_replicate hx]
  rfl

theorem packBytes_expand (b : List Bool) : (packBytes b).flatMap bitsOfByte = sentinelForm b :=
  groupBytes_expand _ _ (sentinelForm_length b)

theorem sentinelForm_eq (b : List Bool) :
    sentinelForm b = b ++ true :: List.replicate (7 - b.length % 8) false := by
  rw [sentinelForm, List.append_assoc, List.singleton_append]

/-- The last 1 of a packed bit-string is its sentinel. -/
theorem unpackBits_packBytes (b : List Bool) : unpackBits (packBytes b) = some b := by
  rw [unpackBits, packBytes_expand, sentinelForm_eq, lastOne_append b (lastOne_true_zeros _), Option.map_some,
    Nat.add_zero, List.take_left]

/-- Committing the bits that stand in BIT memory changes none. -/
theorem commitBits_firstOf_bitAt (s : State) (n i : Nat) : (s.commitBits (firstOf n s.bitAt)).bitAt i = s.bitAt i := by
  rw [commitBits_bitAt]
  split
  · exact firstOf_getElem ..
  · rfl

theorem commitBytes_firstOf_byteAt (s : State) (n i : Nat) :
    (s.commitBytes (firstOf n s.byteAt)).byteAt i = s.byteAt i := by
  rw [commitBytes_byteAt]
  split
  · exact firstOf_getElem ..
  · rfl

/-- Settles O55: UNPACK finds the sentinel and commits the bits PACK read. -/
theorem unpackAfterPackIsIdentity : Obligations.UnpackAfterPackIsIdentity := by
  intro s h
  have hlen : (packBytes s.bitOperand).length ≤ 8192 := by rw [packBytes_bitOperand_length]; omega
  have hbits : unpackBits (s.commitBytes (packBytes s.bitOperand)).byteOperand = some s.bitOperand := by
    rw [commitBytes_byteOperand _ (by omega), unpackBits_packBytes]
  refine ⟨_, _, exec_pack_of_le h, rfl, exec_unpack_of_some ?_ hbits, rfl, ?_, fun i => ?_⟩
  · exact (word_toNat (n := (packBytes s.bitOperand).length) (by omega)).le.trans hlen
  · show word s.bitOperand.length = s.bitLen
    rw [State.bitOperand, firstOf_length, word, BitVec.ofNat_toNat, BitVec.setWidth_eq]
  · exact commitBits_firstOf_bitAt s _ i

/-! ### PACK after UNPACK -/

/-- The bits strictly before the last 1, put in sentinel form, are the bits, when no byte follows that of the last 1. -/
theorem sentinelForm_take_lastOne {bits : List Bool} {p : Nat} (h : lastOne bits = some p)
    (hlen : bits.length = 8 * (p / 8 + 1)) : sentinelForm (bits.take p) = bits := by
  obtain ⟨hp, hone, hzeros⟩ := lastOne_some h
  have htake : (bits.take p).length = p := by rw [List.length_take, min_eq_left hp.le]
  have hrest : List.replicate (7 - p % 8) false = bits.drop (p + 1) := by
    refine (List.eq_replicate_iff.mpr ⟨by rw [List.length_drop]; omega, fun x hx => ?_⟩).symm
    obtain ⟨q, hq, rfl⟩ := List.getElem_of_mem hx
    rw [List.getElem_drop]
    exact hzeros _ _ (by omega)
  rw [sentinelForm_eq, htake, hrest, ← hone, List.getElem_cons_drop, List.take_append_drop]

theorem groupBytes_flatMap (y : List Byte) : groupBytes y.length (y.flatMap bitsOfByte) = y := by
  induction y with
  | nil => rfl
  | cons v y ih =>
    rw [List.length_cons, groupBytes, List.flatMap_cons, List.take_left' (bitsOfByte_length v),
      List.drop_left' (bitsOfByte_length v), ih, byteOfGroup_bitsOfByte]

/-- A byte that is not 0 holds a 1. -/
theorem lastOne_bitsOfByte {v : Byte} (h : v ≠ 0) : ∃ q < 8, lastOne (bitsOfByte v) = some q := by
  cases hl : lastOne (bitsOfByte v) with
  | some q => exact ⟨q, (lastOne_some hl).1.trans_eq (bitsOfByte_length v), rfl⟩
  | none =>
    have hzero : bitsOfByte v = List.replicate 8 false :=
      List.eq_replicate_iff.mpr ⟨bitsOfByte_length v, lastOne_none.mp hl⟩
    exact absurd (by rw [← byteOfGroup_bitsOfByte v, hzero]; rfl) h

/-- PACK's bytes of what UNPACK keeps of a byte stream are the stream, if its last byte is not 0. -/
theorem packBytes_of_unpackBits {y : List Byte} {v : Byte} (h : v ≠ 0) :
    ∃ b, unpackBits (y ++ [v]) = some b ∧ packBytes b = y ++ [v] ∧ b.length / 8 = y.length := by
  obtain ⟨q, hq, hlast⟩ := lastOne_bitsOfByte h
  have hlen := flatMap_bitsOfByte_length (y ++ [v])
  have hp : lastOne ((y ++ [v]).flatMap bitsOfByte) = some (8 * y.length + q) := by
    rw [List.flatMap_append, lastOne_append _ (by simpa using hlast), flatMap_bitsOfByte_length]
  rw [List.length_append, List.length_singleton] at hlen
  have hb : (((y ++ [v]).flatMap bitsOfByte).take (8 * y.length + q)).length = 8 * y.length + q := by
    rw [List.length_take, hlen]
    omega
  refine ⟨_, by rw [unpackBits, hp, Option.map_some], ?_, by rw [hb]; omega⟩
  rw [packBytes, hb, sentinelForm_take_lastOne hp (by rw [hlen]; omega),
    show (8 * y.length + q) / 8 + 1 = (y ++ [v]).length by rw [List.length_append, List.length_singleton]; omega,
    groupBytes_flatMap]

/-- Settles O56: the bits kept reach into the last byte, so PACK makes the bytes UNPACK read. -/
theorem packAfterUnpackIsIdentity : Obligations.PackAfterUnpackIsIdentity := by
  intro s h1 hle hv
  obtain ⟨n, hn⟩ : ∃ n, s.byteLen.toNat = n + 1 := ⟨_, (Nat.sub_add_cancel h1).symm⟩
  have hop : s.byteOperand = firstOf n s.byteAt ++ [s.byteAt n] := by rw [State.byteOperand, hn, firstOf_succ]
  rw [hn, Nat.add_sub_cancel] at hv
  obtain ⟨b, hunpack, hpack, hlen⟩ := packBytes_of_unpackBits (y := firstOf n s.byteAt) hv
  rw [← hop] at hunpack hpack
  rw [firstOf_length] at hlen
  have hword : (word b.length).toNat = b.length := word_toNat (by omega)
  have hbits : (s.commitBits b).bitOperand = b := commitBits_bitOperand _ (by omega)
  refine ⟨_, _, exec_unpack_of_some hle hunpack, rfl, exec_pack_of_le (hword.le.trans (by omega)), rfl, ?_, fun i => ?_⟩
  · show word (packBytes (s.commitBits b).bitOperand).length = s.byteLen
    rw [hbits, hpack, State.byteOperand, firstOf_length, word, BitVec.ofNat_toNat, BitVec.setWidth_eq]
  · show (s.commitBytes (packBytes (s.commitBits b).bitOperand)).byteAt i = s.byteAt i
    rw [hbits, hpack]
    exact commitBytes_firstOf_byteAt s _ i

end Sys2Proof.Proofs
end

section
/-! PROOFS. The outcome of a command depends on its listed operands only (30_encoding.md R63): states that agree on the
operands give the same result up to the commit, and a commit writes the same outputs into either. -/

namespace Sys2Proof.Proofs

open Sys2Proof Sys2Proof.Machine Sys2Proof.Safety Sys2Proof.Laws

/-! ### Agreement on the operands -/

section Operands
variable {s u : State}

theorem firstOf_agree {α : Type} {n m : Word} {f g : Nat → α} (hn : n = m) (h : ∀ j, j < n.toNat → f j = g j) :
    firstOf n.toNat f = firstOf m.toNat g := by
  subst hn
  exact firstOf_congr h

theorem freqOutcome_agree (h : ReadsAgree .freq s u) : freqOutcome u = freqOutcome s := by
  obtain ⟨hlen, htext⟩ := h
  have hop : s.textOperand = u.textOperand := firstOf_agree hlen htext
  rw [freqOutcome, freqOutcome, hlen, hop]

theorem buildOutcome_agree (h : ReadsAgree .build s u) : buildOutcome u = buildOutcome s := by
  obtain ⟨hlen, hfreq⟩ := h
  have hop : s.freqOperand = u.freqOperand :=
    firstOf_agree hlen fun j hj => Prod.ext (hfreq j hj).1 (hfreq j hj).2
  rw [buildOutcome, buildOutcome, checkFreqs, checkFreqs, hlen, hop]

/-- Every node the walk reaches is read through its index below NNODE. -/
theorem walk_agree (hn : s.nNode = u.nNode) (h : ∀ j, j < s.nNode.toNat →
    s.nodeKindAt j = u.nodeKindAt j ∧ s.nodeAAt j = u.nodeAAt j ∧ s.nodeBAt j = u.nodeBAt j)
    (fuel v : Nat) (path : List Bool) : u.walk fuel v path = s.walk fuel v path := by
  induction fuel generalizing v path with
  | zero => rfl
  | succ fuel ih =>
    rw [State.walk, State.walk, ← hn]
    by_cases hv : v < s.nNode.toNat
    · obtain ⟨hkind, ha, hb⟩ := h v hv
      simp only [if_pos hv, hkind, ha, hb, ih]
    · simp only [if_neg hv]

theorem leafRows_agree (h : ReadsAgree .derive s u) : u.leafRows = s.leafRows := by
  obtain ⟨-, hn, hroot, hnodes⟩ := h
  rw [State.leafRows, State.leafRows, ← hn, ← hroot]
  by_cases hv : s.root.toNat < s.nNode.toNat
  · obtain ⟨hkind, ha, -⟩ := hnodes _ hv
    simp only [if_pos hv, hkind, ha, walk_agree hn hnodes]
  · simp only [if_neg hv]

theorem checkRowsFrom_agree (n i : Nat) (seen : List (Word × List Bool))
    (h : ∀ j, j < i + n → s.codeEntry j = u.codeEntry j ∧ s.codeLenAt j = u.codeLenAt j) :
    checkRowsFrom u n i seen = checkRowsFrom s n i seen := by
  induction n generalizing i seen with
  | zero => rfl
  | succ n ih =>
    obtain ⟨hentry, hlen⟩ := h i (by omega)
    have hsym : s.codeSymAt i = u.codeSymAt i := congrArg Prod.fst hentry
    have hcode : s.codeString i = u.codeString i := congrArg Prod.snd hentry
    simp only [checkRowsFrom, checkRow, hentry, hlen, hsym, hcode, ih (i + 1) _ fun j hj => h j (by omega)]

theorem invertOutcome_agree (h : ReadsAgree .invert s u) : invertOutcome u = invertOutcome s := by
  obtain ⟨hn, hrows⟩ := h
  rw [invertOutcome, invertOutcome, ← hn, checkRowsFrom_agree _ 0 [] fun j hj => hrows j (by omega)]

theorem encodeOutcome_agree (h : ReadsAgree .encode s u) : encodeOutcome u = encodeOutcome s := by
  obtain ⟨hvalid, hlen, hn, htext, hrows⟩ := h
  have hop : s.textOperand = u.textOperand := firstOf_agree hlen htext
  have htable : s.tableOperand = u.tableOperand := firstOf_agree hn hrows
  rw [encodeOutcome, encodeOutcome, needTable, needTable, hvalid, hlen, hop, htable]

theorem decodeOutcome_agree (h : ReadsAgree .decode s u) : decodeOutcome u = decodeOutcome s := by
  obtain ⟨hvalid, hlen, hn, hbits, hrows⟩ := h
  have hop : s.bitOperand = u.bitOperand := firstOf_agree hlen hbits
  have htable : s.tableOperand = u.tableOperand := firstOf_agree hn hrows
  rw [decodeOutcome, decodeOutcome, needTable, needTable, hvalid, hlen, hop, htable]

theorem serOutcome_agree (h : ReadsAgree .ser s u) : serOutcome u = serOutcome s := by
  obtain ⟨hvalid, hn, hrows⟩ := h
  have htable : s.tableOperand = u.tableOperand := firstOf_agree hn hrows
  rw [serOutcome, serOutcome, needTable, needTable, hvalid, hn, htable]

theorem parseOutcome_agree (h : ReadsAgree .parse s u) : parseOutcome u = parseOutcome s := by
  obtain ⟨hlen, hchars⟩ := h
  have hop : s.schOperand = u.schOperand := firstOf_agree hlen hchars
  rw [parseOutcome, parseOutcome, hlen, hop]

theorem packOutcome_agree (h : ReadsAgree .pack s u) : packOutcome u = packOutcome s := by
  obtain ⟨hlen, hbits⟩ := h
  have hop : s.bitOperand = u.bitOperand := firstOf_agree hlen hbits
  rw [packOutcome, packOutcome, hlen, hop]

theorem unpackOutcome_agree (h : ReadsAgree .unpack s u) : unpackOutcome u = unpackOutcome s := by
  obtain ⟨hlen, hbytes⟩ := h
  have hop : s.byteOperand = u.byteOperand := firstOf_agree hlen hbytes
  rw [unpackOutcome, unpackOutcome, hlen, hop]

end Operands

/-! ### Agreement on the outputs -/

theorem lt_of_lt_word {j n : Nat} (h : j < (word n).toNat) : j < n := h.trans_le (by
  rw [word, BitVec.toNat_ofNat]
  exact Nat.mod_le _ _)

section Outputs
variable (s u : State)

theorem commitFreq_agree (l : List (Nat × Word)) : WritesAgree .freq (s.commitFreq l).finish (u.commitFreq l).finish := by
  refine ⟨rfl, fun j hj => ?_⟩
  have hj : j < l.length := lt_of_lt_word hj
  simp [commitFreq_freqCountAt, commitFreq_freqSymAt, hj]

theorem commitTree_agree (r : List TreeNode × Nat) :
    WritesAgree .build (s.commitTree r).finish (u.commitTree r).finish := by
  refine ⟨rfl, rfl, rfl, fun j hj => ?_⟩
  have hj : j < r.1.length := lt_of_lt_word hj
  simp [commitTree_nodeKindAt, commitTree_nodeAAt, commitTree_nodeBAt, hj]

theorem commitTable_agree (l : List (Word × List Bool)) :
    WritesAgree .derive (s.commitTable l).finish (u.commitTable l).finish := by
  refine ⟨rfl, rfl, fun j hj => ?_⟩
  have hj : j < l.length := lt_of_lt_word hj
  refine ⟨?_, ?_, fun k hk => ?_⟩
  · simp [commitTable_codeSymAt, hj]
  · simp [commitTable_codeLenAt, hj]
  · simp [commitTable_codeWordAt, hj, hk]

theorem commitBits_agree (b : List Bool) : WritesAgree .encode (s.commitBits b).finish (u.commitBits b).finish := by
  refine ⟨rfl, fun j hj => ?_⟩
  have hj : j < b.length := lt_of_lt_word hj
  simp [commitBits_bitAt, hj]

theorem commitText_agree (l : List Word) : WritesAgree .decode (s.commitText l).finish (u.commitText l).finish := by
  refine ⟨rfl, fun j hj => ?_⟩
  have hj : j < l.length := lt_of_lt_word hj
  simp [commitText_textAt, hj]

theorem commitScheme_agree (c : List Byte) : WritesAgree .ser (s.commitScheme c).finish (u.commitScheme c).finish := by
  refine ⟨rfl, fun j hj => ?_⟩
  have hj : j < c.length := lt_of_lt_word hj
  simp [commitScheme_schAt, hj]

theorem commitBytes_agree (y : List Byte) : WritesAgree .pack (s.commitBytes y).finish (u.commitBytes y).finish := by
  refine ⟨rfl, fun j hj => ?_⟩
  have hj : j < y.length := lt_of_lt_word hj
  simp [commitBytes_byteAt, hj]

end Outputs

/-! ### The two runs -/

/-- Two runs end alike: the same error, or the same outputs. -/
def RunsAgree (i : Instr) (s u : State) : Prop :=
  ∀ t, exec i s = .next t →
    ∃ v, exec i u = .next v ∧ v.err = t.err ∧ v.errInfo = t.errInfo ∧ (t.err = .noError → WritesAgree i t v)

/-- Completions with one outcome agree, when the commits do. -/
theorem runsAgree_of_completeWith {α : Type} {i : Instr} {s u : State} {o o' : Except Raise α}
    {c : α → State → State} (hs : exec i s = completeWith s o c) (hu : exec i u = completeWith u o' c) (ho : o' = o)
    (hkind : ∀ r, o = .error r → r.kind ≠ .noError) (hc : ∀ a, WritesAgree i (c a s).finish (c a u).finish) :
    RunsAgree i s u := by
  intro t h
  rw [hu, ho]
  rcases completeWith_next.mp (hs ▸ h) with ⟨a, rfl, rfl⟩ | ⟨r, rfl, rfl⟩
  · exact ⟨_, rfl, rfl, rfl, fun _ => hc a⟩
  · exact ⟨_, rfl, rfl, rfl, fun he => absurd he (hkind r rfl)⟩

theorem exec_derive_of_not_valid {s : State} (h : s.treeValid = false) :
    exec .derive s = completeWith s (.error ⟨.notReady, 0⟩) State.commitTable :=
  if_neg (by rw [h]; decide)

/-- DERIVE completes as its tree says, or stops (42_code_table.md R96). -/
theorem runsAgree_derive {s u : State} (h : ReadsAgree .derive s u) : RunsAgree .derive s u := by
  have hvalid : s.treeValid = u.treeValid := h.1
  rcases execDerive_cases s with ⟨hv, -⟩ | ⟨hv, rows, hrows, hlen, hbits, hs⟩ | ⟨-, -, hs⟩
  · exact runsAgree_of_completeWith (exec_derive_of_not_valid hv) (exec_derive_of_not_valid (hvalid ▸ hv)) rfl
      (by rintro r ⟨⟩; decide) (commitTable_agree s u)
  · have hu := exec_derive_of_leafRows (hvalid ▸ hv) ((leafRows_agree h).trans hrows) hlen hbits
    exact runsAgree_of_completeWith (o := .ok rows) (o' := .ok rows) hs hu rfl nofun (commitTable_agree s u)
  · exact fun t ht => nomatch hs.symm.trans ht

/-- Settles O54, command by command. -/
theorem outcomeDependsOnlyOnOperands : Obligations.OutcomeDependsOnlyOnOperands := by
  intro i s u t h
  suffices hruns : RunsAgree i s u from hruns t
  cases i
  case freq =>
    exact runsAgree_of_completeWith (exec_freq s) (exec_freq u) (freqOutcome_agree h)
      (fun r hr => by rw [freqOutcome_error hr]; decide) (commitFreq_agree s u)
  case build =>
    exact runsAgree_of_completeWith (exec_build s) (exec_build u) (buildOutcome_agree h)
      (fun r hr => by rcases buildOutcome_error hr with h | h | h <;> rw [h] <;> decide) (commitTree_agree s u)
  case derive => exact runsAgree_derive h
  case invert =>
    exact runsAgree_of_completeWith (exec_invert s) (exec_invert u) (invertOutcome_agree h)
      (fun r hr => by rcases invertOutcome_error hr with h | h <;> rw [h] <;> decide) fun _ => rfl
  case encode =>
    exact runsAgree_of_completeWith (exec_encode s) (exec_encode u) (encodeOutcome_agree h)
      (fun r hr => by rcases encodeOutcome_error hr with h | h | h <;> rw [h] <;> decide) (commitBits_agree s u)
  case decode =>
    exact runsAgree_of_completeWith (exec_decode s) (exec_decode u) (decodeOutcome_agree h)
      (fun r hr => by rcases decodeOutcome_error hr with h | h | h <;> rw [h] <;> decide) (commitText_agree s u)
  case ser =>
    exact runsAgree_of_completeWith (exec_ser s) (exec_ser u) (serOutcome_agree h)
      (fun r hr => by rcases serOutcome_error hr with h | h | h <;> rw [h] <;> decide) (commitScheme_agree s u)
  case parse =>
    exact runsAgree_of_completeWith (exec_parse s) (exec_parse u) (parseOutcome_agree h)
      (fun r hr => by rcases parseOutcome_error hr with h | h <;> rw [h] <;> decide) (commitTable_agree s u)
  case pack =>
    exact runsAgree_of_completeWith (exec_pack s) (exec_pack u) (packOutcome_agree h)
      (fun r hr => by simp [(packOutcome_error hr).1]) (commitBytes_agree s u)
  case unpack =>
    exact runsAgree_of_completeWith (exec_unpack s) (exec_unpack u) (unpackOutcome_agree h)
      (fun r hr => by rcases unpackOutcome_error hr with h | h <;> rw [h] <;> decide) (commitBits_agree s u)

end Sys2Proof.Proofs
end

section
/-! PROOFS. The five commands of the text round trip in sequence (43_transcode.md R122): FREQ's list is one BUILD
accepts, BUILD's tree one DERIVE walks, DERIVE's table prefix-free, and none of the three touches TEXT memory. -/

namespace Sys2Proof.Proofs

open Sys2Proof Sys2Proof.Machine Sys2Proof.Safety Sys2Proof.Laws

/-- The frequency list FREQ makes of a text. -/
def wordCounts (text : List Word) : List (Word × Word) := text.eraseDups.map fun x => (word (text.count x), x)

theorem wordCounts_symbols (text : List Word) : (wordCounts text).map Prod.snd = text.eraseDups := by
  simp [wordCounts, Function.comp_def]

/-- A count of a text within TEXT memory fits its word. -/
theorem word_count_toNat {text : List Word} (h : text.length ≤ 4096) (x : Word) :
    (word (text.count x)).toNat = text.count x :=
  word_toNat ((List.count_le_length.trans h).trans_lt (by decide))

/-- BUILD accepts FREQ's list of a non-empty text (41_tree_build.md R78). -/
theorem freqListOk_wordCounts {text : List Word} (hne : text ≠ []) (hlen : text.length ≤ 4096)
    (hdistinct : text.eraseDups.length ≤ 256) : FreqListOk (wordCounts text) := by
  have hsize : (wordCounts text).length = text.eraseDups.length := List.length_map _
  obtain ⟨x, hx⟩ := List.exists_mem_of_ne_nil text hne
  have hpos : 1 ≤ text.eraseDups.length := List.length_pos_of_mem (List.mem_eraseDups.mpr hx)
  refine ⟨hsize ▸ hpos, hsize ▸ hdistinct, fun e he => ?_, ?_, ?_⟩
  · obtain ⟨y, hy, rfl⟩ := List.mem_map.mp he
    have hcount := List.count_pos_iff.mpr (List.mem_eraseDups.mp hy)
    rw [← word_count_toNat hlen] at hcount
    have hword : word (text.count y) ≠ 0 := fun h0 => absurd hcount (by rw [h0]; decide)
    exact hword
  · rw [wordCounts_symbols]
    exact nodup_eraseDups text
  · have hsum := List.sum_le_card_nsmul ((wordCounts text).map fun e => e.1.toNat) 4096 fun n hn => by
      simp only [wordCounts, List.map_map, List.mem_map] at hn
      obtain ⟨y, -, rfl⟩ := hn
      exact (word_count_toNat hlen y).trans_le (List.count_le_length.trans hlen)
    rw [List.length_map, hsize, smul_eq_mul] at hsum
    show ((wordCounts text).map fun e => e.1.toNat).sum ≤ 4294967295
    omega

theorem textOperand_ne_nil {s : State} (h : 1 ≤ s.textLen.toNat) : s.textOperand ≠ [] :=
  List.ne_nil_of_length_pos (by rwa [textOperand_length])

/-- Two states hold the same text. -/
def SameText (s t : State) : Prop := t.textLen = s.textLen ∧ t.textOperand = s.textOperand

theorem SameText.trans {s t u : State} (h : SameText s t) (h' : SameText t u) : SameText s u :=
  ⟨h'.1.trans h.1, h'.2.trans h.2⟩

/-- FREQ of a non-empty text leaves a list BUILD accepts. -/
theorem issue_freq {s : State} (h1 : 1 ≤ s.textLen.toNat) (hMax : s.textLen.toNat ≤ 4096)
    (hdistinct : s.textOperand.eraseDups.length ≤ 256) :
    ∃ t, issue .freq s = .next t ∧ t.err = .noError ∧ FreqListOk t.freqOperand ∧ SameText s t := by
  refine ⟨_, exec_freq_of_le hMax hdistinct, rfl, ?_, rfl, rfl⟩
  have hlist : ((s.startCommand (encode .freq)).commitFreq (countsOf s.textOperand)).freqOperand =
    wordCounts s.textOperand := (commitFreq_countsOf _ hdistinct).2
  exact hlist ▸ freqListOk_wordCounts (textOperand_ne_nil h1) ((textOperand_length s).trans_le hMax) hdistinct

/-- BUILD of a list it accepts leaves a valid tree (41_tree_build.md R88). -/
theorem issue_build {s : State} (h : FreqListOk s.freqOperand) :
    ∃ t, issue .build s = .next t ∧ t.err = .noError ∧ t.treeValid = true ∧ TreeOk t ∧ SameText s t := by
  have ⟨h1, hMax, _, hsym, _⟩ := h
  exact ⟨_, exec_build_of_ok h, rfl, rfl, treeOk_of_treeOf (treeOf_commitTree _ h1 hMax hsym).1, rfl, rfl⟩

/-- DERIVE of a valid tree leaves a valid, prefix-free table (42_code_table.md R98). -/
theorem issue_derive {s : State} (hv : s.treeValid = true) (h : TreeOk s) :
    ∃ t, issue .derive s = .next t ∧ t.err = .noError ∧ t.tableValid = true ∧ TableOk t ∧
      PrefixFree t.tableOperand ∧ SameText s t := by
  obtain ⟨rows, -, hexec⟩ := exec_derive_of_treeOk (s := s.startCommand (encode .derive)) hv h
  obtain ⟨t, ht, hvalid, htable, hfree, -⟩ := derivedTableIsPrefixFree (s.startCommand (encode .derive)) hv h
  cases hexec.symm.trans ht
  exact ⟨_, hexec, rfl, hvalid, htable, hfree, rfl, rfl⟩

/-- Settles O59: each command leaves what the next one needs, and the last two are O57's. -/
theorem textRoundTrip : Obligations.TextRoundTrip := by
  intro s h1 hMax hdistinct
  obtain ⟨a, ha, haerr, hlist, hsa⟩ := issue_freq h1 hMax hdistinct
  obtain ⟨b, hb, hberr, htreeValid, htree, hab⟩ := issue_build hlist
  obtain ⟨c, hc, hcerr, htableValid, htable, hfree, hbc⟩ := issue_derive htreeValid htree
  have ⟨hlen, htext⟩ := (hsa.trans hab).trans hbc
  refine ⟨a, b, c, ha, haerr, hb, hberr, hc, hcerr, fun d hd hderr => ?_⟩
  obtain ⟨e, he, heerr, helen, hetext⟩ := decodeAfterEncodeIsIdentity c d htableValid htable hfree hd hderr
  exact ⟨e, he, heerr, helen.trans hlen, hetext.trans htext⟩

end Sys2Proof.Proofs
end
